-- ==== Sys2Proof/Word.lean ====
section
/-!
DEFINITION. The word types of the block (00_scope.md R7, R10, R11): what the spec treats as bits.
Values are unsigned; bit 0 is the least significant bit.
-/

namespace Sys2Proof

/-- A byte: a general register, a timer, a memory cell (R7). -/
abbrev Byte := BitVec 8

/-- A 16-bit word: an opcode, I, PC, a stack entry (R7). -/
abbrev Word := BitVec 16

/-- A 4-bit field: the immediate N of DXYN (R91). -/
abbrev Nibble := BitVec 4

/-- A register number 0..15, a 4-bit field (R91, R94): every value names one of V0-VF. -/
abbrev RegIdx := BitVec 4

/-- A 12-bit address immediate NNN (R91). -/
abbrev Addr12 := BitVec 12

/-- The number of VF, the flag register (R19, R23). -/
abbrev vf : RegIdx := 0xF#4

/-- The number of V0, the base register of BNNN (R139). -/
abbrev v0 : RegIdx := 0x0#4

end Sys2Proof
end

