-- ==== Sys2Proof/Config.lean ====
section
/-!
DEFINITION. What an implementation fixes, what the host does, and what is free (00_scope.md R8; 60_exceptions.md R310, R311, R338;
92_eei_decisions.md D1, D2, D3, D14, D15). State carries the parameters and the host's schedule; their values at reset stand in
Sys2Proof/Machine/Params.lean and Sys2Proof/Machine/State.lean.
-/

namespace Sys2Proof

/-- The two values of ALU_VF_READING (41_alu.md R162): how 8XY5, 8XY6, 8XY7 and 8XYE read a register that is also VF. -/
inductive VfReading where
  /-- The statements run in the order written: VF first, then the result from the registers as they are then. -/
  | sequential
  /-- Both operands are read first, then the result is written, then the flag. -/
  | snapshotFlagLast
  deriving DecidableEq, Repr

/-- The named parameters of R8: the machine's arguments. `Params.wf` states their constraints. -/
structure Params where
  /-- MEM_SIZE: bytes of memory; valid addresses are 0 .. MEM_SIZE-1. -/
  memSize : Nat
  /-- FONT_BASE: the address of glyph 0. -/
  fontBase : Nat
  /-- GLYPH_BYTES: bytes per glyph. -/
  glyphBytes : Nat
  /-- FONT_GLYPHS: the number of glyphs. -/
  fontGlyphs : Nat
  /-- FONT_TABLE: the glyphs' bytes. -/
  fontTable : List Byte
  /-- PROGRAM_START: the load origin and the reset value of PC. -/
  programStart : Nat
  /-- STACK_DEPTH: return-address slots. -/
  stackDepth : Nat
  /-- DISPLAY_W: framebuffer columns. -/
  displayW : Nat
  /-- DISPLAY_H: framebuffer rows. -/
  displayH : Nat
  /-- ALU_VF_READING. -/
  aluVfReading : VfReading
  deriving DecidableEq, Repr

/-- The host's transactions that change the block's state (60_exceptions.md R310). The read ports and accessors change nothing
and are functions of Machine/Inspect.lean. -/
inductive Transaction where
  /-- `step()`: at most one instruction. -/
  | step
  /-- `timerStep()`: the timer tick. -/
  | timerStep
  /-- `handleKey(k, down)`: the key event. -/
  | handleKey (k : Nat) (down : Bool)
  /-- `reset()`. -/
  | reset
  /-- `write_bulk(addr, bytes)`: the loader. -/
  | writeBulk (addr : Nat) (bytes : List Byte)
  deriving DecidableEq, Repr

/-- What the host does once no transaction is pending (60_exceptions.md R311; log 5). -/
inductive HostPlan where
  /-- The transactions of the list in order, for ever; with an empty list the host issues none. -/
  | repeating (trs : List Transaction)
  /-- Any order at all: the host's choices number `n`, `n + 1`, ... of `Config.hostChoice`. -/
  | free (n : Nat)
  deriving DecidableEq, Repr

/-- FREE VALUE (41_alu.md R175; 60_exceptions.md R338; D14): the byte that the n-th CXNN of a run draws.
No body that a proof can see: a claim holds for every sequence of bytes. -/
opaque Config.randomByte : Nat → Byte

/-- FREE VALUE (60_exceptions.md R311; D15): the host's n-th choice, a transaction or none.
No body that a proof can see: a claim about a run under `HostPlan.free` holds for every schedule, finite or endless. -/
opaque Config.hostChoice : Nat → Option Transaction

end Sys2Proof
end

