-- ==== Sys2Proof/Syntax.lean ====
section
/-!
DEFINITION. The instructions: one constructor per row of spec/opcode_table.json, in its order (30_encoding.md R92, R99),
and each instruction's name there (R100).
An operand's type has exactly the width of its field (R91), so every operand value is legal (R93, R94).
-/

namespace Sys2Proof

/-- The 34 instructions (R95). The fields X, Y are register numbers; NN, NNN, N are unsigned immediates (R93). -/
inductive Instr where
  /-- 00E0 CLS, R234. -/
  | cls
  /-- 00EE RET, R131. -/
  | ret
  /-- 1NNN JP, R132. -/
  | jp (nnn : Addr12)
  /-- 2NNN CALL, R133. -/
  | call (nnn : Addr12)
  /-- 3XNN SE_IMM, R135. -/
  | seImm (x : RegIdx) (nn : Byte)
  /-- 4XNN SNE_IMM, R136. -/
  | sneImm (x : RegIdx) (nn : Byte)
  /-- 5XY0 SE_REG, R137. -/
  | seReg (x : RegIdx) (y : RegIdx)
  /-- 6XNN LD_IMM, R164. -/
  | ldImm (x : RegIdx) (nn : Byte)
  /-- 7XNN ADD_IMM, R165. -/
  | addImm (x : RegIdx) (nn : Byte)
  /-- 8XY0 LD_REG, R166. -/
  | ldReg (x : RegIdx) (y : RegIdx)
  /-- 8XY1 OR, R167. -/
  | orReg (x : RegIdx) (y : RegIdx)
  /-- 8XY2 AND, R168. -/
  | andReg (x : RegIdx) (y : RegIdx)
  /-- 8XY3 XOR, R169. -/
  | xorReg (x : RegIdx) (y : RegIdx)
  /-- 8XY4 ADD_REG, R170. -/
  | addReg (x : RegIdx) (y : RegIdx)
  /-- 8XY5 SUB, R171. -/
  | sub (x : RegIdx) (y : RegIdx)
  /-- 8XY6 SHR, R172. Y is encoded and ignored (R96). -/
  | shr (x : RegIdx) (y : RegIdx)
  /-- 8XY7 SUBN, R173. -/
  | subn (x : RegIdx) (y : RegIdx)
  /-- 8XYE SHL, R174. Y is encoded and ignored (R96). -/
  | shl (x : RegIdx) (y : RegIdx)
  /-- 9XY0 SNE_REG, R138. -/
  | sneReg (x : RegIdx) (y : RegIdx)
  /-- ANNN LD_I, R201. -/
  | ldI (nnn : Addr12)
  /-- BNNN JP_V0, R139. -/
  | jpV0 (nnn : Addr12)
  /-- CXNN RND, R175. -/
  | rnd (x : RegIdx) (nn : Byte)
  /-- DXYN DRW, R235. -/
  | drw (x : RegIdx) (y : RegIdx) (n : Nibble)
  /-- EX9E SKP, R260. -/
  | skp (x : RegIdx)
  /-- EXA1 SKNP, R261. -/
  | sknp (x : RegIdx)
  /-- FX07 LD_VX_DT, R262. -/
  | ldVxDt (x : RegIdx)
  /-- FX0A LD_VX_K, R265. -/
  | ldVxK (x : RegIdx)
  /-- FX15 LD_DT_VX, R263. -/
  | ldDtVx (x : RegIdx)
  /-- FX18 LD_ST_VX, R264. -/
  | ldStVx (x : RegIdx)
  /-- FX1E ADD_I, R202. -/
  | addI (x : RegIdx)
  /-- FX29 LD_F, R203. -/
  | ldF (x : RegIdx)
  /-- FX33 LD_B, R204. -/
  | ldB (x : RegIdx)
  /-- FX55 LD_MEM_VX, R205. -/
  | ldMemVx (x : RegIdx)
  /-- FX65 LD_VX_MEM, R206. -/
  | ldVxMem (x : RegIdx)
  deriving DecidableEq, Repr

/-- The instruction's id in spec/opcode_table.json (R100). -/
def Instr.mnemonic : Instr → String
  | .cls => "CLS"
  | .ret => "RET"
  | .jp _ => "JP"
  | .call _ => "CALL"
  | .seImm _ _ => "SE_IMM"
  | .sneImm _ _ => "SNE_IMM"
  | .seReg _ _ => "SE_REG"
  | .ldImm _ _ => "LD_IMM"
  | .addImm _ _ => "ADD_IMM"
  | .ldReg _ _ => "LD_REG"
  | .orReg _ _ => "OR"
  | .andReg _ _ => "AND"
  | .xorReg _ _ => "XOR"
  | .addReg _ _ => "ADD_REG"
  | .sub _ _ => "SUB"
  | .shr _ _ => "SHR"
  | .subn _ _ => "SUBN"
  | .shl _ _ => "SHL"
  | .sneReg _ _ => "SNE_REG"
  | .ldI _ => "LD_I"
  | .jpV0 _ => "JP_V0"
  | .rnd _ _ => "RND"
  | .drw _ _ _ => "DRW"
  | .skp _ => "SKP"
  | .sknp _ => "SKNP"
  | .ldVxDt _ => "LD_VX_DT"
  | .ldVxK _ => "LD_VX_K"
  | .ldDtVx _ => "LD_DT_VX"
  | .ldStVx _ => "LD_ST_VX"
  | .addI _ => "ADD_I"
  | .ldF _ => "LD_F"
  | .ldB _ => "LD_B"
  | .ldMemVx _ => "LD_MEM_VX"
  | .ldVxMem _ => "LD_VX_MEM"

end Sys2Proof
end

