-- ==== Sys2Proof/WellFormed.lean ====
section
/-!
DEFINITION. Well-formedness: the constraints on the parameters (00_scope.md R8), and which 16-bit words are instructions
at all, read from the match and mask of spec/opcode_table.json (30_encoding.md R92, R95: "every field the table writes as
a digit must match exactly").
An `Instr` is well formed by its type: each operand has exactly its field's width, and every value of it is legal (R93, R94).
-/

namespace Sys2Proof

/-- The constraints of R8, and what other rules say of the parameters (DEDUCED, log 27): the font table is FONT_GLYPHS glyphs of
GLYPH_BYTES bytes (20_memory.md R66) and has the digits 0x0-0xF; SP, 8 bits, holds 0..STACK_DEPTH (10_state.md R29); a sprite's 8
columns and 15 rows are fewer than the display's (43_display.md R233, R236). -/
def Params.wf (p : Params) : Bool :=
  decide (p.fontBase + p.fontGlyphs * p.glyphBytes ≤ p.memSize)
    && decide (p.programStart < p.memSize)
    && decide (p.memSize ≤ 0xF000)
    && decide (p.fontTable.length = p.fontGlyphs * p.glyphBytes)
    && decide (16 ≤ p.fontGlyphs)
    && decide (p.stackDepth ≤ 255)
    && decide (8 < p.displayW)
    && decide (15 < p.displayH)

/-- A row of spec/opcode_table.json: a word is of this row when its bits under `mask` are those of `pattern`. -/
structure OpcodeRow where
  mnemonic : String
  pattern : Word
  mask : Word
  deriving DecidableEq, Repr

/-- The exact-match test of a row (R95). -/
def OpcodeRow.covers (r : OpcodeRow) (op : Word) : Bool := op &&& r.mask == r.pattern

/-- Rows of classes 0x0 to 0x7. -/
def opcodeRowsLow : List OpcodeRow :=
  [⟨"CLS", 0x00E0#16, 0xFFFF#16⟩,
   ⟨"RET", 0x00EE#16, 0xFFFF#16⟩,
   ⟨"JP", 0x1000#16, 0xF000#16⟩,
   ⟨"CALL", 0x2000#16, 0xF000#16⟩,
   ⟨"SE_IMM", 0x3000#16, 0xF000#16⟩,
   ⟨"SNE_IMM", 0x4000#16, 0xF000#16⟩,
   ⟨"SE_REG", 0x5000#16, 0xF00F#16⟩,
   ⟨"LD_IMM", 0x6000#16, 0xF000#16⟩,
   ⟨"ADD_IMM", 0x7000#16, 0xF000#16⟩]

/-- Rows of class 0x8. -/
def opcodeRowsAlu : List OpcodeRow :=
  [⟨"LD_REG", 0x8000#16, 0xF00F#16⟩,
   ⟨"OR", 0x8001#16, 0xF00F#16⟩,
   ⟨"AND", 0x8002#16, 0xF00F#16⟩,
   ⟨"XOR", 0x8003#16, 0xF00F#16⟩,
   ⟨"ADD_REG", 0x8004#16, 0xF00F#16⟩,
   ⟨"SUB", 0x8005#16, 0xF00F#16⟩,
   ⟨"SHR", 0x8006#16, 0xF00F#16⟩,
   ⟨"SUBN", 0x8007#16, 0xF00F#16⟩,
   ⟨"SHL", 0x800E#16, 0xF00F#16⟩]

/-- Rows of classes 0x9 to 0xE. -/
def opcodeRowsHigh : List OpcodeRow :=
  [⟨"SNE_REG", 0x9000#16, 0xF00F#16⟩,
   ⟨"LD_I", 0xA000#16, 0xF000#16⟩,
   ⟨"JP_V0", 0xB000#16, 0xF000#16⟩,
   ⟨"RND", 0xC000#16, 0xF000#16⟩,
   ⟨"DRW", 0xD000#16, 0xF000#16⟩,
   ⟨"SKP", 0xE09E#16, 0xF0FF#16⟩,
   ⟨"SKNP", 0xE0A1#16, 0xF0FF#16⟩]

/-- Rows of class 0xF. -/
def opcodeRowsF : List OpcodeRow :=
  [⟨"LD_VX_DT", 0xF007#16, 0xF0FF#16⟩,
   ⟨"LD_VX_K", 0xF00A#16, 0xF0FF#16⟩,
   ⟨"LD_DT_VX", 0xF015#16, 0xF0FF#16⟩,
   ⟨"LD_ST_VX", 0xF018#16, 0xF0FF#16⟩,
   ⟨"ADD_I", 0xF01E#16, 0xF0FF#16⟩,
   ⟨"LD_F", 0xF029#16, 0xF0FF#16⟩,
   ⟨"LD_B", 0xF033#16, 0xF0FF#16⟩,
   ⟨"LD_MEM_VX", 0xF055#16, 0xF0FF#16⟩,
   ⟨"LD_VX_MEM", 0xF065#16, 0xF0FF#16⟩]

/-- The opcode table (spec/opcode_table.json), 34 rows. -/
def opcodeTable : List OpcodeRow := opcodeRowsLow ++ opcodeRowsAlu ++ opcodeRowsHigh ++ opcodeRowsF

/-- A word is an instruction when some row of the opcode table covers it; every other word is invalid (R95, R97). -/
def wordWf (op : Word) : Bool := opcodeTable.any (·.covers op)

end Sys2Proof
end

