-- ==== Sys2Proof/Decode.lean ====
section
/-!
DEFINITION. Decoding and encoding (30_encoding.md R90-R97).
`decode` is total on all 65,536 words and rejects by name; `encode` is written from the same layouts (R92).
-/

namespace Sys2Proof

/-- Why bytes are not an instruction. -/
inductive DecodeReject where
  /-- The word matches no row of the opcode table: the spec's `Invalid` (R95, R97). -/
  | invalidOpcode (op : Word)
  /-- Fewer than the two bytes of an instruction (R90). -/
  | truncated
  deriving DecidableEq, Repr

/-- `class = bits[15:12]` (R91). -/
def fieldClass (op : Word) : Nibble := op.extractLsb' 12 4

/-- `X = bits[11:8]` (R91). -/
def fieldX (op : Word) : RegIdx := op.extractLsb' 8 4

/-- `Y = bits[7:4]` (R91). -/
def fieldY (op : Word) : RegIdx := op.extractLsb' 4 4

/-- `N = bits[3:0]` (R91). -/
def fieldN (op : Word) : Nibble := op.extractLsb' 0 4

/-- `NN = bits[7:0]` (R91). -/
def fieldNN (op : Word) : Byte := op.extractLsb' 0 8

/-- `NNN = bits[11:0]` (R91). -/
def fieldNNN (op : Word) : Addr12 := op.extractLsb' 0 12

/-- Class 0x0: only the two words 0x00E0 and 0x00EE (R95, 90_conflicts.md C1). -/
def decodeClass0 (op : Word) : Except DecodeReject Instr :=
  if op = 0x00E0#16 then .ok .cls
  else if op = 0x00EE#16 then .ok .ret
  else .error (.invalidOpcode op)

/-- Class 0x8: the sub-opcode is N (R95). -/
def decodeClass8 (op : Word) : Except DecodeReject Instr :=
  match (fieldN op).toNat with
  | 0x0 => .ok (.ldReg (fieldX op) (fieldY op))
  | 0x1 => .ok (.orReg (fieldX op) (fieldY op))
  | 0x2 => .ok (.andReg (fieldX op) (fieldY op))
  | 0x3 => .ok (.xorReg (fieldX op) (fieldY op))
  | 0x4 => .ok (.addReg (fieldX op) (fieldY op))
  | 0x5 => .ok (.sub (fieldX op) (fieldY op))
  | 0x6 => .ok (.shr (fieldX op) (fieldY op))
  | 0x7 => .ok (.subn (fieldX op) (fieldY op))
  | 0xE => .ok (.shl (fieldX op) (fieldY op))
  | _ => .error (.invalidOpcode op)

/-- Class 0xE: the sub-opcode is NN (R95). -/
def decodeClassE (op : Word) : Except DecodeReject Instr :=
  match (fieldNN op).toNat with
  | 0x9E => .ok (.skp (fieldX op))
  | 0xA1 => .ok (.sknp (fieldX op))
  | _ => .error (.invalidOpcode op)

/-- Class 0xF: the sub-opcode is NN (R95). -/
def decodeClassF (op : Word) : Except DecodeReject Instr :=
  match (fieldNN op).toNat with
  | 0x07 => .ok (.ldVxDt (fieldX op))
  | 0x0A => .ok (.ldVxK (fieldX op))
  | 0x15 => .ok (.ldDtVx (fieldX op))
  | 0x18 => .ok (.ldStVx (fieldX op))
  | 0x1E => .ok (.addI (fieldX op))
  | 0x29 => .ok (.ldF (fieldX op))
  | 0x33 => .ok (.ldB (fieldX op))
  | 0x55 => .ok (.ldMemVx (fieldX op))
  | 0x65 => .ok (.ldVxMem (fieldX op))
  | _ => .error (.invalidOpcode op)

/-- `Decode(op)` (R95): by class, then by the secondary nibble or byte. The class is 4 bits, so the last arm is class 0xF. -/
def decode (op : Word) : Except DecodeReject Instr :=
  match (fieldClass op).toNat with
  | 0x0 => decodeClass0 op
  | 0x1 => .ok (.jp (fieldNNN op))
  | 0x2 => .ok (.call (fieldNNN op))
  | 0x3 => .ok (.seImm (fieldX op) (fieldNN op))
  | 0x4 => .ok (.sneImm (fieldX op) (fieldNN op))
  | 0x5 => if fieldN op = 0x0#4 then .ok (.seReg (fieldX op) (fieldY op)) else .error (.invalidOpcode op)
  | 0x6 => .ok (.ldImm (fieldX op) (fieldNN op))
  | 0x7 => .ok (.addImm (fieldX op) (fieldNN op))
  | 0x8 => decodeClass8 op
  | 0x9 => if fieldN op = 0x0#4 then .ok (.sneReg (fieldX op) (fieldY op)) else .error (.invalidOpcode op)
  | 0xA => .ok (.ldI (fieldNNN op))
  | 0xB => .ok (.jpV0 (fieldNNN op))
  | 0xC => .ok (.rnd (fieldX op) (fieldNN op))
  | 0xD => .ok (.drw (fieldX op) (fieldY op) (fieldN op))
  | 0xE => decodeClassE op
  | _ => decodeClassF op

/-- Two bytes as an opcode, the first one high: instructions are big-endian (20_memory.md R63). -/
def wordOfBytes (hi lo : Byte) : Word := hi ++ lo

/-- The high byte of an opcode, stored at the instruction's own address (R63, R64). -/
def highByte (op : Word) : Byte := op.extractLsb' 8 8

/-- The low byte of an opcode, stored at the next address (R63, R64). -/
def lowByte (op : Word) : Byte := op.extractLsb' 0 8

/-- Decode the instruction at the head of a byte sequence and return the rest: every instruction is 2 bytes (R90). -/
def decodeBytes : List Byte → Except DecodeReject (Instr × List Byte)
  | hi :: lo :: rest =>
    match decode (wordOfBytes hi lo) with
    | .ok i => .ok (i, rest)
    | .error e => .error e
  | _ => .error .truncated

/-- Layout F_NNN: `cccc nnnn nnnn nnnn` (R92). -/
def layoutNNN (c : Nibble) (nnn : Addr12) : Word := c ++ nnn

/-- Layout F_XNN: `cccc xxxx nnnn nnnn` (R92). -/
def layoutXNN (c : Nibble) (x : RegIdx) (nn : Byte) : Word := c ++ x ++ nn

/-- Layouts F_XY and F_XYN: `cccc xxxx yyyy ffff` (R92). -/
def layoutXYN (c : Nibble) (x y : RegIdx) (n : Nibble) : Word := c ++ x ++ y ++ n

/-- The opcode of an instruction (R92 and the opcode table). Layout F_X is F_XNN with a fixed sub-opcode byte. -/
def encode : Instr → Word
  | .cls => 0x00E0#16
  | .ret => 0x00EE#16
  | .jp nnn => layoutNNN 0x1#4 nnn
  | .call nnn => layoutNNN 0x2#4 nnn
  | .seImm x nn => layoutXNN 0x3#4 x nn
  | .sneImm x nn => layoutXNN 0x4#4 x nn
  | .seReg x y => layoutXYN 0x5#4 x y 0x0#4
  | .ldImm x nn => layoutXNN 0x6#4 x nn
  | .addImm x nn => layoutXNN 0x7#4 x nn
  | .ldReg x y => layoutXYN 0x8#4 x y 0x0#4
  | .orReg x y => layoutXYN 0x8#4 x y 0x1#4
  | .andReg x y => layoutXYN 0x8#4 x y 0x2#4
  | .xorReg x y => layoutXYN 0x8#4 x y 0x3#4
  | .addReg x y => layoutXYN 0x8#4 x y 0x4#4
  | .sub x y => layoutXYN 0x8#4 x y 0x5#4
  | .shr x y => layoutXYN 0x8#4 x y 0x6#4
  | .subn x y => layoutXYN 0x8#4 x y 0x7#4
  | .shl x y => layoutXYN 0x8#4 x y 0xE#4
  | .sneReg x y => layoutXYN 0x9#4 x y 0x0#4
  | .ldI nnn => layoutNNN 0xA#4 nnn
  | .jpV0 nnn => layoutNNN 0xB#4 nnn
  | .rnd x nn => layoutXNN 0xC#4 x nn
  | .drw x y n => layoutXYN 0xD#4 x y n
  | .skp x => layoutXNN 0xE#4 x 0x9E#8
  | .sknp x => layoutXNN 0xE#4 x 0xA1#8
  | .ldVxDt x => layoutXNN 0xF#4 x 0x07#8
  | .ldVxK x => layoutXNN 0xF#4 x 0x0A#8
  | .ldDtVx x => layoutXNN 0xF#4 x 0x15#8
  | .ldStVx x => layoutXNN 0xF#4 x 0x18#8
  | .addI x => layoutXNN 0xF#4 x 0x1E#8
  | .ldF x => layoutXNN 0xF#4 x 0x29#8
  | .ldB x => layoutXNN 0xF#4 x 0x33#8
  | .ldMemVx x => layoutXNN 0xF#4 x 0x55#8
  | .ldVxMem x => layoutXNN 0xF#4 x 0x65#8

/-- The bytes of an instruction as memory holds them, high byte first (R63). -/
def encodeBytes (i : Instr) : List Byte := [highByte (encode i), lowByte (encode i)]

/-- The bytes of the instruction whose bits are `w`, bit 0 the least significant bit of the one 16-bit word, bits at and above
`nbits` zero. -/
def tableBytes (nbits w : Nat) : List Byte :=
  let op : Word := BitVec.ofNat 16 (w % 2 ^ nbits)
  [highByte op, lowByte op]

/-- The instruction this decoder reads from the word the opcode table numbers `w`; none where it refuses. -/
def decodeTableWord (nbits w : Nat) : Option Instr :=
  match decodeBytes (tableBytes nbits w) with
  | .ok (i, _) => some i
  | .error _ => none

end Sys2Proof
end

