-- ==== Sys2Proof/Machine/Memory.lean ====
section
/-!
DEFINITION. Memory as plain data (20_memory.md R60-R62, R67): a list of (address, byte) pairs in one canonical form, and what an
address that is not listed reads as under the machine's parameters. The bound check against MEM_SIZE stands in Machine/Ops.lean
(`memRead`, `memWrite`).
-/

namespace Sys2Proof.Machine

/-- The contents of memory: the cells that differ from the reset contents. -/
abbrev Memory := List Host.Cell

/-- What an address that is not listed reads as: the reset contents of R67, the font table from FONT_BASE and 0 elsewhere. -/
def unlistedByte (c : Params) (a : Nat) : Byte :=
  if c.fontBase ≤ a then c.fontTable.getD (a - c.fontBase) 0 else 0

/-- The byte at an address. -/
def readCell (c : Params) : Memory → Nat → Byte
  | [], a => unlistedByte c a
  | (b, w) :: m, a => if a = b then w else readCell c m a

/-- The cells other than those at `a`. -/
def eraseCell : Memory → Nat → Memory
  | [], _ => []
  | (b, w) :: m, a => if a = b then eraseCell m a else (b, w) :: eraseCell m a

/-- A cell put before the first cell with a higher address. -/
def insertCell : Memory → Nat → Byte → Memory
  | [], a, v => [(a, v)]
  | (b, w) :: m, a, v => if a < b then (a, v) :: (b, w) :: m else (b, w) :: insertCell m a v

/-- Write one byte. Writing what an unlisted address reads as leaves the address unlisted, so equal memories are equal lists. -/
def writeCell (c : Params) (m : Memory) (a : Nat) (v : Byte) : Memory :=
  if v = unlistedByte c a then eraseCell m a else insertCell (eraseCell m a) a v

/-- The canonical form: addresses strictly rising, and no cell equal to what its address reads as when unlisted. -/
def Memory.wf (c : Params) : Memory → Bool
  | [] => true
  | (a, v) :: m => decide (v ≠ unlistedByte c a) && m.all (fun d => decide (a < d.1)) && Memory.wf c m

/-- Every listed address exists: it is below MEM_SIZE (R60). -/
def Memory.inRange (c : Params) (m : Memory) : Bool := m.all (fun d => decide (d.1 < c.memSize))

end Sys2Proof.Machine
end

