-- ==== Sys2Proof/Machine/Params.lean ====
section
/-!
DEFINITION. The defaults of the parameters of 00_scope.md R8 (92_eei_decisions.md D1, D2, D3). No rule of the machine uses them:
each reads the parameters that State carries, and State.reset carries these.
-/

namespace Sys2Proof.Machine

/-- Glyphs 0-7 of FONT_TABLE's default (20_memory.md R66). -/
def defaultFontLow : List Byte :=
  [0xF0, 0x90, 0x90, 0x90, 0xF0] ++ [0x20, 0x60, 0x20, 0x20, 0x70] ++
  [0xF0, 0x10, 0xF0, 0x80, 0xF0] ++ [0xF0, 0x10, 0xF0, 0x10, 0xF0] ++
  [0x90, 0x90, 0xF0, 0x10, 0x10] ++ [0xF0, 0x80, 0xF0, 0x10, 0xF0] ++
  [0xF0, 0x80, 0xF0, 0x90, 0xF0] ++ [0xF0, 0x10, 0x20, 0x40, 0x40]

/-- Glyphs 8-F of FONT_TABLE's default (20_memory.md R66). -/
def defaultFontHigh : List Byte :=
  [0xF0, 0x90, 0xF0, 0x90, 0xF0] ++ [0xF0, 0x90, 0xF0, 0x10, 0xF0] ++
  [0xF0, 0x90, 0xF0, 0x90, 0x90] ++ [0xE0, 0x90, 0xE0, 0x90, 0xE0] ++
  [0xF0, 0x80, 0x80, 0x80, 0xF0] ++ [0xE0, 0x90, 0x90, 0x90, 0xE0] ++
  [0xF0, 0x80, 0xF0, 0x80, 0xF0] ++ [0xF0, 0x80, 0xF0, 0x80, 0x80]

/-- FONT_TABLE's default. PRESUMED (log 2): the source gives no byte; these are the spec's default, the conventional CHIP-8 font,
from general knowledge (20_memory.md R66; 93_implementation_defined.md G1). -/
def defaultFontTable : List Byte := defaultFontLow ++ defaultFontHigh

/-- The defaults of R8. DESIGN CHOICE (log 1, log 3): the spec leaves the parameters OPEN (D1, D2, D3); State carries them, these are
only their values at reset, and no statement rests on them. -/
def defaultParams : Params :=
  { memSize := 4096
    fontBase := 0x050
    glyphBytes := 5
    fontGlyphs := 16
    fontTable := defaultFontTable
    programStart := 0x200
    stackDepth := 16
    displayW := 64
    displayH := 32
    aluVfReading := .sequential }

end Sys2Proof.Machine
end

