-- ==== Sys2Proof/Machine/State.lean ====
section
/-!
DEFINITION. The state of the block as plain data (10_state.md R20), its error record, the ways a model step can stop,
and the state after reset (10_state.md R41).
-/

namespace Sys2Proof.Machine

/-- The two error kinds (60_exceptions.md R300). -/
inductive ErrorKind where
  | outOfRange
  | invalidOpcode
  deriving DecidableEq, Repr

/-- The causes of OutOfRange with their recorded info (60_exceptions.md R301). -/
inductive Cause where
  /-- Address `a` is at or above MEM_SIZE. -/
  | mem (a : Nat)
  /-- A push with SP = STACK_DEPTH. -/
  | stackOverflow
  /-- A pop with SP = 0. -/
  | stackUnderflow
  /-- Digit `d` is above 0xF. -/
  | fontDigit (d : Nat)
  /-- Key index `k` is above 0xF. -/
  | keyIndex (k : Nat)
  deriving DecidableEq, Repr

/-- An error of a transaction (60_exceptions.md R300, R301). -/
inductive StepError where
  | outOfRange (c : Cause)
  | invalidOpcode (op : Word)
  deriving DecidableEq, Repr

/-- The key-wait state machine (10_state.md R33). -/
inductive Mode where
  | running
  | awaitingKey (r : RegIdx)
  deriving DecidableEq, Repr

/-- The framebuffer: the rows from row 0 on, each its columns from column 0 on, true = on (10_state.md R35). -/
abbrev Pix := List (List Bool)

/-- The state record of R20, and the model's own fields after it. -/
structure State where
  /-- V0-VF (R21). -/
  v : Vector Byte 16
  /-- I, the address register (R31). -/
  i : Word
  /-- PC (R24). -/
  pc : Word
  /-- SP, the number of occupied stack slots (R29). -/
  sp : Byte
  /-- Stack (R30): STACK_DEPTH slots. -/
  stack : List Word
  /-- Dt (R32). -/
  dt : Byte
  /-- St (R32). -/
  st : Byte
  /-- Mode (R33). -/
  mode : Mode
  /-- Mem (20_memory.md R60), as the cells that differ from the reset contents. -/
  mem : Memory
  /-- Pix (R35): DISPLAY_H rows of DISPLAY_W columns. -/
  pix : Pix
  /-- Keys (R34), true = down. -/
  keys : Vector Bool 16
  /-- Tone (R36). -/
  tone : Bool
  /-- Fault: none, or the error of the failed step (60_exceptions.md R306). -/
  fault : Option StepError
  /-- The model's own: the parameters of 00_scope.md R8. No step changes them. -/
  params : Params
  /-- The model's own: how many random bytes have been drawn (41_alu.md R175). -/
  draws : Nat
  /-- The model's own: the host's pending transactions, in order (60_exceptions.md R310, R311). -/
  inbox : List Transaction
  /-- The model's own: what the host does once none is pending (60_exceptions.md R311). -/
  plan : HostPlan
  deriving DecidableEq, Repr

/-- Why the machine has no next state. A spec error (OutOfRange, InvalidOpcode) is NOT here: it is a next state with the
`fault` field set (60_exceptions.md R306). -/
inductive Fault where
  /-- Raised by `transact`: a transaction other than reset while the fault record is set; R306 enables none. Safe. -/
  | notEnabled
  /-- Raised by CALL and RET when SP is above STACK_DEPTH or the stack lacks the slot, where no Stack[SP] exists and no rule
  applies; R42 and R30 exclude such states. Safe. -/
  | illegalStackPointer (sp : Byte)
  deriving DecidableEq, Repr

/-- Why the model gives an instruction no meaning. -/
inductive Refusal where
  /-- Raised by a refused arm of exec only: an instruction not modelled yet. Safe. -/
  | notModelled (mnemonic : String)
  deriving DecidableEq, Repr

/-- The state after reset of a block with the given parameters (10_state.md R41; 70_reset_and_hazards.md R350). Memory lists nothing:
it holds its reset contents. -/
def State.resetWith (c : Params) : State :=
  { v := Vector.replicate 16 0
    i := 0
    pc := BitVec.ofNat 16 c.programStart
    sp := 0
    stack := List.replicate c.stackDepth 0
    dt := 0
    st := 0
    mode := .running
    mem := []
    pix := List.replicate c.displayH (List.replicate c.displayW false)
    keys := Vector.replicate 16 false
    tone := false
    fault := none
    params := c
    draws := 0
    inbox := []
    plan := .repeating [.step] }

/-- The state after reset, with the defaults of R8. -/
def State.reset : State := State.resetWith defaultParams

end Sys2Proof.Machine
end

