-- ==== Sys2Proof/Machine/Ops.lean ====
section
/-!
DEFINITION. The named operations over registers, program counter, stack and memory, and taking an error
(00_scope.md R13-R15; 10_state.md R24-R30; 20_memory.md R61-R63; 60_exceptions.md R300-R306).
-/

namespace Sys2Proof.Machine

/-- What a step answers. -/
abbrev Result := Host.Outcome State Fault Refusal

/-- Read V[r] (R12, R21). -/
def getV (s : State) (r : RegIdx) : Byte := s.v[r.toNat]'r.isLt

/-- Write V[r] (R12, R21). -/
def setV (s : State) (r : RegIdx) (b : Byte) : State :=
  { s with v := s.v.set r.toNat b r.isLt }

/-- The register file replaced (R21). -/
def setRegs (v : Vector Byte 16) (s : State) : State := { s with v := v }

/-- `I <- w` (R31). -/
def setI (w : Word) (s : State) : State := { s with i := w }

/-- `SP <- b` (R29). -/
def setSp (b : Byte) (s : State) : State := { s with sp := b }

/-- The stack slots after a push (R30). -/
def setStack (st : List Word) (s : State) : State := { s with stack := st }

/-- `Dt <- b` (R32). -/
def setDt (b : Byte) (s : State) : State := { s with dt := b }

/-- `St <- b` (R32). -/
def setSt (b : Byte) (s : State) : State := { s with st := b }

/-- `Mode <- m` (R33). -/
def setMode (m : Mode) (s : State) : State := { s with mode := m }

/-- Memory with its contents replaced. -/
def setMem (m : Memory) (s : State) : State := { s with mem := m }

/-- The framebuffer replaced (R35). -/
def setPix (p : Pix) (s : State) : State := { s with pix := p }

/-- The key-down flags replaced (R34). -/
def setKeys (k : Vector Bool 16) (s : State) : State := { s with keys := k }

/-- `Tone <- b` (R36). -/
def setTone (b : Bool) (s : State) : State := { s with tone := b }

/-- The fault record replaced (60_exceptions.md R306). -/
def setFault (e : Option StepError) (s : State) : State := { s with fault := e }

/-- The model's draw counter replaced. -/
def setDraws (n : Nat) (s : State) : State := { s with draws := n }

/-- The host's pending transactions replaced. -/
def setInbox (l : List Transaction) (s : State) : State := { s with inbox := l }

/-- What the host does once no transaction is pending, replaced. -/
def setPlan (p : HostPlan) (s : State) : State := { s with plan := p }

/-- The byte of memory at an address. -/
def byteAt (s : State) (a : Nat) : Byte := readCell s.params s.mem a

/-- One byte of memory written. -/
def setByte (a : Nat) (b : Byte) (s : State) : State := setMem (writeCell s.params s.mem a b) s

/-- Slot `k` of the stack exists (R30). -/
abbrev hasSlot (s : State) (k : Nat) : Prop := k < s.params.stackDepth ∧ k < s.stack.length

/-- `PC <- target` (00_scope.md R12). -/
def jumpTo (target : Word) (s : State) : State := { s with pc := target }

/-- `advance()`: PC <- PC + 2 (00_scope.md R15; 30_encoding.md R112). -/
def advance (s : State) : State := jumpTo (s.pc + 2) s

/-- The PC update of a skip: always +2, and +2 more when the condition holds (40_control_flow.md R134). -/
def skipIf (c : Bool) (s : State) : State := if c then advance (advance s) else advance s

/-- TAKING AN ERROR, the block's only exception: the writes made so far stay (they are in `s`), PC is unchanged, and the fault
record holds the error (00_scope.md R14; 60_exceptions.md R302, R303, R306). There is no trap entry and no return from one
(R308, R309); only `reset()` leaves the faulted state. -/
def raise (e : StepError) (s : State) : Result := .next (setFault (some e) s)

/-- The running result of a statement sequence that may raise (00_scope.md R14, R15). -/
inductive Txn (α : Type) where
  /-- The statements ran: their value and the state they left. -/
  | done (a : α) (s : State)
  /-- A statement raised: the error and the state at that point. -/
  | raised (e : StepError) (s : State)
  /-- A statement has no rule in this state. -/
  | stuck (f : Fault)

/-- Sequencing: the next statement reads the state the one before it left; nothing runs after a raise (R14, R15). -/
def Txn.bind {α β : Type} (t : Txn α) (k : α → State → Txn β) : Txn β :=
  match t with
  | .done a s => k a s
  | .raised e s => .raised e s
  | .stuck f => .stuck f

/-- The end of an instruction: its last statements after a success, or taking the error. -/
def Txn.finish {α : Type} (t : Txn α) (k : α → State → State) : Result :=
  match t with
  | .done a s => .next (k a s)
  | .raised e s => raise e s
  | .stuck f => .fault f

/-- `MemRead(addr, 1)` (20_memory.md R61): `a` is a natural that never wraps. -/
def memRead (a : Nat) (s : State) : Txn Byte :=
  if a < s.params.memSize then .done (byteAt s a) s else .raised (.outOfRange (.mem a)) s

/-- `MemWrite(addr, 1, v)` (20_memory.md R62). -/
def memWrite (a : Nat) (b : Byte) (s : State) : Txn Unit :=
  if a < s.params.memSize then .done () (setByte a b s) else .raised (.outOfRange (.mem a)) s

/-- Bytes written in order at rising addresses, up to the first that is out of range (42_index_memory.md R204). -/
def storeBytes : Nat → List Byte → State → Txn Unit
  | _, [], s => .done () s
  | a, b :: bs, s => (memWrite a b s).bind fun _ t => storeBytes (a + 1) bs t

/-- `Fetch()` (20_memory.md R63): the byte at PC is the high byte, the byte at PC + 1 the low byte; both are checked. -/
def fetch (s : State) : Txn Word :=
  (memRead s.pc.toNat s).bind fun hi t =>
    (memRead (t.pc.toNat + 1) t).bind fun lo u => .done (wordOfBytes hi lo) u

/-- Push a return address (10_state.md R29; 40_control_flow.md R133): the check first, then the slot, then SP. -/
def push (w : Word) (s : State) : Txn Unit :=
  if s.sp.toNat = s.params.stackDepth then .raised (.outOfRange .stackOverflow) s
  else if hasSlot s s.sp.toNat then .done () (setSp (s.sp + 1) (setStack (s.stack.set s.sp.toNat w) s))
  else .stuck (.illegalStackPointer s.sp)

/-- Pop a return address (10_state.md R29, R30; 40_control_flow.md R131): the check first, then SP, then the slot, which keeps
its value. -/
def pop (s : State) : Txn Word :=
  if s.sp = 0 then .raised (.outOfRange .stackUnderflow) s
  else if hasSlot s (s.sp - 1).toNat then .done (s.stack.getD (s.sp - 1).toNat 0) (setSp (s.sp - 1) s)
  else .stuck (.illegalStackPointer s.sp)

/-- FX55's loop (42_index_memory.md R205): `n` registers from V[k] on; I rises by one after each successful write. -/
def storeRegs : Nat → Nat → State → Txn Unit
  | 0, _, s => .done () s
  | n + 1, k, s => (memWrite s.i.toNat (getV s (BitVec.ofNat 4 k)) s).bind fun _ t => storeRegs n (k + 1) (setI (t.i + 1) t)

/-- FX65's loop (42_index_memory.md R206): `n` registers from V[k] on; I rises by one after each successful read. -/
def loadRegs : Nat → Nat → State → Txn Unit
  | 0, _, s => .done () s
  | n + 1, k, s =>
    (memRead s.i.toNat s).bind fun b t => loadRegs n (k + 1) (setI (t.i + 1) (setV t (BitVec.ofNat 4 k) b))

/-- Take the next random byte: a free value per draw (41_alu.md R175; log 4). -/
def drawByte (s : State) : Byte × State := (Config.randomByte s.draws, setDraws (s.draws + 1) s)

/-- The address of the next fetch: PC, or PROGRAM_START where PC has no room for an instruction below MEM_SIZE. -/
def placeAddr (s : State) : Nat := if s.pc.toNat + 1 < s.params.memSize then s.pc.toNat else s.params.programStart

/-- The bytes at rising addresses from `a` on written, with no bound check. -/
def placeBytes : Nat → List Byte → State → State
  | _, [], s => s
  | a, b :: bs, s => placeBytes (a + 1) bs (setByte a b s)

end Sys2Proof.Machine
end

