-- ==== Sys2Proof/Machine/Flags.lean ====
section
/-!
DEFINITION. Results and flags of the arithmetic family (41_alu.md R160-R163) and the order in which a result and VF are written.
-/

namespace Sys2Proof.Machine

/-- `b2v(c)`: 1 when the condition holds, else 0 (00_scope.md R11). -/
def b2v (c : Bool) : Byte := if c then 1 else 0

/-- `a +_8 b` (00_scope.md R11). -/
def add8 (a b : Byte) : Byte := BitVec.ofNat 8 (a.toNat + b.toNat)

/-- `a -_8 b`, computed on integers modulo 256 (00_scope.md R11). -/
def sub8 (a b : Byte) : Byte := BitVec.ofInt 8 ((a.toNat : Int) - (b.toNat : Int))

/-- 8XY4's flag: the 9-bit sum exceeds 255 (R161). -/
def carryFlag (a b : Byte) : Byte := b2v (decide (a.toNat + b.toNat > 255))

/-- 8XY5's and 8XY7's flag: strictly greater (R161). -/
def greaterFlag (a b : Byte) : Byte := b2v (decide (a.toNat > b.toNat))

/-- 8XY6's flag: bit 0 (R161). -/
def lowBit (a : Byte) : Byte := a &&& 0x01#8

/-- 8XYE's flag: bit 7 (R161). -/
def highBit (a : Byte) : Byte := a >>> 7

/-- Shift right by one, 0 into bit 7 (R160). -/
def shiftRight1 (a : Byte) : Byte := a >>> 1

/-- Shift left by one, truncated to 8 bits (R160). -/
def shiftLeft1 (a : Byte) : Byte := a <<< 1

/-- Write a flag to VF and a result to Vx, both functions of (Vx, Vy), in the order ALU_VF_READING selects (R162):
`sequential` writes VF first and computes the result from the registers as they are then;
`snapshotFlagLast` reads both operands first and writes the flag last. -/
def writeFlagged (flag result : Byte → Byte → Byte) (x y : RegIdx) (s : State) : State :=
  match s.params.aluVfReading with
  | .sequential =>
    let t := setV s vf (flag (getV s x) (getV s y))
    setV t x (result (getV t x) (getV t y))
  | .snapshotFlagLast =>
    let a := getV s x
    let b := getV s y
    setV (setV s x (result a b)) vf (flag a b)

end Sys2Proof.Machine
end

