-- ==== Sys2Proof/Machine/Alu.lean ====
section
/-!
DEFINITION. Register loads and arithmetic (41_alu.md R164-R175).
-/

namespace Sys2Proof.Machine

/-- 6XNN LD Vx, byte (R164). -/
def execLdImm (x : RegIdx) (nn : Byte) (s : State) : Result := .next (advance (setV s x nn))

/-- 7XNN ADD Vx, byte (R165): no flag. -/
def execAddImm (x : RegIdx) (nn : Byte) (s : State) : Result := .next (advance (setV s x (add8 (getV s x) nn)))

/-- 8XY0 LD Vx, Vy (R166). -/
def execLdReg (x y : RegIdx) (s : State) : Result := .next (advance (setV s x (getV s y)))

/-- 8XY1 OR Vx, Vy (R167): no flag. -/
def execOrReg (x y : RegIdx) (s : State) : Result := .next (advance (setV s x (getV s x ||| getV s y)))

/-- 8XY2 AND Vx, Vy (R168): no flag. -/
def execAndReg (x y : RegIdx) (s : State) : Result := .next (advance (setV s x (getV s x &&& getV s y)))

/-- 8XY3 XOR Vx, Vy (R169): no flag. -/
def execXorReg (x y : RegIdx) (s : State) : Result := .next (advance (setV s x (getV s x ^^^ getV s y)))

/-- 8XY4 ADD Vx, Vy (R170): the sum first, then the carry, under both readings. -/
def execAddReg (x y : RegIdx) (s : State) : Result :=
  let a := getV s x
  let b := getV s y
  .next (advance (setV (setV s x (add8 a b)) vf (carryFlag a b)))

/-- 8XY5 SUB Vx, Vy (R171). -/
def execSub (x y : RegIdx) (s : State) : Result := .next (advance (writeFlagged greaterFlag sub8 x y s))

/-- 8XY6 SHR Vx (R172): Y is ignored. -/
def execShr (x _y : RegIdx) (s : State) : Result :=
  .next (advance (writeFlagged (fun a _ => lowBit a) (fun a _ => shiftRight1 a) x x s))

/-- 8XY7 SUBN Vx, Vy (R173). -/
def execSubn (x y : RegIdx) (s : State) : Result :=
  .next (advance (writeFlagged (fun a b => greaterFlag b a) (fun a b => sub8 b a) x y s))

/-- 8XYE SHL Vx (R174): Y is ignored. -/
def execShl (x _y : RegIdx) (s : State) : Result :=
  .next (advance (writeFlagged (fun a _ => highBit a) (fun a _ => shiftLeft1 a) x x s))

/-- CXNN RND Vx, byte (R175): a free byte ANDed with the immediate. -/
def execRnd (x : RegIdx) (nn : Byte) (s : State) : Result :=
  let r := drawByte s
  .next (advance (setV r.2 x (r.1 &&& nn)))

end Sys2Proof.Machine
end

