-- ==== Sys2Proof/Machine/Operands.lean ====
section
/-!
DEFINITION. Operand forms: immediates (30_encoding.md R93), effective addresses through I (42_index_memory.md R200), the font
pointer (20_memory.md R65) and decimal digits (42_index_memory.md R204).
-/

namespace Sys2Proof.Machine

/-- `zext_16(NNN)` (R93). -/
def zextAddr (nnn : Addr12) : Word := nnn.setWidth 16

/-- `zext_16` of a register's byte. -/
def zextByte (b : Byte) : Word := b.setWidth 16

/-- BNNN's target V0 + NNN, a natural sum that fits 16 bits (40_control_flow.md R139). -/
def computedTarget (base : Byte) (nnn : Addr12) : Word := BitVec.ofNat 16 (base.toNat + nnn.toNat)

/-- The effective address I + offset: a natural computed without wrap-around (R200). -/
def dataAddr (s : State) (offset : Nat) : Nat := s.i.toNat + offset

/-- `font_glyph_pointer(d)` (20_memory.md R65). -/
def fontGlyphPointer (d : Byte) (s : State) : Txn Word :=
  if d.toNat > 0xF then .raised (.outOfRange (.fontDigit d.toNat)) s
  else .done (BitVec.ofNat 16 (s.params.fontBase + s.params.glyphBytes * d.toNat)) s

/-- The decimal digits of a byte: hundreds, tens, units (R204). -/
def bcdDigits (b : Byte) : List Byte :=
  [BitVec.ofNat 8 (b.toNat / 100), BitVec.ofNat 8 (b.toNat / 10 % 10), BitVec.ofNat 8 (b.toNat % 10)]

/-- The flag of the key that a register's value names, or OutOfRange(KeyIndex) above 0xF (44_keys_timers.md R260, R261). -/
def keyFlag (k : Byte) (s : State) : Txn Bool :=
  if h : k.toNat < 16 then .done (s.keys[k.toNat]'h) s else .raised (.outOfRange (.keyIndex k.toNat)) s

end Sys2Proof.Machine
end

