-- ==== Sys2Proof/Machine/Control.lean ====
section
/-!
DEFINITION. Control transfer and the register skips (40_control_flow.md R131-R139).
-/

namespace Sys2Proof.Machine

/-- 00EE RET (R131). -/
def execRet (s : State) : Result := (pop s).finish jumpTo

/-- 1NNN JP addr (R132). -/
def execJp (nnn : Addr12) (s : State) : Result := .next (jumpTo (zextAddr nnn) s)

/-- 2NNN CALL addr (R133): pushes PC + 2, PC being this instruction's address. -/
def execCall (nnn : Addr12) (s : State) : Result := (push (s.pc + 2) s).finish fun _ t => jumpTo (zextAddr nnn) t

/-- 3XNN SE Vx, byte (R135). -/
def execSeImm (x : RegIdx) (nn : Byte) (s : State) : Result := .next (skipIf (getV s x == nn) s)

/-- 4XNN SNE Vx, byte (R136). -/
def execSneImm (x : RegIdx) (nn : Byte) (s : State) : Result := .next (skipIf (getV s x != nn) s)

/-- 5XY0 SE Vx, Vy (R137). -/
def execSeReg (x y : RegIdx) (s : State) : Result := .next (skipIf (getV s x == getV s y) s)

/-- 9XY0 SNE Vx, Vy (R138). -/
def execSneReg (x y : RegIdx) (s : State) : Result := .next (skipIf (getV s x != getV s y) s)

/-- BNNN JP V0, addr (R139): always V0. -/
def execJpV0 (nnn : Addr12) (s : State) : Result := .next (jumpTo (computedTarget (getV s v0) nnn) s)

end Sys2Proof.Machine
end

