-- ==== Sys2Proof/Machine/Pixels.lean ====
section
/-!
DEFINITION. The blit engine's primitives (43_display.md R230-R233) and the row loop of DXYN (R235).
-/

namespace Sys2Proof.Machine

/-- The framebuffer with every pixel off (R231). -/
def clearPix (c : Params) : Pix := List.replicate c.displayH (List.replicate c.displayW false)

/-- The framebuffer has DISPLAY_H rows of DISPLAY_W columns (R230). -/
def Pix.wf (c : Params) (p : Pix) : Bool := decide (p.length = c.displayH) && p.all fun row => decide (row.length = c.displayW)

/-- `Pix[y mod DISPLAY_H][x mod DISPLAY_W]`: the pixel at wrapped coordinates (R232). -/
def pixelAt (c : Params) (p : Pix) (x y : Nat) : Bool := (p.getD (y % c.displayH) []).getD (x % c.displayW) false

/-- Write the pixel at wrapped coordinates (R232). -/
def setPixel (c : Params) (p : Pix) (x y : Nat) (b : Bool) : Pix :=
  p.set (y % c.displayH) ((p.getD (y % c.displayH) []).set (x % c.displayW) b)

/-- `flip_bit(x, y, bit)` (R232): the new framebuffer, and whether the pixel went from on to off. -/
def flipBit (c : Params) (x y : Nat) (bit : Bool) (p : Pix) : Pix × Bool :=
  let old := pixelAt c p x y
  let new := old ^^ bit
  (setPixel c p x y new, old && !new)

/-- `n` flips of one sprite row from bit index `b` on, most significant bit first (R233). -/
def flipBits (c : Params) (x y : Nat) (row : Byte) : Nat → Nat → Bool → Pix → Pix × Bool
  | 0, _, col, p => (p, col)
  | n + 1, b, col, p =>
    let r := flipBit c (x + b) y (row.getLsbD (7 - b)) p
    flipBits c x y row n (b + 1) (r.2 || col) r.1

/-- `flip_sprite(x, y, byte)` (R233). -/
def flipSprite (c : Params) (x y : Nat) (row : Byte) (p : Pix) : Pix × Bool := flipBits c x y row 8 0 false p

/-- DXYN's loop (R235): `n` rows from row `r` on; each row is read from I + r and then blitted; the value is the collision so far. -/
def drawRows (x y : Nat) : Nat → Nat → Bool → State → Txn Bool
  | 0, _, col, s => .done col s
  | n + 1, r, col, s =>
    (memRead (s.i.toNat + r) s).bind fun row t =>
      let f := flipSprite t.params x (y + r) row t.pix
      drawRows x y n (r + 1) (f.2 || col) (setPix f.1 t)

end Sys2Proof.Machine
end

