-- ==== Sys2Proof/Machine/Display.lean ====
section
/-!
DEFINITION. The display instructions (43_display.md R234-R236).
-/

namespace Sys2Proof.Machine

/-- 00E0 CLS (R234): VF is not written. -/
def execCls (s : State) : Result := .next (advance (setPix (clearPix s.params) s))

/-- DXYN DRW Vx, Vy, nibble (R235, R236): coordinates read before any write, VF written after the last row, I unchanged. -/
def execDrw (x y : RegIdx) (n : Nibble) (s : State) : Result :=
  (drawRows (getV s x).toNat (getV s y).toNat n.toNat 0 false s).finish fun col t => advance (setV t vf (b2v col))

end Sys2Proof.Machine
end

