-- ==== Sys2Proof/Machine/IndexMemory.lean ====
section
/-!
DEFINITION. The address register and memory transfers (42_index_memory.md R201-R206).
-/

namespace Sys2Proof.Machine

/-- ANNN LD I, addr (R201). -/
def execLdI (nnn : Addr12) (s : State) : Result := .next (advance (setI (zextAddr nnn) s))

/-- FX1E ADD I, Vx (R202): wraps at 16 bits, no flag. -/
def execAddI (x : RegIdx) (s : State) : Result := .next (advance (setI (s.i + zextByte (getV s x)) s))

/-- FX29 LD F, Vx (R203). -/
def execLdF (x : RegIdx) (s : State) : Result :=
  (fontGlyphPointer (getV s x) s).finish fun p t => advance (setI p t)

/-- FX33 LD B, Vx (R204): I is not changed. -/
def execLdB (x : RegIdx) (s : State) : Result :=
  (storeBytes (dataAddr s 0) (bcdDigits (getV s x)) s).finish fun _ t => advance t

/-- FX55 LD [I], Vx (R205): V0..Vx, X + 1 registers. -/
def execLdMemVx (x : RegIdx) (s : State) : Result := (storeRegs (x.toNat + 1) 0 s).finish fun _ t => advance t

/-- FX65 LD Vx, [I] (R206): V0..Vx, X + 1 registers. -/
def execLdVxMem (x : RegIdx) (s : State) : Result := (loadRegs (x.toNat + 1) 0 s).finish fun _ t => advance t

end Sys2Proof.Machine
end

