-- ==== Sys2Proof/Machine/KeysTimers.lean ====
section
/-!
DEFINITION. Key skips, timer access and the key wait (44_keys_timers.md R260-R265).
-/

namespace Sys2Proof.Machine

/-- EX9E SKP Vx (R260). -/
def execSkp (x : RegIdx) (s : State) : Result := (keyFlag (getV s x) s).finish fun down t => skipIf down t

/-- EXA1 SKNP Vx (R261). -/
def execSknp (x : RegIdx) (s : State) : Result := (keyFlag (getV s x) s).finish fun down t => skipIf (!down) t

/-- FX07 LD Vx, DT (R262). -/
def execLdVxDt (x : RegIdx) (s : State) : Result := .next (advance (setV s x s.dt))

/-- FX0A LD Vx, K (R265): enters the wait and advances; Vx is written by the resolving key event (R266). -/
def execLdVxK (x : RegIdx) (s : State) : Result := .next (advance (setMode (.awaitingKey x) s))

/-- FX15 LD DT, Vx (R263). -/
def execLdDtVx (x : RegIdx) (s : State) : Result := .next (advance (setDt (getV s x) s))

/-- FX18 LD ST, Vx (R264): the tone is not changed. -/
def execLdStVx (x : RegIdx) (s : State) : Result := .next (advance (setSt (getV s x) s))

end Sys2Proof.Machine
end

