-- ==== Sys2Proof/Machine/Transactions.lean ====
section
/-!
DEFINITION. The block's transactions (60_exceptions.md R306, R310, R311): the instruction cycle (30_encoding.md R110, R111), the
timer tick (44_keys_timers.md R280), the key event (R320, R266), reset (70_reset_and_hazards.md R350), the bulk load
(20_memory.md R68), which of them are enabled, and which one comes next.
-/

namespace Sys2Proof.Machine

/-- The numeric status code of a transaction's result (60_exceptions.md R301): 0 Ok, 1 OutOfRange, 2 InvalidOpcode. -/
def statusCode : Option StepError → Nat
  | none => 0
  | some (.outOfRange _) => 1
  | some (.invalidOpcode _) => 2

/-- The kind of an error (60_exceptions.md R300). -/
def StepError.kind : StepError → ErrorKind
  | .outOfRange _ => .outOfRange
  | .invalidOpcode _ => .invalidOpcode

/-- `step()` (30_encoding.md R110, R111): nothing in AwaitingKey; otherwise fetch, decode, execute one instruction. -/
def cycle (s : State) : Result :=
  match s.mode with
  | .awaitingKey _ => .next s
  | .running =>
    match fetch s with
    | .done op t =>
      match decode op with
      | .ok i => exec i t
      | .error _ => raise (.invalidOpcode op) t
    | .raised e t => raise e t
    | .stuck f => .fault f

/-- Decrement a timer, with a floor at 0 (44_keys_timers.md R280). -/
def tickDown (b : Byte) : Byte := if b = 0 then 0 else b - 1

/-- `timerStep()` (44_keys_timers.md R280): Tone follows St after the decrement. -/
def timerStep (s : State) : State :=
  setTone (decide (0 < (tickDown s.st).toNat)) (setSt (tickDown s.st) (setDt (tickDown s.dt) s))

/-- Key-wait resolution (44_keys_timers.md R266): the key number into the pending register, and Running; PC unchanged. -/
def resolveWait (k : Nat) (s : State) : State :=
  match s.mode with
  | .awaitingKey r => setMode .running (setV s r (BitVec.ofNat 8 k))
  | .running => s

/-- `handleKey(k, down)` (60_exceptions.md R320): the state and the status returned to the host. -/
def handleKey (k : Nat) (down : Bool) (s : State) : State × Option StepError :=
  if h : k < 16 then
    let t := setKeys (s.keys.set k down h) s
    (if down then resolveWait k t else t, none)
  else (s, some (.outOfRange (.keyIndex k)))

/-- `reset()` (70_reset_and_hazards.md R350): every field of the spec's state takes its reset value; the model's own fields
(the parameters, the draw counter, the host's schedule) are not the block's and stay (log 21). -/
def resetBoard (s : State) : State :=
  { State.resetWith s.params with draws := s.draws, inbox := s.inbox, plan := s.plan }

/-- `write_bulk(addr, bytes)` (20_memory.md R68): the state, the status, and how many bytes were written. -/
def writeBulk : Nat → List Byte → State → State × Option StepError × Nat
  | _, [], s => (s, none, 0)
  | a, b :: bs, s =>
    match memWrite a b s with
    | .done _ t =>
      let r := writeBulk (a + 1) bs t
      (r.1, r.2.1, r.2.2 + 1)
    | .raised e t => (t, some e, 0)
    | .stuck _ => (s, none, 0)

/-- Which transactions the host may issue (60_exceptions.md R306): while the fault record is set, only `reset()`. -/
def enabled (tr : Transaction) (s : State) : Bool := tr == .reset || s.fault.isNone

/-- One transaction (60_exceptions.md R310); one that is not enabled has no successor. -/
def transact (tr : Transaction) (s : State) : Result :=
  if enabled tr s then
    match tr with
    | .step => cycle s
    | .timerStep => .next (timerStep s)
    | .handleKey k down => .next (handleKey k down s).1
    | .reset => .next (resetBoard s)
    | .writeBulk a bs => .next (writeBulk a bs s).1
  else .fault .notEnabled

/-- The host's turn (60_exceptions.md R311; log 5): the transaction it issues next, if any, and the state with its schedule moved
on. The first pending one; when none is pending, what the host's plan says. -/
def hostTurn (s : State) : Option Transaction × State :=
  match s.inbox with
  | tr :: rest => (some tr, setInbox rest s)
  | [] =>
    match s.plan with
    | .repeating [] => (none, s)
    | .repeating (tr :: rest) => (some tr, setInbox rest s)
    | .free n => (Config.hostChoice n, setPlan (.free (n + 1)) s)

/-- The host's turn taken: the transaction it issues; where it issues none, the block's state stays as it is. -/
def nextTransaction (s : State) : Result :=
  match hostTurn s with
  | (some tr, t) => transact tr t
  | (none, t) => .next t

end Sys2Proof.Machine
end

