-- ==== Sys2Proof/Machine/Step.lean ====
section
/-!
DEFINITION. The machine's step: the host's next turn (60_exceptions.md R310, R311), and the state that has a given instruction where
the next fetch finds it.
-/

namespace Sys2Proof.Machine

/-- One step of the machine: one transaction of the host's schedule, whatever that is. -/
def step (s : State) : Host.Outcome State Fault Refusal := nextTransaction s

/-- `s` with the instruction whose bits are `w` stored where the next step fetches, and what that fetch needs: Running, no fault
record, and `step()` as the host's next transaction (log 19). -/
def State.withFetchWord (s : State) (nbits w : Nat) : State :=
  { placeBytes (placeAddr s) (tableBytes nbits w) s with
    pc := BitVec.ofNat 16 (placeAddr s)
    mode := .running
    fault := none
    inbox := .step :: s.inbox }

end Sys2Proof.Machine
end

