-- ==== Sys2Proof/Machine/Asm.lean ====
section
/-!
DEFINITION. The assembler text of the instructions (30_encoding.md R100), the spec's own conventional syntax (D13).
It has no semantic role: no other definition of the machine uses it.
-/

namespace Sys2Proof

/-- One hexadecimal digit, upper case. -/
def hexDigit (n : Nat) : Char := "0123456789ABCDEF".toList.getD n '0'

/-- `k` hexadecimal digits of `n`, most significant first. -/
def hexText : Nat → Nat → List Char
  | 0, _ => []
  | k + 1, n => hexText k (n / 16) ++ [hexDigit (n % 16)]

/-- A number in assembler syntax: hex with a 0x prefix (R100). -/
def numText (k n : Nat) : String := "0x" ++ String.ofList (hexText k n)

/-- A register's name V0-VF (R100). -/
def regText (r : RegIdx) : String := "V" ++ String.ofList [hexDigit r.toNat]

/-- The assembler text of an instruction (R100). SHR and SHL show Y only when it is not 0, as Y = 0 is what an omitted Y encodes. -/
def Instr.asm : Instr → String
  | .cls => "CLS"
  | .ret => "RET"
  | .jp nnn => "JP " ++ numText 3 nnn.toNat
  | .call nnn => "CALL " ++ numText 3 nnn.toNat
  | .seImm x nn => "SE " ++ regText x ++ ", " ++ numText 2 nn.toNat
  | .sneImm x nn => "SNE " ++ regText x ++ ", " ++ numText 2 nn.toNat
  | .seReg x y => "SE " ++ regText x ++ ", " ++ regText y
  | .ldImm x nn => "LD " ++ regText x ++ ", " ++ numText 2 nn.toNat
  | .addImm x nn => "ADD " ++ regText x ++ ", " ++ numText 2 nn.toNat
  | .ldReg x y => "LD " ++ regText x ++ ", " ++ regText y
  | .orReg x y => "OR " ++ regText x ++ ", " ++ regText y
  | .andReg x y => "AND " ++ regText x ++ ", " ++ regText y
  | .xorReg x y => "XOR " ++ regText x ++ ", " ++ regText y
  | .addReg x y => "ADD " ++ regText x ++ ", " ++ regText y
  | .sub x y => "SUB " ++ regText x ++ ", " ++ regText y
  | .shr x y => if y = 0 then "SHR " ++ regText x else "SHR " ++ regText x ++ ", " ++ regText y
  | .subn x y => "SUBN " ++ regText x ++ ", " ++ regText y
  | .shl x y => if y = 0 then "SHL " ++ regText x else "SHL " ++ regText x ++ ", " ++ regText y
  | .sneReg x y => "SNE " ++ regText x ++ ", " ++ regText y
  | .ldI nnn => "LD I, " ++ numText 3 nnn.toNat
  | .jpV0 nnn => "JP V0, " ++ numText 3 nnn.toNat
  | .rnd x nn => "RND " ++ regText x ++ ", " ++ numText 2 nn.toNat
  | .drw x y n => "DRW " ++ regText x ++ ", " ++ regText y ++ ", " ++ numText 1 n.toNat
  | .skp x => "SKP " ++ regText x
  | .sknp x => "SKNP " ++ regText x
  | .ldVxDt x => "LD " ++ regText x ++ ", DT"
  | .ldVxK x => "LD " ++ regText x ++ ", K"
  | .ldDtVx x => "LD DT, " ++ regText x
  | .ldStVx x => "LD ST, " ++ regText x
  | .addI x => "ADD I, " ++ regText x
  | .ldF x => "LD F, " ++ regText x
  | .ldB x => "LD B, " ++ regText x
  | .ldMemVx x => "LD [I], " ++ regText x
  | .ldVxMem x => "LD " ++ regText x ++ ", [I]"

end Sys2Proof
end

