-- ==== Sys2Proof/Machine/Inspect.lean ====
section
/-!
DEFINITION. The read-only accessors and read ports (60_exceptions.md R330, R331, R333, R334). None changes any state; they stay
enabled while the fault record is set (R306).
-/

namespace Sys2Proof.Machine

/-- `readPC()`: never fails (R331). -/
def readPC (s : State) : Word := s.pc

/-- `readI()`: never fails (R331). -/
def readI (s : State) : Word := s.i

/-- `readSP()`: never fails (R331). -/
def readSP (s : State) : Byte := s.sp

/-- `readDt()`: never fails (R331). -/
def readDt (s : State) : Byte := s.dt

/-- `readSt()`: never fails (R331). -/
def readSt (s : State) : Byte := s.st

/-- `readV(i)`: OutOfRange when i > 15 (R331). -/
def readV (s : State) (k : Nat) : Except ErrorKind Byte :=
  if h : k < 16 then .ok (s.v[k]'h) else .error .outOfRange

/-- `readStack(k)`, whatever SP is: OutOfRange when k >= STACK_DEPTH (R331). -/
def readStack (s : State) (k : Nat) : Except ErrorKind Word :=
  if k < s.params.stackDepth then .ok (s.stack.getD k 0) else .error .outOfRange

/-- The bytes of `n` consecutive addresses. -/
def bytesAt (s : State) : Nat → Nat → List Byte
  | _, 0 => []
  | a, n + 1 => byteAt s a :: bytesAt s (a + 1) n

/-- `readMem(addr, len)`: OutOfRange when addr + len > MEM_SIZE, and then nothing is returned (R331). -/
def readMem (s : State) (addr len : Nat) : Except ErrorKind (List Byte) :=
  if addr + len > s.params.memSize then .error .outOfRange else .ok (bytesAt s addr len)

/-- The display read port: the pixel grid (R333). -/
def readDisplay (s : State) : Pix := s.pix

/-- The tone read port (R334). -/
def readTone (s : State) : Bool := s.tone

end Sys2Proof.Machine
end

