-- ==== Sys2Proof/Safety.lean ====
section
/-!
DEFINITION. The terms in which claims are stated: what a transition leaves unchanged, the machine's invariant (10_state.md R42, R27),
the initial and final states of a run (70_reset_and_hazards.md R353, R370), the register matrix (R22), the PC table (R25), and the
closed form of a sprite (43_display.md R235, R236).
-/

namespace Sys2Proof.Machine

/-- The pieces of the state, for frames. -/
inductive Part where
  | v | i | pc | sp | stack | dt | st | mode | mem | pix | keys | tone | fault | params | draws | inbox | plan
  deriving DecidableEq, Repr

/-- A piece of the state is the same in `t` as in `s`. Registers and memory are compared through their reads: every register,
and every byte of memory. -/
def Unchanged (p : Part) (s t : State) : Prop :=
  match p with
  | .v => ∀ r, getV t r = getV s r
  | .i => t.i = s.i
  | .pc => t.pc = s.pc
  | .sp => t.sp = s.sp
  | .stack => t.stack = s.stack
  | .dt => t.dt = s.dt
  | .st => t.st = s.st
  | .mode => t.mode = s.mode
  | .mem => ∀ a, byteAt t a = byteAt s a
  | .pix => t.pix = s.pix
  | .keys => t.keys = s.keys
  | .tone => t.tone = s.tone
  | .fault => t.fault = s.fault
  | .params => t.params = s.params
  | .draws => t.draws = s.draws
  | .inbox => t.inbox = s.inbox
  | .plan => t.plan = s.plan

/-- Every piece of the state but those listed is the same in `t` as in `s`. -/
def UnchangedExcept (ps : List Part) (s t : State) : Prop := ∀ p, p ∉ ps → Unchanged p s t

/-- The parameters meet their constraints, and the stack and the framebuffer have the sizes they give (R30; 43_display.md R230). -/
def Shaped (s : State) : Prop :=
  s.params.wf = true ∧ s.stack.length = s.params.stackDepth ∧ Pix.wf s.params s.pix = true

/-- The highest value PC can take: a skip's MEM_SIZE + 2, or BNNN's largest target 0xFF + 0xFFF (10_state.md R27). -/
def maxPc (c : Params) : Nat := max (c.memSize + 2) 0x10FE

/-- The machine's invariant: the sizes; memory in canonical form and inside the address space; 0 <= SP <= STACK_DEPTH (R29, R42); PC
below its bound (R27); and every occupied stack slot at most MEM_SIZE (R27, R131). -/
def StateInv (s : State) : Prop :=
  Shaped s ∧ Memory.wf s.params s.mem = true ∧ Memory.inRange s.params s.mem = true ∧ s.sp.toNat ≤ s.params.stackDepth ∧
    s.pc.toNat ≤ maxPc s.params ∧ ∀ k < s.sp.toNat, (s.stack.getD k 0).toNat ≤ s.params.memSize

/-- The image fits between PROGRAM_START and the end of memory (70_reset_and_hazards.md R352). -/
def ImageFits (c : Params) (image : List Byte) : Prop := c.programStart + image.length ≤ c.memSize

/-- `Launch(P)`: the state after reset and a bulk load at PROGRAM_START (70_reset_and_hazards.md R352, R353; that the load origin is
PROGRAM_START is the spec's decision D12, log 19). -/
def launch (c : Params) (image : List Byte) : State := (writeBulk c.programStart image (State.resetWith c)).1

/-- A final state (70_reset_and_hazards.md R370): no fault, Running, and a jump to itself at PC. -/
def IsFinal (s : State) : Prop :=
  s.fault = none ∧ s.mode = .running ∧ s.pc.toNat + 1 < s.params.memSize ∧
    ∃ nnn : Addr12, decode (wordOfBytes (byteAt s s.pc.toNat) (byteAt s (s.pc.toNat + 1))) = .ok (.jp nnn) ∧
      nnn.toNat = s.pc.toNat

/-- The Reads column of the register matrix (10_state.md R22). -/
def readsV (i : Instr) (r : RegIdx) : Bool :=
  match i with
  | .seImm x _ | .sneImm x _ | .addImm x _ => r == x
  | .seReg x y | .sneReg x y => r == x || r == y
  | .ldReg _ y => r == y
  | .orReg x y | .andReg x y | .xorReg x y => r == x || r == y
  | .addReg x y | .sub x y | .subn x y => r == x || r == y
  | .shr x _ | .shl x _ => r == x
  | .jpV0 _ => r == v0
  | .drw x y _ => r == x || r == y
  | .skp x | .sknp x => r == x
  | .ldDtVx x | .ldStVx x | .addI x | .ldF x | .ldB x => r == x
  | .ldMemVx x => decide (r.toNat ≤ x.toNat)
  | .cls | .ret | .jp _ | .call _ | .ldImm _ _ | .ldI _ | .rnd _ _ | .ldVxDt _ | .ldVxK _ | .ldVxMem _ => false

/-- The Writes column of the register matrix (10_state.md R22). FX0A's write comes later, on the resolving key event. -/
def writesV (i : Instr) (r : RegIdx) : Bool :=
  match i with
  | .ldImm x _ | .addImm x _ | .rnd x _ | .ldVxDt x => r == x
  | .ldReg x _ | .orReg x _ | .andReg x _ | .xorReg x _ => r == x
  | .addReg x _ | .sub x _ | .subn x _ | .shr x _ | .shl x _ => r == x || r == vf
  | .drw _ _ _ => r == vf
  | .ldVxMem x => decide (r.toNat ≤ x.toNat)
  | .cls | .ret | .jp _ | .call _ | .seImm _ _ | .sneImm _ _ | .seReg _ _ | .sneReg _ _ | .ldI _ | .jpV0 _ | .skp _ | .sknp _
  | .ldVxK _ | .ldDtVx _ | .ldStVx _ | .addI _ | .ldF _ | .ldB _ | .ldMemVx _ => false

/-- PC + 4 when the condition holds, else PC + 2 (10_state.md R25). -/
def SkipsOn (c : Prop) (s t : State) : Prop := (c → t.pc = s.pc + 4) ∧ (¬c → t.pc = s.pc + 2)

/-- Key number `k` exists and is down. -/
def KeyDown (s : State) (k : Nat) : Prop := ∃ h : k < 16, s.keys[k]'h = true

/-- The PC table of R25: the PC of `t` after a successful execution of `i` in `s`. -/
def PcAfter (i : Instr) (s t : State) : Prop :=
  match i with
  | .jp nnn | .call nnn => t.pc.toNat = nnn.toNat
  | .ret => s.stack[s.sp.toNat - 1]? = some t.pc
  | .jpV0 nnn => t.pc.toNat = (getV s v0).toNat + nnn.toNat
  | .seImm x nn => SkipsOn (getV s x = nn) s t
  | .sneImm x nn => SkipsOn (getV s x ≠ nn) s t
  | .seReg x y => SkipsOn (getV s x = getV s y) s t
  | .sneReg x y => SkipsOn (getV s x ≠ getV s y) s t
  | .skp x => SkipsOn (KeyDown s (getV s x).toNat) s t
  | .sknp x => SkipsOn (¬KeyDown s (getV s x).toNat) s t
  | .cls | .ldImm _ _ | .addImm _ _ | .ldReg _ _ | .orReg _ _ | .andReg _ _ | .xorReg _ _ | .addReg _ _ | .sub _ _ | .shr _ _
  | .subn _ _ | .shl _ _ | .ldI _ | .rnd _ _ | .drw _ _ _ | .ldVxDt _ | .ldVxK _ | .ldDtVx _ | .ldStVx _ | .addI _ | .ldF _
  | .ldB _ | .ldMemVx _ | .ldVxMem _ => t.pc = s.pc + 2

/-- The pieces of the state in which a failing instruction may have committed something (60_exceptions.md R302), and the fault
record. -/
def failureParts : Instr → List Part
  | .ldB _ => [.mem, .fault]
  | .ldMemVx _ => [.mem, .i, .fault]
  | .ldVxMem _ => [.v, .i, .fault]
  | .drw _ _ _ => [.pix, .fault]
  | .cls | .ret | .jp _ | .call _ | .seImm _ _ | .sneImm _ _ | .seReg _ _ | .ldImm _ _ | .addImm _ _ | .ldReg _ _ | .orReg _ _
  | .andReg _ _ | .xorReg _ _ | .addReg _ _ | .sub _ _ | .shr _ _ | .subn _ _ | .shl _ _ | .sneReg _ _ | .ldI _ | .jpV0 _
  | .rnd _ _ | .skp _ | .sknp _ | .ldVxDt _ | .ldVxK _ | .ldDtVx _ | .ldStVx _ | .addI _ | .ldF _ => [.fault]

/-- How far right of a sprite's first column the column `px` lies, on a screen that wraps (43_display.md R236). -/
def columnOffset (c : Params) (x px : Nat) : Nat := (px + (c.displayW - x % c.displayW)) % c.displayW

/-- How far below a sprite's first row the row `py` lies, on a screen that wraps (43_display.md R236). -/
def rowOffset (c : Params) (y py : Nat) : Nat := (py + (c.displayH - y % c.displayH)) % c.displayH

/-- The sprite's bit at pixel (px, py): `n` rows of 8 columns whose bytes are `rows`, drawn at (x, y), most significant bit first
(43_display.md R233, R235, R236). -/
def spriteBit (c : Params) (rows : Nat → Byte) (n x y px py : Nat) : Bool :=
  decide (rowOffset c y py < n) && decide (columnOffset c x px < 8) && (rows (rowOffset c y py)).getLsbD (7 - columnOffset c x px)

/-- Some pixel that is on lies under a set bit of the sprite: the blit turns it off, the collision of R235. -/
def Collides (c : Params) (p : Pix) (rows : Nat → Byte) (n x y : Nat) : Prop :=
  ∃ px py, px < c.displayW ∧ py < c.displayH ∧ pixelAt c p px py = true ∧ spriteBit c rows n x y px py = true

/-- The bytes of a sprite's rows: row `k` is at I + k (R235). -/
def spriteBytes (s : State) (k : Nat) : Byte := byteAt s (s.i.toNat + k)

/-- What a memory access that fails at address `f` leaves as it was, piece by piece (60_exceptions.md R302): the bytes below I and
from `f` on, the registers whose address is `f` or above, the pixels of the rows from `f` on. No other instruction fails one. -/
def FailedAccessLeaves (i : Instr) (s t : State) (f : Nat) : Prop :=
  match i with
  | .ldB _ | .ldMemVx _ => ∀ a, a < s.i.toNat ∨ f ≤ a → byteAt t a = byteAt s a
  | .ldVxMem _ => ∀ r : RegIdx, f ≤ s.i.toNat + r.toNat → getV t r = getV s r
  | .drw x y _ => ∀ px py,
      f ≤ s.i.toNat + rowOffset s.params (getV s y).toNat py ∨ 8 ≤ columnOffset s.params (getV s x).toNat px →
        pixelAt s.params t.pix px py = pixelAt s.params s.pix px py
  | .cls | .ret | .jp _ | .call _ | .seImm _ _ | .sneImm _ _ | .seReg _ _ | .ldImm _ _ | .addImm _ _ | .ldReg _ _ | .orReg _ _
  | .andReg _ _ | .xorReg _ _ | .addReg _ _ | .sub _ _ | .shr _ _ | .subn _ _ | .shl _ _ | .sneReg _ _ | .ldI _ | .jpV0 _
  | .rnd _ _ | .skp _ | .sknp _ | .ldVxDt _ | .ldVxK _ | .ldDtVx _ | .ldStVx _ | .addI _ | .ldF _ => False

end Sys2Proof.Machine
end

