-- ==== Sys2Proof/Certificates/Slice0/Obligations.lean ====
section
/-!
DEFINITION. The statements for the provers. Each formalises rules of spec/ (OBLIGATIONS.json says which) and none rests on the value
of a free value, of a parameter or of the host's schedule, which State carries.
-/

open Sys2Proof Sys2Proof.Machine

/-- One word of every family decodes to the instruction it stands for (95_test_vectors.md L2.1). -/
def Obligations.SampleWordsDecode : Prop :=
  decode 0x00E0#16 = .ok .cls ∧ decode 0x1ABC#16 = .ok (.jp 0xABC#12) ∧ decode 0x5120#16 = .ok (.seReg 1#4 2#4) ∧
  decode 0x8AB6#16 = .ok (.shr 0xA#4 0xB#4) ∧ decode 0xD000#16 = .ok (.drw 0#4 0#4 0#4) ∧ decode 0xE09E#16 = .ok (.skp 0#4) ∧
  decode 0xF00A#16 = .ok (.ldVxK 0#4) ∧ decode 0xF265#16 = .ok (.ldVxMem 2#4) ∧
  decode 0x5121#16 = .error (.invalidOpcode 0x5121#16) ∧ decode 0x0000#16 = .error (.invalidOpcode 0x0000#16)

/-- Decoding an encoded instruction gives it back, for every instruction and every operand value (30_encoding.md sections 1-3). -/
def Obligations.DecodeOfEncode : Prop := ∀ i : Instr, decode (encode i) = .ok i

/-- Encoding a decoded word gives the word back: no bit of a word is dropped, the ignored Y of SHR and SHL included. -/
def Obligations.EncodeOfDecode : Prop := ∀ (op : Word) (i : Instr), decode op = .ok i → encode i = op

/-- The decoder and the opcode table agree: a decoded instruction's row covers the word, and a word decodes exactly when some row
covers it (30_encoding.md section 3; opcode_table.json). -/
def Obligations.DecodeAgreesWithOpcodeTable : Prop :=
  ∀ op : Word,
    (∀ i, decode op = .ok i → ∃ r ∈ opcodeTable, r.mnemonic = i.mnemonic ∧ r.covers op = true) ∧
    ((∃ i, decode op = .ok i) ↔ wordWf op = true)

/-- The invalid words, class by class (30_encoding.md R97): these and no others; and a `step()` that fetches one takes InvalidOpcode,
whatever the host's schedule holds after it. -/
def Obligations.InvalidWordsByClass : Prop :=
  ∀ op : Word,
    (∀ s : State, s.fault = none → s.mode = .running → fetch s = .done op s →
      decode op = .error (.invalidOpcode op) → transact .step s = .next { s with fault := some (.invalidOpcode op) }) ∧
    (decode op = .error (.invalidOpcode op) ↔
      ((op.toNat / 4096 = 0x0 ∧ op ≠ 0x00E0#16 ∧ op ≠ 0x00EE#16) ∨
       ((op.toNat / 4096 = 0x5 ∨ op.toNat / 4096 = 0x9) ∧ op.toNat % 16 ≠ 0) ∨
       (op.toNat / 4096 = 0x8 ∧ op.toNat % 16 ∈ [0x8, 0x9, 0xA, 0xB, 0xC, 0xD, 0xF]) ∨
       (op.toNat / 4096 = 0xE ∧ op.toNat % 256 ∉ [0x9E, 0xA1]) ∨
       (op.toNat / 4096 = 0xF ∧ op.toNat % 256 ∉ [0x07, 0x0A, 0x15, 0x18, 0x1E, 0x29, 0x33, 0x55, 0x65])))

/-- The instruction cycle (30_encoding.md section 6), whatever the host's schedule holds after it: `step()` requires no fault record (the
spec's decision D5, log 6); it does nothing in AwaitingKey; while Running it takes the fetch's error, takes InvalidOpcode, or is exec of
the decoded instruction. And when the host's turn is `step()`, the machine's step is that transaction, on the state whose schedule has
moved on: this last clause rests on how the state holds the schedule, the model's choice (log 5). -/
def Obligations.StepRunsDecodedInstruction : Prop :=
  ∀ s : State,
    (s.fault ≠ none → transact .step s = .fault .notEnabled) ∧
    (∀ r, s.fault = none → s.mode = .awaitingKey r → transact .step s = .next s) ∧
    (s.fault = none → s.mode = .running →
      (∀ e, fetch s = .raised e s → transact .step s = .next { s with fault := some e }) ∧
      (∀ op, fetch s = .done op s →
        (decode op = .error (.invalidOpcode op) → transact .step s = .next { s with fault := some (.invalidOpcode op) }) ∧
        (∀ i, decode op = .ok i → transact .step s = exec i s))) ∧
    (∀ s₀, hostTurn s₀ = (some .step, s) → step s₀ = transact .step s)

/-- Fetch (20_memory.md section 2): the big-endian word of the bytes at PC and PC + 1; both are checked, in that order; no state changes.
That PC = MEM_SIZE - 1 fails on the second byte is the spec's decision D10 (log 15). -/
def Obligations.FetchReadsBigEndian : Prop :=
  ∀ s : State,
    (s.pc.toNat + 1 < s.params.memSize → ∃ op : Word, fetch s = .done op s ∧
      op.toNat = (byteAt s s.pc.toNat).toNat * 256 + (byteAt s (s.pc.toNat + 1)).toNat) ∧
    (s.pc.toNat + 1 = s.params.memSize → fetch s = .raised (.outOfRange (.mem s.params.memSize)) s) ∧
    (s.params.memSize ≤ s.pc.toNat → fetch s = .raised (.outOfRange (.mem s.pc.toNat)) s)

/-- The model's choice (log 5): each step of the machine is the host's next turn. A pending transaction is performed first and is then
no longer pending; with none pending a repeated list starts again, an empty one issues nothing, and a free plan issues what
`Config.hostChoice` says, which may be nothing. -/
def Obligations.HostScheduleTurns : Prop :=
  ∀ s : State,
    (∀ tr rest, s.inbox = tr :: rest → step s = transact tr { s with inbox := rest }) ∧
    (∀ tr rest, s.inbox = [] → s.plan = .repeating (tr :: rest) → step s = transact tr { s with inbox := rest }) ∧
    (s.inbox = [] → s.plan = .repeating [] → step s = .next s) ∧
    (∀ n, s.inbox = [] → s.plan = .free n → step s =
      match Config.hostChoice n with
      | some tr => transact tr { s with plan := .free (n + 1) }
      | none => .next { s with plan := .free (n + 1) })

/-- MemRead and MemWrite (20_memory.md R61, R62): the bound check, the byte read, the byte written and nothing else. -/
def Obligations.MemoryReadWriteBounds : Prop :=
  ∀ (a : Nat) (b : Byte) (s : State),
    (a < s.params.memSize → memRead a s = .done (byteAt s a) s) ∧
    (s.params.memSize ≤ a → memRead a s = .raised (.outOfRange (.mem a)) s) ∧
    (a < s.params.memSize → ∃ t, memWrite a b s = .done () t ∧ UnchangedExcept [.mem] s t ∧ byteAt t a = b ∧
      ∀ c, c ≠ a → byteAt t c = byteAt s c) ∧
    (s.params.memSize ≤ a → memWrite a b s = .raised (.outOfRange (.mem a)) s)

/-- A store is what the very next fetch of that address sees (20_memory.md section 7). -/
def Obligations.StoreIsFetchedNext : Prop :=
  ∀ (s : State) (hi lo : Byte), s.pc.toNat + 1 < s.params.memSize →
    ∃ t u, memWrite s.pc.toNat hi s = .done () t ∧ memWrite (s.pc.toNat + 1) lo t = .done () u ∧
      fetch u = .done (wordOfBytes hi lo) u

/-- While AwaitingKey a `step()` succeeds and changes nothing, whatever PC is and whatever the host does next (30_encoding.md R110). -/
def Obligations.AwaitingStepDoesNothing : Prop :=
  ∀ (s : State) (r : RegIdx), s.fault = none → s.mode = .awaitingKey r → transact .step s = .next s

/-- The reset state meets the machine's invariant, for every choice of the parameters within their constraints (00_scope.md section 4),
the defaults among them. -/
def Obligations.ResetMeetsInvariant : Prop :=
  (∀ c : Params, c.wf = true → StateInv (State.resetWith c)) ∧ StateInv State.reset

/-- Every step of the machine, instruction or host transaction, keeps the invariant: the parameters within R8's constraints, stack and
framebuffer of their sizes, memory canonical and inside the address space, 0 <= SP <= STACK_DEPTH, PC below its bound, every occupied
stack slot at most MEM_SIZE (10_state.md sections 3, 4 and 9). -/
def Obligations.EveryStepKeepsInvariant : Prop := ∀ s t : State, StateInv s → step s = .next t → StateInv t

/-- The sticky fault (60_exceptions.md section 1, D5, log 6): while the fault record is set nothing but reset is enabled, and reset
clears it. -/
def Obligations.FaultDisablesTransactions : Prop :=
  ∀ (s : State) (tr : Transaction), s.fault ≠ none →
    (tr ≠ .reset → transact tr s = .fault .notEnabled) ∧ (∃ t, transact .reset s = .next t ∧ t.fault = none)

/-- A failing instruction leaves everything but the fault record and what the partial-effect table lists for it; PC is never among it
(60_exceptions.md section 1). Where an access fails at address `f`: the bytes below I and from `f` on, the registers and the pixels
of the rows from `f` on are left too, and FX55 and FX65 leave I at `f`. Which access fails first and that the earlier ones stay are
the spec's decisions D6, D7, D8 (log 11, 13, 12). -/
def Obligations.FailedInstructionCommitsOnlyListed : Prop :=
  ∀ (i : Instr) (s t : State) (e : StepError), Shaped s → s.fault = none → exec i s = .next t → t.fault = some e →
    UnchangedExcept (failureParts i) s t ∧
    ∀ f, e = .outOfRange (.mem f) → FailedAccessLeaves i s t f ∧ (.i ∈ failureParts i → t.i.toNat = f)

/-- The read/write matrix of the general registers (10_state.md R22), over all instructions. Writes: a register outside the Writes
column keeps its value. Reads: two states that differ only in registers outside the Reads column give the same outcome and results
that differ only in registers the instruction left as they were. FX0A's later write is the resolving key event's, to the register
that FX0A named. -/
def Obligations.RegisterMatrix : Prop :=
  ∀ (i : Instr) (s : State),
    (∀ t r, exec i s = .next t → writesV i r = false → getV t r = getV s r) ∧
    (∀ v' : Vector Byte 16, (∀ r, readsV i r = true → getV { s with v := v' } r = getV s r) →
      (∀ t, exec i s = .next t → ∃ t', exec i { s with v := v' } = .next t' ∧ t' = { t with v := t'.v } ∧
        ∀ r, getV t' r = getV t r ∨ (getV t r = getV s r ∧ getV t' r = getV { s with v := v' } r)) ∧
      (∀ f, exec i s = .fault f → exec i { s with v := v' } = .fault f)) ∧
    (∀ x t, exec (.ldVxK x) s = .next t → t.mode = .awaitingKey x) ∧
    (∀ x k, s.mode = .awaitingKey x →
      getV (resolveWait k s) x = BitVec.ofNat 8 k ∧ ∀ r, r ≠ x → getV (resolveWait k s) r = getV s r)

/-- The PC table (10_state.md R25), over all instructions: after a success, the row's new PC; a failed `step()` and one in AwaitingKey
leave PC unchanged, whatever the host does next. -/
def Obligations.ProgramCounterTable : Prop :=
  (∀ (i : Instr) (s t : State), exec i s = .next t → t.fault = none → PcAfter i s t) ∧
  (∀ s t : State, s.fault = none → transact .step s = .next t → t.fault ≠ none → t.pc = s.pc) ∧
  (∀ (s t : State) (r : RegIdx), s.mode = .awaitingKey r → transact .step s = .next t → t.pc = s.pc)

/-- Only a timer tick and reset write Tone; only key events and reset write Keys (10_state.md section 7). -/
def Obligations.ToneAndKeysWriters : Prop :=
  ∀ (tr : Transaction) (s t : State), transact tr s = .next t →
    (t.tone ≠ s.tone → tr = .timerStep ∨ tr = .reset) ∧
    (t.keys ≠ s.keys → tr = .reset ∨ ∃ k down, tr = .handleKey k down)

/-- CLS (43_display.md R231, R234): every pixel off, PC + 2, nothing else. -/
def Obligations.ClearDisplay : Prop :=
  decode 0x00E0#16 = .ok .cls ∧ ∀ s : State, ∃ t, exec .cls s = .next t ∧ UnchangedExcept [.pix, .pc] s t ∧ t.pc = s.pc + 2 ∧
    ∀ px py, pixelAt s.params t.pix px py = false

/-- RET (40_control_flow.md section 1): SP - 1, PC exactly the popped slot. That the slot keeps its value is the spec's decision D7
(log 13). -/
def Obligations.ReturnPopsStack : Prop :=
  ∀ (s : State) (k : Nat) (w : Word), Shaped s → s.sp.toNat = k + 1 → s.stack[k]? = some w →
    ∃ t, exec .ret s = .next t ∧ UnchangedExcept [.sp, .pc] s t ∧ t.sp.toNat = k ∧ t.pc = w

/-- CALL (40_control_flow.md section 1): the slot at SP holds PC + 2, SP + 1, PC is the target; the other slots keep their values. -/
def Obligations.CallPushesReturnAddress : Prop :=
  ∀ (s : State) (nnn : Addr12), Shaped s → s.sp.toNat < s.params.stackDepth →
    ∃ t, exec (.call nnn) s = .next t ∧ UnchangedExcept [.sp, .stack, .pc] s t ∧ t.sp.toNat = s.sp.toNat + 1 ∧
      t.pc.toNat = nnn.toNat ∧ t.stack[s.sp.toNat]? = some (s.pc + 2) ∧ ∀ k, k ≠ s.sp.toNat → t.stack[k]? = s.stack[k]?

/-- A full stack and an empty stack raise, with SP, Stack and PC unchanged (40_control_flow.md section 1; D7, log 13). -/
def Obligations.StackLimitsRaise : Prop :=
  ∀ (s : State) (nnn : Addr12),
    (s.sp.toNat = s.params.stackDepth → exec (.call nnn) s = .next { s with fault := some (.outOfRange .stackOverflow) }) ∧
    (s.sp = 0 → exec .ret s = .next { s with fault := some (.outOfRange .stackUnderflow) })

/-- CALL then RET restores PC to the instruction after the call and SP to its value before it (95_test_vectors.md L1 E7). -/
def Obligations.CallThenReturn : Prop :=
  ∀ (s : State) (nnn : Addr12), Shaped s → s.sp.toNat < s.params.stackDepth →
    ∃ t u, exec (.call nnn) s = .next t ∧ exec .ret t = .next u ∧ u.pc = s.pc + 2 ∧ u.sp = s.sp

/-- JP (40_control_flow.md R132): PC is the target and nothing else changes; with NNN at MEM_SIZE - 1 the next fetch fails on its second
byte, above on its first; a jump to itself leaves the state as it was. -/
def Obligations.JumpSetsPc : Prop :=
  ∀ (s : State) (nnn : Addr12), decode (layoutNNN 0x1#4 nnn) = .ok (.jp nnn) ∧
    ∃ t, exec (.jp nnn) s = .next t ∧ UnchangedExcept [.pc] s t ∧ t.pc.toNat = nnn.toNat ∧
      (nnn.toNat + 1 = s.params.memSize → fetch t = .raised (.outOfRange (.mem s.params.memSize)) t) ∧
      (s.params.memSize ≤ nnn.toNat → fetch t = .raised (.outOfRange (.mem nnn.toNat)) t) ∧ (s.pc.toNat = nnn.toNat → t = s)

/-- JP V0 (40_control_flow.md section 3): PC is the natural sum V0 + NNN, not cut to 12 bits. -/
def Obligations.ComputedJump : Prop :=
  ∀ (s : State) (nnn : Addr12), ∃ t, exec (.jpV0 nnn) s = .next t ∧ UnchangedExcept [.pc] s t ∧
    t.pc.toNat = (getV s v0).toNat + nnn.toNat

/-- SE and SNE with an immediate (40_control_flow.md R135, R136): PC + 4 when the condition holds, else PC + 2; nothing else. -/
def Obligations.ImmediateSkips : Prop :=
  ∀ (s : State) (x : RegIdx) (nn : Byte),
    decode (layoutXNN 0x3#4 x nn) = .ok (.seImm x nn) ∧ decode (layoutXNN 0x4#4 x nn) = .ok (.sneImm x nn) ∧
    (∃ t, exec (.seImm x nn) s = .next t ∧ UnchangedExcept [.pc] s t ∧ SkipsOn (getV s x = nn) s t) ∧
    (∃ t, exec (.sneImm x nn) s = .next t ∧ UnchangedExcept [.pc] s t ∧ SkipsOn (getV s x ≠ nn) s t)

/-- SE and SNE with a register (40_control_flow.md R137, R138), and that a final nibble other than 0 is invalid. -/
def Obligations.RegisterSkips : Prop :=
  ∀ (s : State) (x y : RegIdx),
    decode (layoutXYN 0x5#4 x y 0) = .ok (.seReg x y) ∧ decode (layoutXYN 0x9#4 x y 0) = .ok (.sneReg x y) ∧
    (∃ t, exec (.seReg x y) s = .next t ∧ UnchangedExcept [.pc] s t ∧ SkipsOn (getV s x = getV s y) s t) ∧
    (∃ t, exec (.sneReg x y) s = .next t ∧ UnchangedExcept [.pc] s t ∧ SkipsOn (getV s x ≠ getV s y) s t) ∧
    (∀ n : Nibble, n ≠ 0 →
      decode (layoutXYN 0x5#4 x y n) = .error (.invalidOpcode (layoutXYN 0x5#4 x y n)) ∧
      decode (layoutXYN 0x9#4 x y n) = .error (.invalidOpcode (layoutXYN 0x9#4 x y n)))

/-- SKP and SKNP (44_keys_timers.md section 1): the skip on the key that Vx names, and OutOfRange(KeyIndex) above 0xF, which is the
spec's decision D8 (log 12). -/
def Obligations.KeySkips : Prop :=
  ∀ (s : State) (x : RegIdx),
    ((getV s x).toNat < 16 →
      (∃ t, exec (.skp x) s = .next t ∧ UnchangedExcept [.pc] s t ∧ SkipsOn (KeyDown s (getV s x).toNat) s t) ∧
      (∃ t, exec (.sknp x) s = .next t ∧ UnchangedExcept [.pc] s t ∧ SkipsOn (¬KeyDown s (getV s x).toNat) s t)) ∧
    (16 ≤ (getV s x).toNat →
      exec (.skp x) s = .next { s with fault := some (.outOfRange (.keyIndex (getV s x).toNat)) } ∧
      exec (.sknp x) s = .next { s with fault := some (.outOfRange (.keyIndex (getV s x).toNat)) })

/-- LD Vx, byte and ADD Vx, byte (41_alu.md R164, R165): Vx is the byte, or the sum modulo 256; no other register, VF included. -/
def Obligations.LoadAndAddImmediate : Prop :=
  ∀ (s : State) (x : RegIdx) (nn : Byte),
    decode (layoutXNN 0x6#4 x nn) = .ok (.ldImm x nn) ∧ decode (layoutXNN 0x7#4 x nn) = .ok (.addImm x nn) ∧
    (∃ t, exec (.ldImm x nn) s = .next t ∧ UnchangedExcept [.v, .pc] s t ∧ t.pc = s.pc + 2 ∧ getV t x = nn ∧
      ∀ r, r ≠ x → getV t r = getV s r) ∧
    (∃ t, exec (.addImm x nn) s = .next t ∧ UnchangedExcept [.v, .pc] s t ∧ t.pc = s.pc + 2 ∧
      (getV t x).toNat = ((getV s x).toNat + nn.toNat) % 256 ∧ ∀ r, r ≠ x → getV t r = getV s r)

/-- LD, OR, AND, XOR Vx, Vy (41_alu.md R166-R169): Vx bit by bit; no other register, so VF is not written unless X = F. -/
def Obligations.CopyAndBitwise : Prop :=
  ∀ (s : State) (x y : RegIdx),
    decode (layoutXYN 0x8#4 x y 0) = .ok (.ldReg x y) ∧ decode (layoutXYN 0x8#4 x y 1) = .ok (.orReg x y) ∧
    decode (layoutXYN 0x8#4 x y 2) = .ok (.andReg x y) ∧ decode (layoutXYN 0x8#4 x y 3) = .ok (.xorReg x y) ∧
    (∃ t, exec (.ldReg x y) s = .next t ∧ UnchangedExcept [.v, .pc] s t ∧ t.pc = s.pc + 2 ∧ getV t x = getV s y ∧
      ∀ r, r ≠ x → getV t r = getV s r) ∧
    (∃ t, exec (.orReg x y) s = .next t ∧ UnchangedExcept [.v, .pc] s t ∧ t.pc = s.pc + 2 ∧
      (∀ k, (getV t x).getLsbD k = ((getV s x).getLsbD k || (getV s y).getLsbD k)) ∧ ∀ r, r ≠ x → getV t r = getV s r) ∧
    (∃ t, exec (.andReg x y) s = .next t ∧ UnchangedExcept [.v, .pc] s t ∧ t.pc = s.pc + 2 ∧
      (∀ k, (getV t x).getLsbD k = ((getV s x).getLsbD k && (getV s y).getLsbD k)) ∧ ∀ r, r ≠ x → getV t r = getV s r) ∧
    (∃ t, exec (.xorReg x y) s = .next t ∧ UnchangedExcept [.v, .pc] s t ∧ t.pc = s.pc + 2 ∧
      (∀ k, (getV t x).getLsbD k = ((getV s x).getLsbD k ^^ (getV s y).getLsbD k)) ∧ ∀ r, r ≠ x → getV t r = getV s r)

/-- ADD Vx, Vy (41_alu.md R170): VF is the carry, also when X = F; Vx is the sum modulo 256; Y = F adds the old VF. -/
def Obligations.AddWithCarry : Prop :=
  ∀ (s : State) (x y : RegIdx), decode (layoutXYN 0x8#4 x y 4) = .ok (.addReg x y) ∧
    ∃ t, exec (.addReg x y) s = .next t ∧ UnchangedExcept [.v, .pc] s t ∧ t.pc = s.pc + 2 ∧
      getV t vf = (if (getV s x).toNat + (getV s y).toNat > 255 then 1 else 0) ∧
      (x ≠ vf → (getV t x).toNat = ((getV s x).toNat + (getV s y).toNat) % 256) ∧
      ∀ r, r ≠ x → r ≠ vf → getV t r = getV s r

/-- SUB and SUBN (41_alu.md R171, R173) under both values of ALU_VF_READING and for every X and Y. `sequential`: the flag goes to VF
first, and Vx is the difference of the registers as they are then. `snapshotFlagLast`: the difference of the old operands goes to Vx,
then the flag to VF. -/
def Obligations.SubtractUnderBothReadings : Prop :=
  ∀ (s : State) (x y : RegIdx),
    decode (layoutXYN 0x8#4 x y 5) = .ok (.sub x y) ∧ decode (layoutXYN 0x8#4 x y 7) = .ok (.subn x y) ∧
    (∃ t, exec (.sub x y) s = .next t ∧ UnchangedExcept [.v, .pc] s t ∧ t.pc = s.pc + 2 ∧
      (∀ r, r ≠ x → r ≠ vf → getV t r = getV s r) ∧
      ∃ f a b : Byte, f = (if (getV s x).toNat > (getV s y).toNat then 1 else 0) ∧
        (s.params.aluVfReading = .sequential → a = (if x = vf then f else getV s x) ∧ b = (if y = vf then f else getV s y) ∧
          (getV t x).toNat = (256 + a.toNat - b.toNat) % 256 ∧ (x ≠ vf → getV t vf = f)) ∧
        (s.params.aluVfReading = .snapshotFlagLast → a = getV s x ∧ b = getV s y ∧
          getV t vf = f ∧ (x ≠ vf → (getV t x).toNat = (256 + a.toNat - b.toNat) % 256))) ∧
    (∃ t, exec (.subn x y) s = .next t ∧ UnchangedExcept [.v, .pc] s t ∧ t.pc = s.pc + 2 ∧
      (∀ r, r ≠ x → r ≠ vf → getV t r = getV s r) ∧
      ∃ f a b : Byte, f = (if (getV s y).toNat > (getV s x).toNat then 1 else 0) ∧
        (s.params.aluVfReading = .sequential → a = (if x = vf then f else getV s x) ∧ b = (if y = vf then f else getV s y) ∧
          (getV t x).toNat = (256 + b.toNat - a.toNat) % 256 ∧ (x ≠ vf → getV t vf = f)) ∧
        (s.params.aluVfReading = .snapshotFlagLast → a = getV s x ∧ b = getV s y ∧
          getV t vf = f ∧ (x ≠ vf → (getV t x).toNat = (256 + b.toNat - a.toNat) % 256)))

/-- SHR and SHL (41_alu.md R172, R174) under both values of ALU_VF_READING, for every X and every ignored Y. -/
def Obligations.ShiftUnderBothReadings : Prop :=
  ∀ (s : State) (x y : RegIdx),
    decode (layoutXYN 0x8#4 x y 6) = .ok (.shr x y) ∧ decode (layoutXYN 0x8#4 x y 0xE) = .ok (.shl x y) ∧
    (∃ t, exec (.shr x y) s = .next t ∧ UnchangedExcept [.v, .pc] s t ∧ t.pc = s.pc + 2 ∧
      (∀ r, r ≠ x → r ≠ vf → getV t r = getV s r) ∧
      ∃ f a : Byte, f.toNat = (getV s x).toNat % 2 ∧
        (s.params.aluVfReading = .sequential → a = (if x = vf then f else getV s x) ∧
          (getV t x).toNat = a.toNat / 2 ∧ (x ≠ vf → getV t vf = f)) ∧
        (s.params.aluVfReading = .snapshotFlagLast → a = getV s x ∧
          getV t vf = f ∧ (x ≠ vf → (getV t x).toNat = a.toNat / 2))) ∧
    (∃ t, exec (.shl x y) s = .next t ∧ UnchangedExcept [.v, .pc] s t ∧ t.pc = s.pc + 2 ∧
      (∀ r, r ≠ x → r ≠ vf → getV t r = getV s r) ∧
      ∃ f a : Byte, f.toNat = (getV s x).toNat / 128 ∧
        (s.params.aluVfReading = .sequential → a = (if x = vf then f else getV s x) ∧
          (getV t x).toNat = a.toNat * 2 % 256 ∧ (x ≠ vf → getV t vf = f)) ∧
        (s.params.aluVfReading = .snapshotFlagLast → a = getV s x ∧
          getV t vf = f ∧ (x ≠ vf → (getV t x).toNat = a.toNat * 2 % 256)))

/-- The table of results when VF is an operand (41_alu.md section 1), every row that differs between the readings, for both readings;
and that outside those cases the readings agree. -/
def Obligations.VfOperandTable : Prop :=
  ∀ (s : State) (x y : RegIdx) (t u : State), x ≠ vf → y ≠ vf →
    (exec (.sub vf y) s = .next t → (getV t vf).toNat =
      if s.params.aluVfReading = .sequential
      then (256 + (if (getV s vf).toNat > (getV s y).toNat then 1 else 0) - (getV s y).toNat) % 256
      else (if (getV s vf).toNat > (getV s y).toNat then 1 else 0)) ∧
    (exec (.sub x vf) s = .next t →
      (getV t vf).toNat = (if (getV s x).toNat > (getV s vf).toNat then 1 else 0) ∧
      (getV t x).toNat =
        if s.params.aluVfReading = .sequential
        then (256 + (getV s x).toNat - (if (getV s x).toNat > (getV s vf).toNat then 1 else 0)) % 256
        else (256 + (getV s x).toNat - (getV s vf).toNat) % 256) ∧
    (exec (.subn vf y) s = .next t → (getV t vf).toNat =
      if s.params.aluVfReading = .sequential
      then (256 + (getV s y).toNat - (if (getV s y).toNat > (getV s vf).toNat then 1 else 0)) % 256
      else (if (getV s y).toNat > (getV s vf).toNat then 1 else 0)) ∧
    (exec (.subn x vf) s = .next t →
      (getV t vf).toNat = (if (getV s vf).toNat > (getV s x).toNat then 1 else 0) ∧
      (getV t x).toNat =
        if s.params.aluVfReading = .sequential
        then (256 + (if (getV s vf).toNat > (getV s x).toNat then 1 else 0) - (getV s x).toNat) % 256
        else (256 + (getV s vf).toNat - (getV s x).toNat) % 256) ∧
    ((exec (.sub vf vf) s = .next t ∨ exec (.subn vf vf) s = .next t) → getV t vf = 0) ∧
    (exec (.shr vf y) s = .next t → (getV t vf).toNat = if s.params.aluVfReading = .sequential then 0 else (getV s vf).toNat % 2) ∧
    (exec (.shl vf y) s = .next t →
      (getV t vf).toNat = if s.params.aluVfReading = .sequential then (getV s vf).toNat / 128 * 2 else (getV s vf).toNat / 128) ∧
    (∀ i ∈ [Instr.sub x y, .subn x y, .shr x y, .shl x y], ∀ g : VfReading,
      exec i s = .next t → exec i { s with params := { s.params with aluVfReading := g } } = .next u → ∀ r, getV u r = getV t r)

/-- RND (41_alu.md section 4; free value, log 4): some byte ANDed with the immediate, so no bit outside the immediate is set; no other
register; the draw counter of the model counts one more. -/
def Obligations.RandomAndMask : Prop :=
  ∀ (s : State) (x : RegIdx) (nn : Byte),
    ∃ t, exec (.rnd x nn) s = .next t ∧ UnchangedExcept [.v, .pc, .draws] s t ∧ t.pc = s.pc + 2 ∧ t.draws = s.draws + 1 ∧
      (∃ b : Byte, getV t x = b &&& nn) ∧ (nn = 0 → getV t x = 0) ∧ ∀ r, r ≠ x → getV t r = getV s r

/-- LD I, addr (42_index_memory.md R201). -/
def Obligations.LoadAddressRegister : Prop :=
  ∀ (s : State) (nnn : Addr12), decode (layoutNNN 0xA#4 nnn) = .ok (.ldI nnn) ∧
    ∃ t, exec (.ldI nnn) s = .next t ∧ UnchangedExcept [.i, .pc] s t ∧ t.pc = s.pc + 2 ∧ t.i.toNat = nnn.toNat

/-- ADD I, Vx (42_index_memory.md section 1): modulo 2^16 (D9, log 14), VF not written. -/
def Obligations.AddToAddressRegister : Prop :=
  ∀ (s : State) (x : RegIdx),
    ∃ t, exec (.addI x) s = .next t ∧ UnchangedExcept [.i, .pc] s t ∧ t.pc = s.pc + 2 ∧
      t.i.toNat = (s.i.toNat + (getV s x).toNat) % 65536

/-- LD F, Vx (42_index_memory.md R203; 20_memory.md R65): the glyph's address for a digit 0..15; OutOfRange(FontDigit) above, with I
and PC unchanged. -/
def Obligations.FontPointer : Prop :=
  ∀ (s : State) (x : RegIdx), s.params.wf = true → decode (layoutXNN 0xF#4 x 0x29) = .ok (.ldF x) ∧
    ((getV s x).toNat ≤ 0xF →
      ∃ t, exec (.ldF x) s = .next t ∧ UnchangedExcept [.i, .pc] s t ∧ t.pc = s.pc + 2 ∧
        t.i.toNat = s.params.fontBase + s.params.glyphBytes * (getV s x).toNat) ∧
    (0xF < (getV s x).toNat →
      exec (.ldF x) s = .next { s with fault := some (.outOfRange (.fontDigit (getV s x).toNat)) })

/-- LD B, Vx when all three addresses exist (42_index_memory.md section 2): hundreds, tens, units at the address stored to and the two
after it; every other byte of memory, I and every register unchanged. -/
def Obligations.BcdStore : Prop :=
  ∀ (s : State) (x : RegIdx), dataAddr s 0 + 2 < s.params.memSize →
    ∃ t, exec (.ldB x) s = .next t ∧ UnchangedExcept [.mem, .pc] s t ∧ t.pc = s.pc + 2 ∧
      (byteAt t (dataAddr s 0)).toNat = (getV s x).toNat / 100 ∧
      (byteAt t (dataAddr s 0 + 1)).toNat = (getV s x).toNat / 10 % 10 ∧
      (byteAt t (dataAddr s 0 + 2)).toNat = (getV s x).toNat % 10 ∧
      ∀ a, a < dataAddr s 0 ∨ dataAddr s 0 + 3 ≤ a → byteAt t a = byteAt s a

/-- LD B, Vx when digit `j` is the first whose address does not exist (60_exceptions.md section 1; D6, log 11): the digits before it are
written; I, PC and every other byte are unchanged. -/
def Obligations.BcdStoreStops : Prop :=
  ∀ (s : State) (x : RegIdx) (j : Nat), j < 3 → s.params.memSize ≤ dataAddr s 0 + j →
    (∀ k < j, dataAddr s 0 + k < s.params.memSize) →
    ∃ t, exec (.ldB x) s = .next t ∧ UnchangedExcept [.mem, .fault] s t ∧
      t.fault = some (.outOfRange (.mem (dataAddr s 0 + j))) ∧
      (0 < j → (byteAt t (dataAddr s 0)).toNat = (getV s x).toNat / 100) ∧
      (1 < j → (byteAt t (dataAddr s 0 + 1)).toNat = (getV s x).toNat / 10 % 10) ∧
      ∀ a, a < dataAddr s 0 ∨ dataAddr s 0 + j ≤ a → byteAt t a = byteAt s a

/-- LD [I], Vx when every address exists (42_index_memory.md section 2): V0..Vx at rising addresses from I, I + X + 1 after; every
other byte and every register unchanged. -/
def Obligations.StoreRegisters : Prop :=
  ∀ (s : State) (x : RegIdx), s.params.wf = true → s.i.toNat + x.toNat < s.params.memSize →
    ∃ t, exec (.ldMemVx x) s = .next t ∧ UnchangedExcept [.mem, .i, .pc] s t ∧ t.pc = s.pc + 2 ∧
      t.i.toNat = s.i.toNat + x.toNat + 1 ∧
      (∀ r : RegIdx, r.toNat ≤ x.toNat → byteAt t (s.i.toNat + r.toNat) = getV s r) ∧
      ∀ a, a < s.i.toNat ∨ s.i.toNat + x.toNat < a → byteAt t a = byteAt s a

/-- LD [I], Vx when register `j`'s address is the first that does not exist (60_exceptions.md section 1; D6, log 11): the registers
before it are stored, I has risen by `j`, PC is unchanged. -/
def Obligations.StoreRegistersStops : Prop :=
  ∀ (s : State) (x : RegIdx) (j : Nat), s.params.wf = true → j ≤ x.toNat → s.params.memSize ≤ s.i.toNat + j →
    (∀ k < j, s.i.toNat + k < s.params.memSize) →
    ∃ t, exec (.ldMemVx x) s = .next t ∧ UnchangedExcept [.mem, .i, .fault] s t ∧
      t.fault = some (.outOfRange (.mem (s.i.toNat + j))) ∧ t.i.toNat = s.i.toNat + j ∧
      (∀ r : RegIdx, r.toNat < j → byteAt t (s.i.toNat + r.toNat) = getV s r) ∧
      ∀ a, a < s.i.toNat ∨ s.i.toNat + j ≤ a → byteAt t a = byteAt s a

/-- LD Vx, [I] (42_index_memory.md section 2). When every address exists: V0..Vx from rising addresses, I + X + 1 after. When register
`j`'s address is the first that does not exist: the registers before it are loaded, I has risen by `j`, PC is unchanged, which is the
spec's decision D6 (log 11). -/
def Obligations.LoadRegisters : Prop :=
  ∀ (s : State) (x : RegIdx), s.params.wf = true → decode (layoutXNN 0xF#4 x 0x65) = .ok (.ldVxMem x) ∧
    (s.i.toNat + x.toNat < s.params.memSize →
      ∃ t, exec (.ldVxMem x) s = .next t ∧ UnchangedExcept [.v, .i, .pc] s t ∧ t.pc = s.pc + 2 ∧
        t.i.toNat = s.i.toNat + x.toNat + 1 ∧
        (∀ r : RegIdx, r.toNat ≤ x.toNat → getV t r = byteAt s (s.i.toNat + r.toNat)) ∧
        ∀ r : RegIdx, x.toNat < r.toNat → getV t r = getV s r) ∧
    (∀ j, j ≤ x.toNat → s.params.memSize ≤ s.i.toNat + j → (∀ k < j, s.i.toNat + k < s.params.memSize) →
      ∃ t, exec (.ldVxMem x) s = .next t ∧ UnchangedExcept [.v, .i, .fault] s t ∧
        t.fault = some (.outOfRange (.mem (s.i.toNat + j))) ∧ t.i.toNat = s.i.toNat + j ∧
        (∀ r : RegIdx, r.toNat < j → getV t r = byteAt s (s.i.toNat + r.toNat)) ∧
        ∀ r : RegIdx, j ≤ r.toNat → getV t r = getV s r)

/-- flip_bit (43_display.md R232): XOR of the wrapped pixel, true exactly on a change from on to off, every other pixel unchanged. -/
def Obligations.FlipBitXors : Prop :=
  ∀ (c : Params) (x y : Nat) (bit : Bool) (p : Pix), c.wf = true → Pix.wf c p = true →
    pixelAt c (flipBit c x y bit p).1 x y = (pixelAt c p x y ^^ bit) ∧
    ((flipBit c x y bit p).2 = true ↔ pixelAt c p x y = true ∧ pixelAt c (flipBit c x y bit p).1 x y = false) ∧
    ∀ px py, (px % c.displayW ≠ x % c.displayW ∨ py % c.displayH ≠ y % c.displayH) →
      pixelAt c (flipBit c x y bit p).1 px py = pixelAt c p px py

/-- DRW in closed form (43_display.md section 2): when every row's address exists, each pixel is XORed with the wrapped sprite's bit, VF
is 1 exactly when some pixel went from on to off, and nothing else changes; N = 0 (D21, log 18) and VF as a coordinate included. -/
def Obligations.DrawSprite : Prop :=
  ∀ (s : State) (x y : RegIdx) (n : Nibble), Shaped s → (∀ k < n.toNat, s.i.toNat + k < s.params.memSize) →
    ∃ t, exec (.drw x y n) s = .next t ∧ UnchangedExcept [.v, .pix, .pc] s t ∧ t.pc = s.pc + 2 ∧
      (∀ px py, pixelAt s.params t.pix px py =
        (pixelAt s.params s.pix px py ^^
          spriteBit s.params (spriteBytes s) n.toNat (getV s x).toNat (getV s y).toNat px py)) ∧
      (Collides s.params s.pix (spriteBytes s) n.toNat (getV s x).toNat (getV s y).toNat → getV t vf = 1) ∧
      (¬Collides s.params s.pix (spriteBytes s) n.toNat (getV s x).toNat (getV s y).toNat → getV t vf = 0) ∧
      ∀ r, r ≠ vf → getV t r = getV s r

/-- DRW when row `j`'s address is the first that does not exist (60_exceptions.md section 1; D6, log 11): the rows before it are blitted;
VF, I and PC are unchanged. -/
def Obligations.DrawSpriteStops : Prop :=
  ∀ (s : State) (x y : RegIdx) (n : Nibble) (j : Nat), Shaped s → j < n.toNat → s.params.memSize ≤ s.i.toNat + j →
    (∀ k < j, s.i.toNat + k < s.params.memSize) →
    ∃ t, exec (.drw x y n) s = .next t ∧ UnchangedExcept [.pix, .fault] s t ∧
      t.fault = some (.outOfRange (.mem (s.i.toNat + j))) ∧
      ∀ px py, pixelAt s.params t.pix px py =
        (pixelAt s.params s.pix px py ^^ spriteBit s.params (spriteBytes s) j (getV s x).toNat (getV s y).toNat px py)

/-- Drawing a sprite twice at the same place restores the framebuffer; on a clear screen the first draw gives VF = 0, and a sprite with
some set bit gives VF = 1 on the second (43_display.md section 2; 95_test_vectors.md L1 E5). -/
def Obligations.DrawTwiceErases : Prop :=
  ∀ (s : State) (x y : RegIdx) (n : Nibble), Shaped s → x ≠ vf → y ≠ vf →
    (∀ k < n.toNat, s.i.toNat + k < s.params.memSize) →
    ∃ t u, exec (.drw x y n) s = .next t ∧ exec (.drw x y n) t = .next u ∧ u.pix = s.pix ∧
      ((∀ px py, pixelAt s.params s.pix px py = false) → getV t vf = 0 ∧
        ((∃ k < n.toNat, spriteBytes s k ≠ 0) → getV u vf = 1))

/-- LD Vx, DT and LD DT, Vx (44_keys_timers.md R262, R263). -/
def Obligations.TimerRegisters : Prop :=
  ∀ (s : State) (x : RegIdx),
    decode (layoutXNN 0xF#4 x 0x07) = .ok (.ldVxDt x) ∧ decode (layoutXNN 0xF#4 x 0x15) = .ok (.ldDtVx x) ∧
    (∃ t, exec (.ldVxDt x) s = .next t ∧ UnchangedExcept [.v, .pc] s t ∧ t.pc = s.pc + 2 ∧ getV t x = s.dt ∧
      ∀ r, r ≠ x → getV t r = getV s r) ∧
    (∃ t, exec (.ldDtVx x) s = .next t ∧ UnchangedExcept [.dt, .pc] s t ∧ t.pc = s.pc + 2 ∧ t.dt = getV s x)

/-- LD ST, Vx (44_keys_timers.md section 2): St is Vx and Tone stays until the next tick, which sets it on exactly when Vx is above 1,
so that St = 1 never turns the tone on. -/
def Obligations.SoundTimer : Prop :=
  ∀ (s : State) (x : RegIdx),
    ∃ t, exec (.ldStVx x) s = .next t ∧ UnchangedExcept [.st, .pc] s t ∧ t.pc = s.pc + 2 ∧ t.st = getV s x ∧
      ((timerStep t).tone = true ↔ 1 < (getV s x).toNat)

/-- LD Vx, K (44_keys_timers.md section 3): enters the wait for X and advances; Vx is not written now, and a key that is already down
does not end the wait (D20, log 17). -/
def Obligations.KeyWaitEntered : Prop :=
  ∀ (s : State) (x : RegIdx),
    ∃ t, exec (.ldVxK x) s = .next t ∧ UnchangedExcept [.mode, .pc] s t ∧ t.pc = s.pc + 2 ∧ t.mode = .awaitingKey x

/-- Key-wait resolution (44_keys_timers.md R266): a key-down event puts the key number into the pending register and sets Running, PC
unchanged, so that the next step executes the instruction at PC; a key-up event never resolves the wait. -/
def Obligations.KeyDownResolvesWait : Prop :=
  ∀ (s : State) (r : RegIdx) (k : Nat), s.fault = none → s.mode = .awaitingKey r → k < 16 →
    (∃ t, transact (.handleKey k true) s = .next t ∧ UnchangedExcept [.v, .mode, .keys] s t ∧ t.mode = .running ∧
      (getV t r).toNat = k ∧ KeyDown t k ∧ (∀ q, q ≠ r → getV t q = getV s q) ∧
      (∀ j, j ≠ k → (KeyDown t j ↔ KeyDown s j)) ∧
      ∀ op i, fetch t = .done op t → decode op = .ok i → transact .step t = exec i t) ∧
    (∃ t, transact (.handleKey k false) s = .next t ∧ UnchangedExcept [.keys] s t ∧ ¬KeyDown t k ∧
      ∀ j, j ≠ k → (KeyDown t j ↔ KeyDown s j))

/-- Key events (60_exceptions.md section 3): without a fault record the transaction answers the state that handleKey gives. A key above
15 is refused with no change (D19, log 12); otherwise the key's flag is written, no other flag is, and while Running nothing else
changes. -/
def Obligations.KeyEvents : Prop :=
  ∀ (s : State) (k : Nat) (down : Bool),
    (s.fault = none → transact (.handleKey k down) s = .next (handleKey k down s).1) ∧
    (16 ≤ k → handleKey k down s = (s, some (.outOfRange (.keyIndex k)))) ∧
    (k < 16 → ∃ t, handleKey k down s = (t, none) ∧ UnchangedExcept [.v, .mode, .keys] s t ∧
      (KeyDown t k ↔ down = true) ∧ (∀ j, j ≠ k → (KeyDown t j ↔ KeyDown s j)) ∧
      (s.mode = .running → UnchangedExcept [.keys] s t))

/-- The timer tick (44_keys_timers.md R280): both timers down by one with a floor at 0, Tone on exactly when St is above 0 after that,
nothing else, in every Mode; with a fault record no tick is taken. -/
def Obligations.TimerTick : Prop :=
  ∀ s : State,
    (s.fault = none → ∃ t, transact .timerStep s = .next t ∧ UnchangedExcept [.dt, .st, .tone] s t ∧
      t.dt.toNat = s.dt.toNat - 1 ∧ t.st.toNat = s.st.toNat - 1 ∧ (t.tone = true ↔ 0 < t.st.toNat)) ∧
    (s.fault ≠ none → ∀ t, transact .timerStep s ≠ .next t)

/-- After `m` ticks Dt is max(0, d - m) (44_keys_timers.md section 4). -/
def Obligations.TimerDecay : Prop :=
  ∀ (s : State) (m : Nat), (timerStep^[m] s).dt.toNat = s.dt.toNat - m ∧ (timerStep^[m] s).st.toNat = s.st.toNat - m

/-- write_bulk (20_memory.md R68): without a fault record the transaction answers the state that writeBulk gives. Bytes in order up to the
first whose address does not exist, how many were written, the bytes written stay, and no fault record is set. -/
def Obligations.BulkLoad : Prop :=
  ∀ (s : State) (a : Nat) (bs : List Byte),
    (s.fault = none → transact (.writeBulk a bs) s = .next (writeBulk a bs s).1) ∧
    ((∀ k < bs.length, a + k < s.params.memSize) →
      ∃ t, writeBulk a bs s = (t, none, bs.length) ∧ UnchangedExcept [.mem] s t ∧
        (∀ k (h : k < bs.length), byteAt t (a + k) = bs[k]) ∧
        ∀ c, c < a ∨ a + bs.length ≤ c → byteAt t c = byteAt s c) ∧
    (∀ n, n < bs.length → (∀ k < n, a + k < s.params.memSize) → s.params.memSize ≤ a + n →
      ∃ t, writeBulk a bs s = (t, some (.outOfRange (.mem (a + n))), n) ∧ UnchangedExcept [.mem] s t ∧
        (∀ k (h : k < bs.length), k < n → byteAt t (a + k) = bs[k]) ∧
        ∀ c, c < a ∨ a + n ≤ c → byteAt t c = byteAt s c)

/-- Reset from any state, faulted or waiting (10_state.md section 9; 70_reset_and_hazards.md section 1): every field of the spec's state at
its reset value, memory 0 but for the font table at FONT_BASE. The reset of Pix, Keys and Fault is the spec's decision D11, D5 (log 9, 6);
the model's own fields stay (log 21). -/
def Obligations.ResetState : Prop :=
  ∀ s : State, s.params.wf = true → ∃ t, transact .reset s = .next t ∧ UnchangedExcept
      [.v, .i, .pc, .sp, .stack, .dt, .st, .mode, .mem, .pix, .keys, .tone, .fault] s t ∧ Shaped t ∧
    (∀ r, getV t r = 0) ∧ t.i = 0 ∧ t.pc.toNat = s.params.programStart ∧ t.sp = 0 ∧
    (∀ k < s.params.stackDepth, t.stack[k]? = some 0) ∧ t.dt = 0 ∧ t.st = 0 ∧ t.mode = .running ∧
    (∀ (k : Nat) (h : k < s.params.fontTable.length), byteAt t (s.params.fontBase + k) = s.params.fontTable[k]) ∧
    (∀ a, a < s.params.fontBase ∨ s.params.fontBase + s.params.fontTable.length ≤ a → byteAt t a = 0) ∧
    (∀ px py, pixelAt s.params t.pix px py = false) ∧ (∀ k, ¬KeyDown t k) ∧ t.tone = false ∧ t.fault = none

/-- Launch(P) (70_reset_and_hazards.md section 2): for an image that fits, the reset state but for the image's bytes at PROGRAM_START. That
the load origin is PROGRAM_START and that a run starts so are the spec's decision D12 (log 19). -/
def Obligations.LaunchState : Prop :=
  ∀ (c : Params) (image : List Byte), ImageFits c image →
    UnchangedExcept [.mem] (State.resetWith c) (launch c image) ∧ (launch c image).mode = .running ∧ (launch c image).fault = none ∧
      (∀ k (h : k < image.length), byteAt (launch c image) (c.programStart + k) = image[k]) ∧
      ∀ a, a < c.programStart ∨ c.programStart + image.length ≤ a → byteAt (launch c image) a = byteAt (State.resetWith c) a

/-- A final state is unchanged by every further `step()`, whatever else the host does later (70_reset_and_hazards.md section 4; the spec's
decision D22, log 25). -/
def Obligations.FinalStateIsFixed : Prop := ∀ s : State, IsFinal s → transact .step s = .next s

/-- The inspection accessors with bounds (60_exceptions.md section 5; the bounds are the spec's decision D18, log 20). -/
def Obligations.Accessors : Prop :=
  ∀ (s : State) (k addr len : Nat),
    (k < 16 → readV s k = .ok (getV s (BitVec.ofNat 4 k))) ∧ (16 ≤ k → readV s k = .error .outOfRange) ∧
    (k < s.params.stackDepth → readStack s k = .ok (s.stack.getD k 0)) ∧
    (s.params.stackDepth ≤ k → readStack s k = .error .outOfRange) ∧
    (addr + len ≤ s.params.memSize → readMem s addr len = .ok ((List.range len).map fun j => byteAt s (addr + j))) ∧
    (s.params.memSize < addr + len → readMem s addr len = .error .outOfRange)
end

