-- ==== Sys2Proof/Laws/Encoding.lean ====
section
/-!
SUPPORT. Fields of the layouts (30_encoding.md R91, R92): each field of a built opcode is the operand put there.
-/

namespace Sys2Proof

section Layouts

variable (c : Nibble) (x y : RegIdx) (n : Nibble) (nn : Byte) (nnn : Addr12)

theorem layoutXYN_eq : layoutXYN c x y n = layoutXNN c x (y ++ n) := by
  apply BitVec.eq_of_toNat_eq
  simp only [layoutXYN, layoutXNN, BitVec.toNat_append]
  have hn := n.isLt
  have hy := y.isLt
  have hx := x.isLt
  have hyn : y.toNat <<< 4 ||| n.toNat = y.toNat * 16 + n.toNat := by
    rw [Nat.shiftLeft_eq, Nat.mul_comm, ← Nat.two_pow_add_eq_or_of_lt hn, Nat.mul_comm]
  have h1 : (c.toNat <<< 4 ||| x.toNat) = c.toNat * 16 + x.toNat := by
    rw [Nat.shiftLeft_eq, Nat.mul_comm, ← Nat.two_pow_add_eq_or_of_lt hx, Nat.mul_comm]
  have h2 : ((c.toNat * 16 + x.toNat) <<< 4 ||| y.toNat) = (c.toNat * 16 + x.toNat) * 16 + y.toNat := by
    rw [Nat.shiftLeft_eq, Nat.mul_comm, ← Nat.two_pow_add_eq_or_of_lt hy, Nat.mul_comm]
  have h3 : (((c.toNat * 16 + x.toNat) * 16 + y.toNat) <<< 4 ||| n.toNat) =
      ((c.toNat * 16 + x.toNat) * 16 + y.toNat) * 16 + n.toNat := by
    rw [Nat.shiftLeft_eq, Nat.mul_comm, ← Nat.two_pow_add_eq_or_of_lt hn, Nat.mul_comm]
  have h4 : ((c.toNat * 16 + x.toNat) <<< 8 ||| (y.toNat * 16 + n.toNat)) =
      (c.toNat * 16 + x.toNat) * 256 + (y.toNat * 16 + n.toNat) := by
    rw [Nat.shiftLeft_eq, Nat.mul_comm, ← Nat.two_pow_add_eq_or_of_lt (show y.toNat * 16 + n.toNat < 2 ^ 8 by omega), Nat.mul_comm]
  rw [h1, h2, h3, hyn, h4]
  omega

/-- An opcode of layout F_XNN as a number. -/
theorem layoutXNN_toNat : (layoutXNN c x nn).toNat = c.toNat * 4096 + x.toNat * 256 + nn.toNat := by
  have hx := x.isLt
  have hn := nn.isLt
  simp only [layoutXNN, BitVec.toNat_append]
  rw [Nat.shiftLeft_eq c.toNat, Nat.mul_comm c.toNat, ← Nat.two_pow_add_eq_or_of_lt hx, Nat.shiftLeft_eq, Nat.mul_comm _ (2 ^ 8),
    ← Nat.two_pow_add_eq_or_of_lt hn]
  omega

/-- An opcode of layout F_NNN as a number. -/
theorem layoutNNN_toNat : (layoutNNN c nnn).toNat = c.toNat * 4096 + nnn.toNat := by
  have hn := nnn.isLt
  simp only [layoutNNN, BitVec.toNat_append]
  rw [Nat.shiftLeft_eq, Nat.mul_comm, ← Nat.two_pow_add_eq_or_of_lt hn, Nat.mul_comm]

/-- An opcode of layouts F_XY and F_XYN as a number. -/
theorem layoutXYN_toNat : (layoutXYN c x y n).toNat = c.toNat * 4096 + x.toNat * 256 + y.toNat * 16 + n.toNat := by
  have hn := n.isLt
  rw [layoutXYN_eq, layoutXNN_toNat, BitVec.toNat_append, Nat.shiftLeft_eq, Nat.mul_comm y.toNat,
    ← Nat.two_pow_add_eq_or_of_lt hn]
  omega

end Layouts

section Fields

variable (op : Word)

theorem fieldClass_toNat : (fieldClass op).toNat = op.toNat / 4096 := by
  have := op.isLt
  simp only [fieldClass, BitVec.extractLsb'_toNat, Nat.shiftRight_eq_div_pow]
  omega

theorem fieldX_toNat : (fieldX op).toNat = op.toNat / 256 % 16 := by
  simp only [fieldX, BitVec.extractLsb'_toNat, Nat.shiftRight_eq_div_pow]

theorem fieldY_toNat : (fieldY op).toNat = op.toNat / 16 % 16 := by
  simp only [fieldY, BitVec.extractLsb'_toNat, Nat.shiftRight_eq_div_pow]

theorem fieldN_toNat : (fieldN op).toNat = op.toNat % 16 := by
  simp only [fieldN, BitVec.extractLsb'_toNat, Nat.shiftRight_zero]

theorem fieldNN_toNat : (fieldNN op).toNat = op.toNat % 256 := by
  simp only [fieldNN, BitVec.extractLsb'_toNat, Nat.shiftRight_zero]

theorem fieldNNN_toNat : (fieldNNN op).toNat = op.toNat % 4096 := by
  simp only [fieldNNN, BitVec.extractLsb'_toNat, Nat.shiftRight_zero]

end Fields

section FieldsOfLayouts

variable (c : Nibble) (x y : RegIdx) (n : Nibble) (nn : Byte) (nnn : Addr12)

@[simp] theorem fieldClass_layoutNNN : fieldClass (layoutNNN c nnn) = c := by
  apply BitVec.eq_of_toNat_eq; rw [fieldClass_toNat, layoutNNN_toNat]; have := nnn.isLt; omega

@[simp] theorem fieldNNN_layoutNNN : fieldNNN (layoutNNN c nnn) = nnn := by
  apply BitVec.eq_of_toNat_eq; rw [fieldNNN_toNat, layoutNNN_toNat]; have := nnn.isLt; omega

@[simp] theorem fieldClass_layoutXNN : fieldClass (layoutXNN c x nn) = c := by
  apply BitVec.eq_of_toNat_eq; rw [fieldClass_toNat, layoutXNN_toNat]; have := nn.isLt; have := x.isLt; omega

@[simp] theorem fieldX_layoutXNN : fieldX (layoutXNN c x nn) = x := by
  apply BitVec.eq_of_toNat_eq; rw [fieldX_toNat, layoutXNN_toNat]; have := nn.isLt; have := x.isLt; omega

@[simp] theorem fieldNN_layoutXNN : fieldNN (layoutXNN c x nn) = nn := by
  apply BitVec.eq_of_toNat_eq; rw [fieldNN_toNat, layoutXNN_toNat]; have := nn.isLt; omega

@[simp] theorem fieldClass_layoutXYN : fieldClass (layoutXYN c x y n) = c := by
  rw [layoutXYN_eq, fieldClass_layoutXNN]

@[simp] theorem fieldX_layoutXYN : fieldX (layoutXYN c x y n) = x := by
  rw [layoutXYN_eq, fieldX_layoutXNN]

@[simp] theorem fieldY_layoutXYN : fieldY (layoutXYN c x y n) = y := by
  apply BitVec.eq_of_toNat_eq; rw [fieldY_toNat, layoutXYN_toNat]; have := y.isLt; have := n.isLt; omega

@[simp] theorem fieldN_layoutXYN : fieldN (layoutXYN c x y n) = n := by
  apply BitVec.eq_of_toNat_eq; rw [fieldN_toNat, layoutXYN_toNat]; have := n.isLt; omega

end FieldsOfLayouts

section Masks

variable (c : Nibble) (x y : RegIdx) (n : Nibble) (nn : Byte) (nnn : Addr12)

theorem and_ones4 (c : BitVec 4) : c &&& 0xF#4 = c := BitVec.and_allOnes (x := c)

theorem and_ones8 (b : BitVec 8) : b &&& 0xFF#8 = b := BitVec.and_allOnes (x := b)

theorem layoutNNN_masked : layoutNNN c nnn &&& 0xF000#16 = layoutNNN c 0 :=
  (BitVec.and_append (x₁ := c) (x₂ := 0xF#4) (y₁ := nnn) (y₂ := 0#12)).trans (by rw [and_ones4, BitVec.and_zero]; rfl)

theorem layoutXNN_masked : layoutXNN c x nn &&& 0xF000#16 = layoutXNN c 0 0 :=
  (BitVec.and_append (x₁ := c ++ x) (x₂ := 0xF#4 ++ 0#4) (y₁ := nn) (y₂ := 0#8)).trans
    (by rw [BitVec.and_append, and_ones4, BitVec.and_zero, BitVec.and_zero]; rfl)

theorem layoutXNN_masked_byte : layoutXNN c x nn &&& 0xF0FF#16 = layoutXNN c 0 nn :=
  (BitVec.and_append (x₁ := c ++ x) (x₂ := 0xF#4 ++ 0#4) (y₁ := nn) (y₂ := 0xFF#8)).trans
    (by rw [BitVec.and_append, and_ones4, BitVec.and_zero, and_ones8]; rfl)

theorem layoutXYN_masked : layoutXYN c x y n &&& 0xF000#16 = layoutXYN c 0 0 0 := by
  rw [layoutXYN_eq, layoutXNN_masked, layoutXYN_eq]
  rfl

theorem layoutXYN_masked_nibble : layoutXYN c x y n &&& 0xF00F#16 = layoutXYN c 0 0 n :=
  (BitVec.and_append (x₁ := c ++ x ++ y) (x₂ := 0xF#4 ++ 0#4 ++ 0#4) (y₁ := n) (y₂ := 0xF#4)).trans
    (by rw [BitVec.and_append, BitVec.and_append, and_ones4, BitVec.and_zero, BitVec.and_zero, and_ones4]; rfl)

end Masks

end Sys2Proof
end

