-- ==== Sys2Proof/Laws/State.lean ====
section
/-!
SUPPORT. The small lemmas of the state's accessors: one per field per update, true by rfl.
-/

namespace Sys2Proof

/-- The constraints of the parameters, one by one. -/
theorem Params.wf_iff (c : Params) : c.wf = true ↔
    c.fontBase + c.fontGlyphs * c.glyphBytes ≤ c.memSize ∧ c.programStart < c.memSize ∧ c.memSize ≤ 0xF000 ∧
      c.fontTable.length = c.fontGlyphs * c.glyphBytes ∧ 16 ≤ c.fontGlyphs ∧ c.stackDepth ≤ 255 ∧ 8 < c.displayW ∧
      15 < c.displayH := by
  simp [Params.wf, and_assoc]

theorem Params.memSize_le {c : Params} (h : c.wf = true) : c.memSize ≤ 0xF000 := ((Params.wf_iff c).mp h).2.2.1

theorem Params.stackDepth_le {c : Params} (h : c.wf = true) : c.stackDepth ≤ 255 := ((Params.wf_iff c).mp h).2.2.2.2.2.1

theorem Params.displayW_gt {c : Params} (h : c.wf = true) : 8 < c.displayW := ((Params.wf_iff c).mp h).2.2.2.2.2.2.1

theorem Params.displayH_gt {c : Params} (h : c.wf = true) : 15 < c.displayH := ((Params.wf_iff c).mp h).2.2.2.2.2.2.2

namespace Machine

/-- Reading a register after a register write. -/
@[simp] theorem getV_setV (s : State) (x r : RegIdx) (b : Byte) : getV (setV s x b) r = if r = x then b else getV s r := by
  unfold getV setV
  simp only [Vector.getElem_set, BitVec.toNat_inj, eq_comm]

section setV

variable (s : State) (x : RegIdx) (b : Byte)

@[simp] theorem setV_i : (setV s x b).i = s.i := rfl
@[simp] theorem setV_pc : (setV s x b).pc = s.pc := rfl
@[simp] theorem setV_sp : (setV s x b).sp = s.sp := rfl
@[simp] theorem setV_stack : (setV s x b).stack = s.stack := rfl
@[simp] theorem setV_dt : (setV s x b).dt = s.dt := rfl
@[simp] theorem setV_st : (setV s x b).st = s.st := rfl
@[simp] theorem setV_mode : (setV s x b).mode = s.mode := rfl
@[simp] theorem setV_mem : (setV s x b).mem = s.mem := rfl
@[simp] theorem setV_pix : (setV s x b).pix = s.pix := rfl
@[simp] theorem setV_keys : (setV s x b).keys = s.keys := rfl
@[simp] theorem setV_tone : (setV s x b).tone = s.tone := rfl
@[simp] theorem setV_fault : (setV s x b).fault = s.fault := rfl
@[simp] theorem setV_params : (setV s x b).params = s.params := rfl
@[simp] theorem setV_draws : (setV s x b).draws = s.draws := rfl
@[simp] theorem setV_inbox : (setV s x b).inbox = s.inbox := rfl
@[simp] theorem setV_plan : (setV s x b).plan = s.plan := rfl
@[simp] theorem byteAt_setV (a : Nat) : byteAt (setV s x b) a = byteAt s a := rfl

end setV

section setRegs

variable (s : State) (u : Vector Byte 16)

@[simp] theorem setRegs_v : (setRegs u s).v = u := rfl
@[simp] theorem setRegs_i : (setRegs u s).i = s.i := rfl
@[simp] theorem setRegs_pc : (setRegs u s).pc = s.pc := rfl
@[simp] theorem setRegs_sp : (setRegs u s).sp = s.sp := rfl
@[simp] theorem setRegs_stack : (setRegs u s).stack = s.stack := rfl
@[simp] theorem setRegs_dt : (setRegs u s).dt = s.dt := rfl
@[simp] theorem setRegs_st : (setRegs u s).st = s.st := rfl
@[simp] theorem setRegs_mode : (setRegs u s).mode = s.mode := rfl
@[simp] theorem setRegs_mem : (setRegs u s).mem = s.mem := rfl
@[simp] theorem setRegs_pix : (setRegs u s).pix = s.pix := rfl
@[simp] theorem setRegs_keys : (setRegs u s).keys = s.keys := rfl
@[simp] theorem setRegs_tone : (setRegs u s).tone = s.tone := rfl
@[simp] theorem setRegs_fault : (setRegs u s).fault = s.fault := rfl
@[simp] theorem setRegs_params : (setRegs u s).params = s.params := rfl
@[simp] theorem setRegs_draws : (setRegs u s).draws = s.draws := rfl
@[simp] theorem setRegs_inbox : (setRegs u s).inbox = s.inbox := rfl
@[simp] theorem setRegs_plan : (setRegs u s).plan = s.plan := rfl
@[simp] theorem byteAt_setRegs (a : Nat) : byteAt (setRegs u s) a = byteAt s a := rfl

/-- A register write is a replacement of the register file. -/
theorem setV_eq_setRegs (x : RegIdx) (b : Byte) : setV s x b = setRegs (s.v.set x.toNat b x.isLt) s := rfl

end setRegs

section Replacing

variable (s : State)

@[simp] theorem setMem_setMem (m n : Memory) : setMem m (setMem n s) = setMem m s := rfl
@[simp] theorem setMem_mem_self : setMem s.mem s = s := rfl
@[simp] theorem setI_setI (u w : Word) : setI u (setI w s) = setI u s := rfl
@[simp] theorem setI_i_self : setI s.i s = s := rfl
@[simp] theorem setMem_setByte (m : Memory) (a : Nat) (b : Byte) : setMem m (setByte a b s) = setMem m s := rfl
@[simp] theorem setMem_setI (m : Memory) (w : Word) : setMem m (setI w s) = setI w (setMem m s) := rfl
@[simp] theorem setRegs_setRegs (u v : Vector Byte 16) : setRegs u (setRegs v s) = setRegs u s := rfl
@[simp] theorem setRegs_v_self : setRegs s.v s = s := rfl
@[simp] theorem setRegs_setI (v : Vector Byte 16) (w : Word) : setRegs v (setI w s) = setI w (setRegs v s) := rfl
@[simp] theorem setRegs_setV (v : Vector Byte 16) (x : RegIdx) (b : Byte) : setRegs v (setV s x b) = setRegs v s := rfl
@[simp] theorem setPix_setPix (p q : Pix) : setPix p (setPix q s) = setPix p s := rfl
@[simp] theorem setPix_pix_self : setPix s.pix s = s := rfl

end Replacing

section setI

variable (s : State) (u : Word)

@[simp] theorem setI_v : (setI u s).v = s.v := rfl
@[simp] theorem setI_i : (setI u s).i = u := rfl
@[simp] theorem setI_pc : (setI u s).pc = s.pc := rfl
@[simp] theorem setI_sp : (setI u s).sp = s.sp := rfl
@[simp] theorem setI_stack : (setI u s).stack = s.stack := rfl
@[simp] theorem setI_dt : (setI u s).dt = s.dt := rfl
@[simp] theorem setI_st : (setI u s).st = s.st := rfl
@[simp] theorem setI_mode : (setI u s).mode = s.mode := rfl
@[simp] theorem setI_mem : (setI u s).mem = s.mem := rfl
@[simp] theorem setI_pix : (setI u s).pix = s.pix := rfl
@[simp] theorem setI_keys : (setI u s).keys = s.keys := rfl
@[simp] theorem setI_tone : (setI u s).tone = s.tone := rfl
@[simp] theorem setI_fault : (setI u s).fault = s.fault := rfl
@[simp] theorem setI_params : (setI u s).params = s.params := rfl
@[simp] theorem setI_draws : (setI u s).draws = s.draws := rfl
@[simp] theorem setI_inbox : (setI u s).inbox = s.inbox := rfl
@[simp] theorem setI_plan : (setI u s).plan = s.plan := rfl
@[simp] theorem byteAt_setI (a : Nat) : byteAt (setI u s) a = byteAt s a := rfl
@[simp] theorem getV_setI (r : RegIdx) : getV (setI u s) r = getV s r := rfl

end setI

section jumpTo

variable (s : State) (u : Word)

@[simp] theorem jumpTo_v : (jumpTo u s).v = s.v := rfl
@[simp] theorem jumpTo_i : (jumpTo u s).i = s.i := rfl
@[simp] theorem jumpTo_pc : (jumpTo u s).pc = u := rfl
@[simp] theorem jumpTo_sp : (jumpTo u s).sp = s.sp := rfl
@[simp] theorem jumpTo_stack : (jumpTo u s).stack = s.stack := rfl
@[simp] theorem jumpTo_dt : (jumpTo u s).dt = s.dt := rfl
@[simp] theorem jumpTo_st : (jumpTo u s).st = s.st := rfl
@[simp] theorem jumpTo_mode : (jumpTo u s).mode = s.mode := rfl
@[simp] theorem jumpTo_mem : (jumpTo u s).mem = s.mem := rfl
@[simp] theorem jumpTo_pix : (jumpTo u s).pix = s.pix := rfl
@[simp] theorem jumpTo_keys : (jumpTo u s).keys = s.keys := rfl
@[simp] theorem jumpTo_tone : (jumpTo u s).tone = s.tone := rfl
@[simp] theorem jumpTo_fault : (jumpTo u s).fault = s.fault := rfl
@[simp] theorem jumpTo_params : (jumpTo u s).params = s.params := rfl
@[simp] theorem jumpTo_draws : (jumpTo u s).draws = s.draws := rfl
@[simp] theorem jumpTo_inbox : (jumpTo u s).inbox = s.inbox := rfl
@[simp] theorem jumpTo_plan : (jumpTo u s).plan = s.plan := rfl
@[simp] theorem byteAt_jumpTo (a : Nat) : byteAt (jumpTo u s) a = byteAt s a := rfl
@[simp] theorem getV_jumpTo (r : RegIdx) : getV (jumpTo u s) r = getV s r := rfl

end jumpTo

section setSp

variable (s : State) (u : Byte)

@[simp] theorem setSp_v : (setSp u s).v = s.v := rfl
@[simp] theorem setSp_i : (setSp u s).i = s.i := rfl
@[simp] theorem setSp_pc : (setSp u s).pc = s.pc := rfl
@[simp] theorem setSp_sp : (setSp u s).sp = u := rfl
@[simp] theorem setSp_stack : (setSp u s).stack = s.stack := rfl
@[simp] theorem setSp_dt : (setSp u s).dt = s.dt := rfl
@[simp] theorem setSp_st : (setSp u s).st = s.st := rfl
@[simp] theorem setSp_mode : (setSp u s).mode = s.mode := rfl
@[simp] theorem setSp_mem : (setSp u s).mem = s.mem := rfl
@[simp] theorem setSp_pix : (setSp u s).pix = s.pix := rfl
@[simp] theorem setSp_keys : (setSp u s).keys = s.keys := rfl
@[simp] theorem setSp_tone : (setSp u s).tone = s.tone := rfl
@[simp] theorem setSp_fault : (setSp u s).fault = s.fault := rfl
@[simp] theorem setSp_params : (setSp u s).params = s.params := rfl
@[simp] theorem setSp_draws : (setSp u s).draws = s.draws := rfl
@[simp] theorem setSp_inbox : (setSp u s).inbox = s.inbox := rfl
@[simp] theorem setSp_plan : (setSp u s).plan = s.plan := rfl
@[simp] theorem byteAt_setSp (a : Nat) : byteAt (setSp u s) a = byteAt s a := rfl
@[simp] theorem getV_setSp (r : RegIdx) : getV (setSp u s) r = getV s r := rfl

end setSp

section setStack

variable (s : State) (u : List Word)

@[simp] theorem setStack_v : (setStack u s).v = s.v := rfl
@[simp] theorem setStack_i : (setStack u s).i = s.i := rfl
@[simp] theorem setStack_pc : (setStack u s).pc = s.pc := rfl
@[simp] theorem setStack_sp : (setStack u s).sp = s.sp := rfl
@[simp] theorem setStack_stack : (setStack u s).stack = u := rfl
@[simp] theorem setStack_dt : (setStack u s).dt = s.dt := rfl
@[simp] theorem setStack_st : (setStack u s).st = s.st := rfl
@[simp] theorem setStack_mode : (setStack u s).mode = s.mode := rfl
@[simp] theorem setStack_mem : (setStack u s).mem = s.mem := rfl
@[simp] theorem setStack_pix : (setStack u s).pix = s.pix := rfl
@[simp] theorem setStack_keys : (setStack u s).keys = s.keys := rfl
@[simp] theorem setStack_tone : (setStack u s).tone = s.tone := rfl
@[simp] theorem setStack_fault : (setStack u s).fault = s.fault := rfl
@[simp] theorem setStack_params : (setStack u s).params = s.params := rfl
@[simp] theorem setStack_draws : (setStack u s).draws = s.draws := rfl
@[simp] theorem setStack_inbox : (setStack u s).inbox = s.inbox := rfl
@[simp] theorem setStack_plan : (setStack u s).plan = s.plan := rfl
@[simp] theorem byteAt_setStack (a : Nat) : byteAt (setStack u s) a = byteAt s a := rfl
@[simp] theorem getV_setStack (r : RegIdx) : getV (setStack u s) r = getV s r := rfl

end setStack

section setDt

variable (s : State) (u : Byte)

@[simp] theorem setDt_v : (setDt u s).v = s.v := rfl
@[simp] theorem setDt_i : (setDt u s).i = s.i := rfl
@[simp] theorem setDt_pc : (setDt u s).pc = s.pc := rfl
@[simp] theorem setDt_sp : (setDt u s).sp = s.sp := rfl
@[simp] theorem setDt_stack : (setDt u s).stack = s.stack := rfl
@[simp] theorem setDt_dt : (setDt u s).dt = u := rfl
@[simp] theorem setDt_st : (setDt u s).st = s.st := rfl
@[simp] theorem setDt_mode : (setDt u s).mode = s.mode := rfl
@[simp] theorem setDt_mem : (setDt u s).mem = s.mem := rfl
@[simp] theorem setDt_pix : (setDt u s).pix = s.pix := rfl
@[simp] theorem setDt_keys : (setDt u s).keys = s.keys := rfl
@[simp] theorem setDt_tone : (setDt u s).tone = s.tone := rfl
@[simp] theorem setDt_fault : (setDt u s).fault = s.fault := rfl
@[simp] theorem setDt_params : (setDt u s).params = s.params := rfl
@[simp] theorem setDt_draws : (setDt u s).draws = s.draws := rfl
@[simp] theorem setDt_inbox : (setDt u s).inbox = s.inbox := rfl
@[simp] theorem setDt_plan : (setDt u s).plan = s.plan := rfl
@[simp] theorem byteAt_setDt (a : Nat) : byteAt (setDt u s) a = byteAt s a := rfl
@[simp] theorem getV_setDt (r : RegIdx) : getV (setDt u s) r = getV s r := rfl

end setDt

section setSt

variable (s : State) (u : Byte)

@[simp] theorem setSt_v : (setSt u s).v = s.v := rfl
@[simp] theorem setSt_i : (setSt u s).i = s.i := rfl
@[simp] theorem setSt_pc : (setSt u s).pc = s.pc := rfl
@[simp] theorem setSt_sp : (setSt u s).sp = s.sp := rfl
@[simp] theorem setSt_stack : (setSt u s).stack = s.stack := rfl
@[simp] theorem setSt_dt : (setSt u s).dt = s.dt := rfl
@[simp] theorem setSt_st : (setSt u s).st = u := rfl
@[simp] theorem setSt_mode : (setSt u s).mode = s.mode := rfl
@[simp] theorem setSt_mem : (setSt u s).mem = s.mem := rfl
@[simp] theorem setSt_pix : (setSt u s).pix = s.pix := rfl
@[simp] theorem setSt_keys : (setSt u s).keys = s.keys := rfl
@[simp] theorem setSt_tone : (setSt u s).tone = s.tone := rfl
@[simp] theorem setSt_fault : (setSt u s).fault = s.fault := rfl
@[simp] theorem setSt_params : (setSt u s).params = s.params := rfl
@[simp] theorem setSt_draws : (setSt u s).draws = s.draws := rfl
@[simp] theorem setSt_inbox : (setSt u s).inbox = s.inbox := rfl
@[simp] theorem setSt_plan : (setSt u s).plan = s.plan := rfl
@[simp] theorem byteAt_setSt (a : Nat) : byteAt (setSt u s) a = byteAt s a := rfl
@[simp] theorem getV_setSt (r : RegIdx) : getV (setSt u s) r = getV s r := rfl

end setSt

section setMode

variable (s : State) (u : Mode)

@[simp] theorem setMode_v : (setMode u s).v = s.v := rfl
@[simp] theorem setMode_i : (setMode u s).i = s.i := rfl
@[simp] theorem setMode_pc : (setMode u s).pc = s.pc := rfl
@[simp] theorem setMode_sp : (setMode u s).sp = s.sp := rfl
@[simp] theorem setMode_stack : (setMode u s).stack = s.stack := rfl
@[simp] theorem setMode_dt : (setMode u s).dt = s.dt := rfl
@[simp] theorem setMode_st : (setMode u s).st = s.st := rfl
@[simp] theorem setMode_mode : (setMode u s).mode = u := rfl
@[simp] theorem setMode_mem : (setMode u s).mem = s.mem := rfl
@[simp] theorem setMode_pix : (setMode u s).pix = s.pix := rfl
@[simp] theorem setMode_keys : (setMode u s).keys = s.keys := rfl
@[simp] theorem setMode_tone : (setMode u s).tone = s.tone := rfl
@[simp] theorem setMode_fault : (setMode u s).fault = s.fault := rfl
@[simp] theorem setMode_params : (setMode u s).params = s.params := rfl
@[simp] theorem setMode_draws : (setMode u s).draws = s.draws := rfl
@[simp] theorem setMode_inbox : (setMode u s).inbox = s.inbox := rfl
@[simp] theorem setMode_plan : (setMode u s).plan = s.plan := rfl
@[simp] theorem byteAt_setMode (a : Nat) : byteAt (setMode u s) a = byteAt s a := rfl
@[simp] theorem getV_setMode (r : RegIdx) : getV (setMode u s) r = getV s r := rfl

end setMode

section setMem

variable (s : State) (u : Memory)

@[simp] theorem setMem_v : (setMem u s).v = s.v := rfl
@[simp] theorem setMem_i : (setMem u s).i = s.i := rfl
@[simp] theorem setMem_pc : (setMem u s).pc = s.pc := rfl
@[simp] theorem setMem_sp : (setMem u s).sp = s.sp := rfl
@[simp] theorem setMem_stack : (setMem u s).stack = s.stack := rfl
@[simp] theorem setMem_dt : (setMem u s).dt = s.dt := rfl
@[simp] theorem setMem_st : (setMem u s).st = s.st := rfl
@[simp] theorem setMem_mode : (setMem u s).mode = s.mode := rfl
@[simp] theorem setMem_mem : (setMem u s).mem = u := rfl
@[simp] theorem setMem_pix : (setMem u s).pix = s.pix := rfl
@[simp] theorem setMem_keys : (setMem u s).keys = s.keys := rfl
@[simp] theorem setMem_tone : (setMem u s).tone = s.tone := rfl
@[simp] theorem setMem_fault : (setMem u s).fault = s.fault := rfl
@[simp] theorem setMem_params : (setMem u s).params = s.params := rfl
@[simp] theorem setMem_draws : (setMem u s).draws = s.draws := rfl
@[simp] theorem setMem_inbox : (setMem u s).inbox = s.inbox := rfl
@[simp] theorem setMem_plan : (setMem u s).plan = s.plan := rfl
@[simp] theorem byteAt_setMem (a : Nat) : byteAt (setMem u s) a = readCell s.params u a := rfl
@[simp] theorem getV_setMem (r : RegIdx) : getV (setMem u s) r = getV s r := rfl

end setMem

section setPix

variable (s : State) (u : Pix)

@[simp] theorem setPix_v : (setPix u s).v = s.v := rfl
@[simp] theorem setPix_i : (setPix u s).i = s.i := rfl
@[simp] theorem setPix_pc : (setPix u s).pc = s.pc := rfl
@[simp] theorem setPix_sp : (setPix u s).sp = s.sp := rfl
@[simp] theorem setPix_stack : (setPix u s).stack = s.stack := rfl
@[simp] theorem setPix_dt : (setPix u s).dt = s.dt := rfl
@[simp] theorem setPix_st : (setPix u s).st = s.st := rfl
@[simp] theorem setPix_mode : (setPix u s).mode = s.mode := rfl
@[simp] theorem setPix_mem : (setPix u s).mem = s.mem := rfl
@[simp] theorem setPix_pix : (setPix u s).pix = u := rfl
@[simp] theorem setPix_keys : (setPix u s).keys = s.keys := rfl
@[simp] theorem setPix_tone : (setPix u s).tone = s.tone := rfl
@[simp] theorem setPix_fault : (setPix u s).fault = s.fault := rfl
@[simp] theorem setPix_params : (setPix u s).params = s.params := rfl
@[simp] theorem setPix_draws : (setPix u s).draws = s.draws := rfl
@[simp] theorem setPix_inbox : (setPix u s).inbox = s.inbox := rfl
@[simp] theorem setPix_plan : (setPix u s).plan = s.plan := rfl
@[simp] theorem byteAt_setPix (a : Nat) : byteAt (setPix u s) a = byteAt s a := rfl
@[simp] theorem getV_setPix (r : RegIdx) : getV (setPix u s) r = getV s r := rfl

end setPix

section setKeys

variable (s : State) (u : Vector Bool 16)

@[simp] theorem setKeys_v : (setKeys u s).v = s.v := rfl
@[simp] theorem setKeys_i : (setKeys u s).i = s.i := rfl
@[simp] theorem setKeys_pc : (setKeys u s).pc = s.pc := rfl
@[simp] theorem setKeys_sp : (setKeys u s).sp = s.sp := rfl
@[simp] theorem setKeys_stack : (setKeys u s).stack = s.stack := rfl
@[simp] theorem setKeys_dt : (setKeys u s).dt = s.dt := rfl
@[simp] theorem setKeys_st : (setKeys u s).st = s.st := rfl
@[simp] theorem setKeys_mode : (setKeys u s).mode = s.mode := rfl
@[simp] theorem setKeys_mem : (setKeys u s).mem = s.mem := rfl
@[simp] theorem setKeys_pix : (setKeys u s).pix = s.pix := rfl
@[simp] theorem setKeys_keys : (setKeys u s).keys = u := rfl
@[simp] theorem setKeys_tone : (setKeys u s).tone = s.tone := rfl
@[simp] theorem setKeys_fault : (setKeys u s).fault = s.fault := rfl
@[simp] theorem setKeys_params : (setKeys u s).params = s.params := rfl
@[simp] theorem setKeys_draws : (setKeys u s).draws = s.draws := rfl
@[simp] theorem setKeys_inbox : (setKeys u s).inbox = s.inbox := rfl
@[simp] theorem setKeys_plan : (setKeys u s).plan = s.plan := rfl
@[simp] theorem byteAt_setKeys (a : Nat) : byteAt (setKeys u s) a = byteAt s a := rfl
@[simp] theorem getV_setKeys (r : RegIdx) : getV (setKeys u s) r = getV s r := rfl

end setKeys

section setTone

variable (s : State) (u : Bool)

@[simp] theorem setTone_v : (setTone u s).v = s.v := rfl
@[simp] theorem setTone_i : (setTone u s).i = s.i := rfl
@[simp] theorem setTone_pc : (setTone u s).pc = s.pc := rfl
@[simp] theorem setTone_sp : (setTone u s).sp = s.sp := rfl
@[simp] theorem setTone_stack : (setTone u s).stack = s.stack := rfl
@[simp] theorem setTone_dt : (setTone u s).dt = s.dt := rfl
@[simp] theorem setTone_st : (setTone u s).st = s.st := rfl
@[simp] theorem setTone_mode : (setTone u s).mode = s.mode := rfl
@[simp] theorem setTone_mem : (setTone u s).mem = s.mem := rfl
@[simp] theorem setTone_pix : (setTone u s).pix = s.pix := rfl
@[simp] theorem setTone_keys : (setTone u s).keys = s.keys := rfl
@[simp] theorem setTone_tone : (setTone u s).tone = u := rfl
@[simp] theorem setTone_fault : (setTone u s).fault = s.fault := rfl
@[simp] theorem setTone_params : (setTone u s).params = s.params := rfl
@[simp] theorem setTone_draws : (setTone u s).draws = s.draws := rfl
@[simp] theorem setTone_inbox : (setTone u s).inbox = s.inbox := rfl
@[simp] theorem setTone_plan : (setTone u s).plan = s.plan := rfl
@[simp] theorem byteAt_setTone (a : Nat) : byteAt (setTone u s) a = byteAt s a := rfl
@[simp] theorem getV_setTone (r : RegIdx) : getV (setTone u s) r = getV s r := rfl

end setTone

section setFault

variable (s : State) (u : Option StepError)

@[simp] theorem setFault_v : (setFault u s).v = s.v := rfl
@[simp] theorem setFault_i : (setFault u s).i = s.i := rfl
@[simp] theorem setFault_pc : (setFault u s).pc = s.pc := rfl
@[simp] theorem setFault_sp : (setFault u s).sp = s.sp := rfl
@[simp] theorem setFault_stack : (setFault u s).stack = s.stack := rfl
@[simp] theorem setFault_dt : (setFault u s).dt = s.dt := rfl
@[simp] theorem setFault_st : (setFault u s).st = s.st := rfl
@[simp] theorem setFault_mode : (setFault u s).mode = s.mode := rfl
@[simp] theorem setFault_mem : (setFault u s).mem = s.mem := rfl
@[simp] theorem setFault_pix : (setFault u s).pix = s.pix := rfl
@[simp] theorem setFault_keys : (setFault u s).keys = s.keys := rfl
@[simp] theorem setFault_tone : (setFault u s).tone = s.tone := rfl
@[simp] theorem setFault_fault : (setFault u s).fault = u := rfl
@[simp] theorem setFault_params : (setFault u s).params = s.params := rfl
@[simp] theorem setFault_draws : (setFault u s).draws = s.draws := rfl
@[simp] theorem setFault_inbox : (setFault u s).inbox = s.inbox := rfl
@[simp] theorem setFault_plan : (setFault u s).plan = s.plan := rfl
@[simp] theorem byteAt_setFault (a : Nat) : byteAt (setFault u s) a = byteAt s a := rfl
@[simp] theorem getV_setFault (r : RegIdx) : getV (setFault u s) r = getV s r := rfl

end setFault

section setDraws

variable (s : State) (u : Nat)

@[simp] theorem setDraws_v : (setDraws u s).v = s.v := rfl
@[simp] theorem setDraws_i : (setDraws u s).i = s.i := rfl
@[simp] theorem setDraws_pc : (setDraws u s).pc = s.pc := rfl
@[simp] theorem setDraws_sp : (setDraws u s).sp = s.sp := rfl
@[simp] theorem setDraws_stack : (setDraws u s).stack = s.stack := rfl
@[simp] theorem setDraws_dt : (setDraws u s).dt = s.dt := rfl
@[simp] theorem setDraws_st : (setDraws u s).st = s.st := rfl
@[simp] theorem setDraws_mode : (setDraws u s).mode = s.mode := rfl
@[simp] theorem setDraws_mem : (setDraws u s).mem = s.mem := rfl
@[simp] theorem setDraws_pix : (setDraws u s).pix = s.pix := rfl
@[simp] theorem setDraws_keys : (setDraws u s).keys = s.keys := rfl
@[simp] theorem setDraws_tone : (setDraws u s).tone = s.tone := rfl
@[simp] theorem setDraws_fault : (setDraws u s).fault = s.fault := rfl
@[simp] theorem setDraws_params : (setDraws u s).params = s.params := rfl
@[simp] theorem setDraws_draws : (setDraws u s).draws = u := rfl
@[simp] theorem setDraws_inbox : (setDraws u s).inbox = s.inbox := rfl
@[simp] theorem setDraws_plan : (setDraws u s).plan = s.plan := rfl
@[simp] theorem byteAt_setDraws (a : Nat) : byteAt (setDraws u s) a = byteAt s a := rfl
@[simp] theorem getV_setDraws (r : RegIdx) : getV (setDraws u s) r = getV s r := rfl

end setDraws

section setInbox

variable (s : State) (u : List Transaction)

@[simp] theorem setInbox_v : (setInbox u s).v = s.v := rfl
@[simp] theorem setInbox_i : (setInbox u s).i = s.i := rfl
@[simp] theorem setInbox_pc : (setInbox u s).pc = s.pc := rfl
@[simp] theorem setInbox_sp : (setInbox u s).sp = s.sp := rfl
@[simp] theorem setInbox_stack : (setInbox u s).stack = s.stack := rfl
@[simp] theorem setInbox_dt : (setInbox u s).dt = s.dt := rfl
@[simp] theorem setInbox_st : (setInbox u s).st = s.st := rfl
@[simp] theorem setInbox_mode : (setInbox u s).mode = s.mode := rfl
@[simp] theorem setInbox_mem : (setInbox u s).mem = s.mem := rfl
@[simp] theorem setInbox_pix : (setInbox u s).pix = s.pix := rfl
@[simp] theorem setInbox_keys : (setInbox u s).keys = s.keys := rfl
@[simp] theorem setInbox_tone : (setInbox u s).tone = s.tone := rfl
@[simp] theorem setInbox_fault : (setInbox u s).fault = s.fault := rfl
@[simp] theorem setInbox_params : (setInbox u s).params = s.params := rfl
@[simp] theorem setInbox_draws : (setInbox u s).draws = s.draws := rfl
@[simp] theorem setInbox_inbox : (setInbox u s).inbox = u := rfl
@[simp] theorem setInbox_plan : (setInbox u s).plan = s.plan := rfl
@[simp] theorem byteAt_setInbox (a : Nat) : byteAt (setInbox u s) a = byteAt s a := rfl
@[simp] theorem getV_setInbox (r : RegIdx) : getV (setInbox u s) r = getV s r := rfl

end setInbox

section setPlan

variable (s : State) (u : HostPlan)

@[simp] theorem setPlan_v : (setPlan u s).v = s.v := rfl
@[simp] theorem setPlan_i : (setPlan u s).i = s.i := rfl
@[simp] theorem setPlan_pc : (setPlan u s).pc = s.pc := rfl
@[simp] theorem setPlan_sp : (setPlan u s).sp = s.sp := rfl
@[simp] theorem setPlan_stack : (setPlan u s).stack = s.stack := rfl
@[simp] theorem setPlan_dt : (setPlan u s).dt = s.dt := rfl
@[simp] theorem setPlan_st : (setPlan u s).st = s.st := rfl
@[simp] theorem setPlan_mode : (setPlan u s).mode = s.mode := rfl
@[simp] theorem setPlan_mem : (setPlan u s).mem = s.mem := rfl
@[simp] theorem setPlan_pix : (setPlan u s).pix = s.pix := rfl
@[simp] theorem setPlan_keys : (setPlan u s).keys = s.keys := rfl
@[simp] theorem setPlan_tone : (setPlan u s).tone = s.tone := rfl
@[simp] theorem setPlan_fault : (setPlan u s).fault = s.fault := rfl
@[simp] theorem setPlan_params : (setPlan u s).params = s.params := rfl
@[simp] theorem setPlan_draws : (setPlan u s).draws = s.draws := rfl
@[simp] theorem setPlan_inbox : (setPlan u s).inbox = s.inbox := rfl
@[simp] theorem setPlan_plan : (setPlan u s).plan = u := rfl
@[simp] theorem byteAt_setPlan (a : Nat) : byteAt (setPlan u s) a = byteAt s a := rfl
@[simp] theorem getV_setPlan (r : RegIdx) : getV (setPlan u s) r = getV s r := rfl

end setPlan

section setByte

variable (s : State) (a : Nat) (b : Byte)

@[simp] theorem setByte_v : (setByte a b s).v = s.v := rfl
@[simp] theorem setByte_i : (setByte a b s).i = s.i := rfl
@[simp] theorem setByte_pc : (setByte a b s).pc = s.pc := rfl
@[simp] theorem setByte_sp : (setByte a b s).sp = s.sp := rfl
@[simp] theorem setByte_stack : (setByte a b s).stack = s.stack := rfl
@[simp] theorem setByte_dt : (setByte a b s).dt = s.dt := rfl
@[simp] theorem setByte_st : (setByte a b s).st = s.st := rfl
@[simp] theorem setByte_mode : (setByte a b s).mode = s.mode := rfl
@[simp] theorem setByte_pix : (setByte a b s).pix = s.pix := rfl
@[simp] theorem setByte_keys : (setByte a b s).keys = s.keys := rfl
@[simp] theorem setByte_tone : (setByte a b s).tone = s.tone := rfl
@[simp] theorem setByte_fault : (setByte a b s).fault = s.fault := rfl
@[simp] theorem setByte_params : (setByte a b s).params = s.params := rfl
@[simp] theorem setByte_draws : (setByte a b s).draws = s.draws := rfl
@[simp] theorem setByte_inbox : (setByte a b s).inbox = s.inbox := rfl
@[simp] theorem setByte_plan : (setByte a b s).plan = s.plan := rfl
@[simp] theorem setByte_mem : (setByte a b s).mem = writeCell s.params s.mem a b := rfl
@[simp] theorem getV_setByte (r : RegIdx) : getV (setByte a b s) r = getV s r := rfl

end setByte

section advance

variable (s : State)

@[simp] theorem advance_v : (advance s).v = s.v := rfl
@[simp] theorem advance_i : (advance s).i = s.i := rfl
@[simp] theorem advance_pc : (advance s).pc = s.pc + 2 := rfl
@[simp] theorem advance_sp : (advance s).sp = s.sp := rfl
@[simp] theorem advance_stack : (advance s).stack = s.stack := rfl
@[simp] theorem advance_dt : (advance s).dt = s.dt := rfl
@[simp] theorem advance_st : (advance s).st = s.st := rfl
@[simp] theorem advance_mode : (advance s).mode = s.mode := rfl
@[simp] theorem advance_mem : (advance s).mem = s.mem := rfl
@[simp] theorem advance_pix : (advance s).pix = s.pix := rfl
@[simp] theorem advance_keys : (advance s).keys = s.keys := rfl
@[simp] theorem advance_tone : (advance s).tone = s.tone := rfl
@[simp] theorem advance_fault : (advance s).fault = s.fault := rfl
@[simp] theorem advance_params : (advance s).params = s.params := rfl
@[simp] theorem advance_draws : (advance s).draws = s.draws := rfl
@[simp] theorem advance_inbox : (advance s).inbox = s.inbox := rfl
@[simp] theorem advance_plan : (advance s).plan = s.plan := rfl
@[simp] theorem byteAt_advance (a : Nat) : byteAt (advance s) a = byteAt s a := rfl
@[simp] theorem getV_advance (r : RegIdx) : getV (advance s) r = getV s r := rfl

end advance

/-- Two states that differ only in registers agree when every register reads the same. -/
theorem v_ext {s t : State} (h : ∀ r, getV s r = getV t r) : s.v = t.v := by
  apply Vector.ext
  intro k hk
  have := h (BitVec.ofNat 4 k)
  simpa [getV, Nat.mod_eq_of_lt hk] using this

/-- A skip changes nothing but PC. -/
theorem skipIf_eq (c : Bool) (s : State) : skipIf c s = jumpTo (if c then s.pc + 4 else s.pc + 2) s := by
  cases c
  · rfl
  · simp only [skipIf, advance, jumpTo, if_true, BitVec.add_assoc]
    rfl

/-- Taking an error leaves everything but the fault record. -/
theorem raise_eq (e : StepError) (s : State) : raise e s = .next (setFault (some e) s) := rfl

/-- A frame that leaves out more pieces says less. -/
theorem UnchangedExcept.mono {ps qs : List Part} {s t : State} (h : UnchangedExcept ps s t) (hs : ∀ p ∈ ps, p ∈ qs) :
    UnchangedExcept qs s t := fun p hp => h p fun hq => hp (hs p hq)

/-- Nothing changes from a state to itself. -/
theorem UnchangedExcept.refl (ps : List Part) (s : State) : UnchangedExcept ps s s := by
  intro p _
  cases p <;> simp [Unchanged]

/-- A frame holds when every piece it does not list is unchanged: the pieces one by one. -/
theorem unchangedExcept_iff (ps : List Part) (s t : State) :
    UnchangedExcept ps s t ↔
      (.v ∈ ps ∨ Unchanged .v s t) ∧ (.i ∈ ps ∨ Unchanged .i s t) ∧ (.pc ∈ ps ∨ Unchanged .pc s t) ∧
      (.sp ∈ ps ∨ Unchanged .sp s t) ∧ (.stack ∈ ps ∨ Unchanged .stack s t) ∧ (.dt ∈ ps ∨ Unchanged .dt s t) ∧
      (.st ∈ ps ∨ Unchanged .st s t) ∧ (.mode ∈ ps ∨ Unchanged .mode s t) ∧ (.mem ∈ ps ∨ Unchanged .mem s t) ∧
      (.pix ∈ ps ∨ Unchanged .pix s t) ∧ (.keys ∈ ps ∨ Unchanged .keys s t) ∧ (.tone ∈ ps ∨ Unchanged .tone s t) ∧
      (.fault ∈ ps ∨ Unchanged .fault s t) ∧ (.params ∈ ps ∨ Unchanged .params s t) ∧
      (.draws ∈ ps ∨ Unchanged .draws s t) ∧ (.inbox ∈ ps ∨ Unchanged .inbox s t) ∧ (.plan ∈ ps ∨ Unchanged .plan s t) := by
  constructor
  · intro h
    refine ⟨?_, ?_, ?_, ?_, ?_, ?_, ?_, ?_, ?_, ?_, ?_, ?_, ?_, ?_, ?_, ?_, ?_⟩ <;> exact Classical.or_iff_not_imp_left.mpr (h _)
  · intro h p hp
    cases p <;> simp_all

end Machine

end Sys2Proof
end

