-- ==== Sys2Proof/Laws/Memory.lean ====
section
/-!
SUPPORT. Memory: a read after a write, the canonical form kept by every operation, and that equal contents are equal lists.
-/

namespace Sys2Proof.Machine

variable {p : Params}

theorem readCell_eraseCell (m : Memory) (a b : Nat) :
    readCell p (eraseCell m a) b = if b = a then unlistedByte p a else readCell p m b := by
  induction m with
  | nil => simp only [eraseCell, readCell]; split <;> simp_all
  | cons c m ih =>
    obtain ⟨k, w⟩ := c
    simp only [eraseCell]
    split
    · simp only [ih, readCell]; split <;> simp_all
    · simp only [readCell, ih]
      by_cases hbk : b = k <;> by_cases hba : b = a <;> simp_all

theorem eraseCell_absent (m : Memory) (a : Nat) : ∀ c ∈ eraseCell m a, c.1 ≠ a := by
  induction m with
  | nil => simp [eraseCell]
  | cons c m ih =>
    obtain ⟨k, w⟩ := c
    simp only [eraseCell]
    split
    · exact ih
    · intro d hd
      rcases List.mem_cons.mp hd with rfl | hd
      · exact fun h => by simp_all
      · exact ih d hd

theorem readCell_insertCell (m : Memory) (a b : Nat) (v : Byte) (h : ∀ c ∈ m, c.1 ≠ a) :
    readCell p (insertCell m a v) b = if b = a then v else readCell p m b := by
  induction m with
  | nil => simp [insertCell, readCell]
  | cons c m ih =>
    obtain ⟨k, w⟩ := c
    have hk : k ≠ a := h (k, w) (by simp)
    have ih := ih fun c hc => h c (by simp [hc])
    simp only [insertCell]
    split
    · simp [readCell]
    · simp only [readCell, ih]
      split <;> split <;> simp_all

/-- A read after a write: the byte written at its address, what was there before everywhere else. -/
@[simp] theorem readCell_writeCell (m : Memory) (a b : Nat) (v : Byte) :
    readCell p (writeCell p m a v) b = if b = a then v else readCell p m b := by
  unfold writeCell
  split
  · subst v; simp [readCell_eraseCell]
  · rw [readCell_insertCell _ _ _ _ (eraseCell_absent m a), readCell_eraseCell]
    split <;> simp_all

theorem eraseCell_subset (m : Memory) (a : Nat) : ∀ c ∈ eraseCell m a, c ∈ m := by
  induction m with
  | nil => simp [eraseCell]
  | cons c m ih =>
    obtain ⟨k, w⟩ := c
    simp only [eraseCell]
    split
    · exact fun c hc => List.mem_cons_of_mem _ (ih c hc)
    · intro d hd
      rcases List.mem_cons.mp hd with rfl | hd
      · simp
      · exact List.mem_cons_of_mem _ (ih d hd)

theorem insertCell_mem (m : Memory) (a : Nat) (v : Byte) : ∀ c ∈ insertCell m a v, c = (a, v) ∨ c ∈ m := by
  induction m with
  | nil => simp [insertCell]
  | cons c m ih =>
    obtain ⟨k, w⟩ := c
    simp only [insertCell]
    split
    · simp
    · intro d hd
      rcases List.mem_cons.mp hd with rfl | hd
      · simp
      · rcases ih d hd with h | h <;> simp [h]

theorem wf_cons (a : Nat) (v : Byte) (m : Memory) :
    Memory.wf p ((a, v) :: m) = true ↔ v ≠ unlistedByte p a ∧ (∀ c ∈ m, a < c.1) ∧ Memory.wf p m = true := by
  simp [Memory.wf, and_assoc]

theorem wf_eraseCell (m : Memory) (a : Nat) (h : Memory.wf p m = true) : Memory.wf p (eraseCell m a) = true := by
  induction m with
  | nil => rfl
  | cons c m ih =>
    obtain ⟨k, w⟩ := c
    rw [wf_cons] at h
    simp only [eraseCell]
    split
    · exact ih h.2.2
    · rw [wf_cons]
      exact ⟨h.1, fun c hc => h.2.1 c (eraseCell_subset m a c hc), ih h.2.2⟩

theorem wf_insertCell (m : Memory) (a : Nat) (v : Byte) (h : Memory.wf p m = true) (hv : v ≠ unlistedByte p a)
    (ha : ∀ c ∈ m, c.1 ≠ a) : Memory.wf p (insertCell m a v) = true := by
  induction m with
  | nil => simp [insertCell, Memory.wf, hv]
  | cons c m ih =>
    obtain ⟨k, w⟩ := c
    have hk : k ≠ a := ha (k, w) (by simp)
    have h' := (wf_cons _ _ _).mp h
    simp only [insertCell]
    split
    · rename_i hlt
      rw [wf_cons]
      refine ⟨hv, fun c hc => ?_, h⟩
      rcases List.mem_cons.mp hc with rfl | hc
      · exact hlt
      · exact Nat.lt_trans hlt (h'.2.1 c hc)
    · rename_i hlt
      rw [wf_cons]
      refine ⟨h'.1, fun c hc => ?_, ih h'.2.2 fun c hc => ha c (by simp [hc])⟩
      rcases insertCell_mem m a v c hc with rfl | hc
      · show k < a
        omega
      · exact h'.2.1 c hc

/-- A write keeps the canonical form. -/
theorem wf_writeCell (m : Memory) (a : Nat) (v : Byte) (h : Memory.wf p m = true) : Memory.wf p (writeCell p m a v) = true := by
  unfold writeCell
  split
  · exact wf_eraseCell m a h
  · exact wf_insertCell _ a v (wf_eraseCell m a h) ‹_› (eraseCell_absent m a)

/-- A write at an address that exists keeps memory inside the address space. -/
theorem inRange_writeCell (m : Memory) (a : Nat) (v : Byte) (h : Memory.inRange p m = true) (ha : a < p.memSize) :
    Memory.inRange p (writeCell p m a v) = true := by
  unfold Memory.inRange at *
  rw [List.all_eq_true] at *
  intro c hc
  unfold writeCell at hc
  split at hc
  · exact h c (eraseCell_subset m a c hc)
  · rcases insertCell_mem _ a v c hc with rfl | hc
    · simpa using ha
    · exact h c (eraseCell_subset m a c hc)

/-- Memory that lists nothing is in canonical form. -/
theorem wf_nil : Memory.wf p [] = true := rfl

/-- Memory that lists nothing is inside the address space. -/
theorem inRange_nil : Memory.inRange p [] = true := rfl

theorem readCell_below (m : Memory) (a : Nat) (h : ∀ c ∈ m, a < c.1) : readCell p m a = unlistedByte p a := by
  induction m with
  | nil => rfl
  | cons c m ih =>
    obtain ⟨k, w⟩ := c
    have := h (k, w) (by simp)
    simp only [readCell]
    rw [if_neg (by simp at this; omega), ih fun c hc => h c (by simp [hc])]

/-- Equal contents are equal lists: two memories in canonical form that read the same everywhere are the same list. -/
theorem memory_ext (m n : Memory) (hm : Memory.wf p m = true) (hn : Memory.wf p n = true)
    (h : ∀ a, readCell p m a = readCell p n a) : m = n := by
  induction m generalizing n with
  | nil =>
    cases n with
    | nil => rfl
    | cons d n =>
      obtain ⟨l, u⟩ := d
      have := h l
      simp only [readCell, if_true] at this
      exact absurd this.symm ((wf_cons _ _ _).mp hn).1
  | cons c m ih =>
    obtain ⟨k, w⟩ := c
    have hm' := (wf_cons _ _ _).mp hm
    cases n with
    | nil =>
      have := h k
      simp only [readCell, if_true] at this
      exact absurd this hm'.1
    | cons d n =>
      obtain ⟨l, u⟩ := d
      have hn' := (wf_cons _ _ _).mp hn
      have hkl : k = l := by
        rcases Nat.lt_trichotomy k l with hlt | heq | hgt
        · have := h k
          rw [readCell_below ((l, u) :: n) k (by
            intro c hc
            rcases List.mem_cons.mp hc with rfl | hc
            · exact hlt
            · exact Nat.lt_trans hlt (hn'.2.1 c hc))] at this
          simp only [readCell, if_true] at this
          exact absurd this hm'.1
        · exact heq
        · have := h l
          rw [readCell_below ((k, w) :: m) l (by
            intro c hc
            rcases List.mem_cons.mp hc with rfl | hc
            · exact hgt
            · exact Nat.lt_trans hgt (hm'.2.1 c hc))] at this
          simp only [readCell, if_true] at this
          exact absurd this.symm hn'.1
      subst hkl
      have hw : w = u := by simpa [readCell] using h k
      subst hw
      rw [ih n hm'.2.2 hn'.2.2 fun a => ?_]
      have ha := h a
      simp only [readCell] at ha
      by_cases hak : a = k
      · subst hak
        rw [readCell_below m a hm'.2.1, readCell_below n a hn'.2.1]
      · simpa [hak] using ha

/-- Reading a byte after a byte write. -/
@[simp] theorem byteAt_setByte (s : State) (a b : Nat) (v : Byte) :
    byteAt (setByte a v s) b = if b = a then v else byteAt s b := readCell_writeCell ..

end Sys2Proof.Machine
end

