-- ==== Sys2Proof/Laws/Ops.lean ====
section
/-!
SUPPORT. One lemma per shared operation that says once everything it can do: sequencing, memory accesses, fetch, stack, and the
loops of FX33, FX55 and FX65.
-/

namespace Sys2Proof.Machine

section Sequencing

variable {α β : Type}

@[simp] theorem bind_done (a : α) (s : State) (k : α → State → Txn β) : (Txn.done a s).bind k = k a s := rfl
@[simp] theorem bind_raised (e : StepError) (s : State) (k : α → State → Txn β) : (Txn.raised e s).bind k = .raised e s := rfl
@[simp] theorem bind_stuck (f : Fault) (k : α → State → Txn β) : (Txn.stuck f).bind k = .stuck f := rfl
@[simp] theorem finish_done (a : α) (s : State) (k : α → State → State) : (Txn.done a s).finish k = .next (k a s) := rfl
@[simp] theorem finish_raised (e : StepError) (s : State) (k : α → State → State) :
    (Txn.raised e s).finish k = .next (setFault (some e) s) := rfl
@[simp] theorem finish_stuck (f : Fault) (k : α → State → State) : (Txn.stuck f : Txn α).finish k = .fault f := rfl

end Sequencing

theorem memRead_done {a : Nat} {s : State} (h : a < s.params.memSize) : memRead a s = .done (byteAt s a) s := if_pos h

theorem memRead_raised {a : Nat} {s : State} (h : s.params.memSize ≤ a) : memRead a s = .raised (.outOfRange (.mem a)) s :=
  if_neg (Nat.not_lt.mpr h)

theorem memWrite_done {a : Nat} {b : Byte} {s : State} (h : a < s.params.memSize) : memWrite a b s = .done () (setByte a b s) :=
  if_pos h

theorem memWrite_raised {a : Nat} {b : Byte} {s : State} (h : s.params.memSize ≤ a) :
    memWrite a b s = .raised (.outOfRange (.mem a)) s := if_neg (Nat.not_lt.mpr h)

/-- Everything a fetch can do (R63): the big-endian word, or the failure of its first or second byte; the state stays. -/
theorem fetch_cases (s : State) :
    (s.pc.toNat + 1 < s.params.memSize ∧
      fetch s = .done (wordOfBytes (byteAt s s.pc.toNat) (byteAt s (s.pc.toNat + 1))) s) ∨
    (s.pc.toNat + 1 = s.params.memSize ∧ fetch s = .raised (.outOfRange (.mem s.params.memSize)) s) ∨
    (s.params.memSize ≤ s.pc.toNat ∧ fetch s = .raised (.outOfRange (.mem s.pc.toNat)) s) := by
  rcases Nat.lt_trichotomy (s.pc.toNat + 1) s.params.memSize with h | h | h
  · exact .inl ⟨h, by simp [fetch, memRead_done (Nat.lt_of_succ_lt h), memRead_done h]⟩
  · refine .inr (.inl ⟨h, ?_⟩)
    simp [fetch, memRead_done (show s.pc.toNat < s.params.memSize by omega), h, memRead_raised (Nat.le_refl s.params.memSize)]
  · exact .inr (.inr ⟨Nat.le_of_lt_succ h, by simp [fetch, memRead_raised (Nat.le_of_lt_succ h)]⟩)

/-- Everything a push can do (R29, R133). -/
theorem push_cases (w : Word) (s : State) :
    (s.sp.toNat = s.params.stackDepth ∧ push w s = .raised (.outOfRange .stackOverflow) s) ∨
    (s.sp.toNat ≠ s.params.stackDepth ∧ hasSlot s s.sp.toNat ∧
      push w s = .done () (setSp (s.sp + 1) (setStack (s.stack.set s.sp.toNat w) s))) ∨
    (s.sp.toNat ≠ s.params.stackDepth ∧ ¬hasSlot s s.sp.toNat ∧ push w s = .stuck (.illegalStackPointer s.sp)) := by
  unfold push
  by_cases h0 : s.sp.toNat = s.params.stackDepth
  · exact .inl ⟨h0, if_pos h0⟩
  · by_cases h : hasSlot s s.sp.toNat
    · exact .inr (.inl ⟨h0, h, by rw [if_neg h0, if_pos h]⟩)
    · exact .inr (.inr ⟨h0, h, by rw [if_neg h0, if_neg h]⟩)

/-- Everything a pop can do (R29, R131). -/
theorem pop_cases (s : State) :
    (s.sp = 0 ∧ pop s = .raised (.outOfRange .stackUnderflow) s) ∨
    (s.sp ≠ 0 ∧ hasSlot s (s.sp - 1).toNat ∧ pop s = .done (s.stack.getD (s.sp - 1).toNat 0) (setSp (s.sp - 1) s)) ∨
    (s.sp ≠ 0 ∧ ¬hasSlot s (s.sp - 1).toNat ∧ pop s = .stuck (.illegalStackPointer s.sp)) := by
  unfold pop
  by_cases h0 : s.sp = 0
  · exact .inl ⟨h0, if_pos h0⟩
  · by_cases h : hasSlot s (s.sp - 1).toNat
    · exact .inr (.inl ⟨h0, h, by rw [if_neg h0, if_pos h]⟩)
    · exact .inr (.inr ⟨h0, h, by rw [if_neg h0, if_neg h]⟩)

/-- SP - 1 as a number. -/
theorem sp_pred_toNat {b : Byte} (h : b ≠ 0) : (b - 1).toNat = b.toNat - 1 := by
  have : b.toNat ≠ 0 := fun h0 => h (BitVec.eq_of_toNat_eq (by simpa using h0))
  have := b.isLt
  rw [BitVec.toNat_sub]
  simp
  omega

/-- What the byte stores of a run leave in memory: byte `b - a` of the run at address `b`, for the first `n` of them. -/
def CellsWritten (s : State) (m' : Memory) (a n : Nat) (byte : Nat → Byte) : Prop :=
  (∀ b, readCell s.params m' b = if a ≤ b ∧ b < a + n then byte (b - a) else byteAt s b) ∧
    (Memory.wf s.params s.mem = true → Memory.wf s.params m' = true) ∧
    (Memory.inRange s.params s.mem = true → Memory.inRange s.params m' = true)

theorem CellsWritten.refl (s : State) (a : Nat) (byte : Nat → Byte) : CellsWritten s s.mem a 0 byte :=
  ⟨fun b => by rw [if_neg (by omega)]; rfl, id, id⟩

theorem CellsWritten.cons {s : State} {m' : Memory} {a n : Nat} {byte : Nat → Byte} (ha : a < s.params.memSize)
    (h : CellsWritten (setByte a (byte 0) s) m' (a + 1) n fun k => byte (k + 1)) : CellsWritten s m' a (n + 1) byte := by
  refine ⟨fun b => ?_, fun hw => h.2.1 (wf_writeCell _ _ _ hw), fun hr => h.2.2 (inRange_writeCell _ _ _ hr ha)⟩
  have hb := h.1 b
  rw [byteAt_setByte, setByte_params] at hb
  rw [hb]
  by_cases hba : b = a
  · subst hba
    rw [if_neg (by omega), if_pos rfl, if_pos (by omega), Nat.sub_self]
  · by_cases hr : a + 1 ≤ b ∧ b < a + 1 + n
    · rw [if_pos hr, if_pos (by omega)]
      show byte (b - (a + 1) + 1) = byte (b - a)
      rw [show b - (a + 1) + 1 = b - a by omega]
    · rw [if_neg hr, if_neg hba, if_neg (by omega)]

/-- FX33's stores when every address exists. -/
theorem storeBytes_done (bs : List Byte) (a : Nat) (s : State) (h : ∀ k < bs.length, a + k < s.params.memSize) :
    ∃ m', storeBytes a bs s = .done () (setMem m' s) ∧ CellsWritten s m' a bs.length fun k => bs.getD k 0 := by
  induction bs generalizing a s with
  | nil => exact ⟨s.mem, rfl, .refl ..⟩
  | cons b bs ih =>
    have ha : a < s.params.memSize := h 0 (by simp)
    obtain ⟨m', hm, hc⟩ := ih (a + 1) (setByte a b s) fun k hk => by
      have := h (k + 1) (by simp; omega)
      rw [setByte_params]; omega
    exact ⟨m', by simp [storeBytes, memWrite_done ha, hm], CellsWritten.cons ha (by simpa using hc)⟩

/-- FX33's stores when byte `n` is the first whose address does not exist: the bytes before it are written. -/
theorem storeBytes_raised (bs : List Byte) (a n : Nat) (s : State) (hn : n < bs.length) (ok : ∀ k < n, a + k < s.params.memSize)
    (bad : s.params.memSize ≤ a + n) :
    ∃ m', storeBytes a bs s = .raised (.outOfRange (.mem (a + n))) (setMem m' s) ∧
      CellsWritten s m' a n fun k => bs.getD k 0 := by
  induction n generalizing a s bs with
  | zero =>
    cases bs with
    | nil => simp at hn
    | cons b bs => exact ⟨s.mem, by simp [storeBytes, memWrite_raised (show s.params.memSize ≤ a from bad)], .refl ..⟩
  | succ n ih =>
    cases bs with
    | nil => simp at hn
    | cons b bs =>
      have ha : a < s.params.memSize := ok 0 (by omega)
      obtain ⟨m', hm, hc⟩ := ih bs (a + 1) (setByte a b s) (by simpa using hn)
        (fun k hk => by have := ok (k + 1) (by omega); rw [setByte_params]; omega) (by rw [setByte_params]; omega)
      rw [show a + 1 + n = a + (n + 1) by omega] at hm
      exact ⟨m', by simp [storeBytes, memWrite_done ha, hm], CellsWritten.cons ha (by simpa using hc)⟩

/-- I + 1 as a number, when I is below a bound that is at most the largest MEM_SIZE (R205; 00_scope.md R8). -/
theorem i_succ_toNat {w : Word} {n : Nat} (h : w.toNat < n) (hn : n ≤ 0xF000) : (w + 1).toNat = w.toNat + 1 := by
  rw [BitVec.toNat_add]
  simp
  omega

theorem word_add_succ (w : Word) (n : Nat) : w + 1 + BitVec.ofNat 16 n = w + BitVec.ofNat 16 (n + 1) := by
  rw [BitVec.add_assoc, show n + 1 = 1 + n by omega, BitVec.ofNat_add]
  rfl

/-- FX55's loop when every address exists: `n` registers stored, I raised by `n`. -/
theorem storeRegs_done (n k : Nat) (s : State) (hm : s.params.memSize ≤ 0xF000) (h : ∀ j < n, s.i.toNat + j < s.params.memSize) :
    ∃ m', storeRegs n k s = .done () (setI (s.i + BitVec.ofNat 16 n) (setMem m' s)) ∧
      CellsWritten s m' s.i.toNat n fun j => getV s (BitVec.ofNat 4 (k + j)) := by
  induction n generalizing k s with
  | zero => exact ⟨s.mem, by simp [storeRegs], .refl ..⟩
  | succ n ih =>
    have hi : s.i.toNat < s.params.memSize := h 0 (by omega)
    have hs := i_succ_toNat hi hm
    obtain ⟨m', ht, hc⟩ := ih (k + 1) (setI (s.i + 1) (setByte s.i.toNat (getV s (BitVec.ofNat 4 k)) s)) hm fun j hj => by
      have := h (j + 1) (by omega)
      rw [setI_i, hs, setI_params, setByte_params]; omega
    refine ⟨m', ?_, CellsWritten.cons hi ?_⟩
    · simp only [setI_i, setMem_setI, setI_setI, setMem_setByte, word_add_succ] at ht
      simp only [storeRegs, memWrite_done hi, bind_done, setByte_i, ht]
    · rw [setI_i, hs] at hc
      simp only [show ∀ j, k + 1 + j = k + (j + 1) by omega] at hc
      exact hc

/-- FX55's loop when byte `j` is the first whose address does not exist: `j` registers stored, I raised by `j`. -/
theorem storeRegs_raised (n k j : Nat) (s : State) (hm : s.params.memSize ≤ 0xF000) (hj : j < n)
    (ok : ∀ l < j, s.i.toNat + l < s.params.memSize) (bad : s.params.memSize ≤ s.i.toNat + j) :
    ∃ m', storeRegs n k s =
        .raised (.outOfRange (.mem (s.i.toNat + j))) (setI (s.i + BitVec.ofNat 16 j) (setMem m' s)) ∧
      CellsWritten s m' s.i.toNat j fun l => getV s (BitVec.ofNat 4 (k + l)) := by
  induction j generalizing n k s with
  | zero =>
    obtain ⟨n, rfl⟩ : ∃ m, n = m + 1 := ⟨n - 1, by omega⟩
    exact ⟨s.mem, by simp [storeRegs, memWrite_raised (show s.params.memSize ≤ s.i.toNat from bad)], .refl ..⟩
  | succ j ih =>
    obtain ⟨n, rfl⟩ : ∃ m, n = m + 1 := ⟨n - 1, by omega⟩
    have hi : s.i.toNat < s.params.memSize := ok 0 (by omega)
    have hs := i_succ_toNat hi hm
    obtain ⟨m', ht, hc⟩ := ih n (k + 1) (setI (s.i + 1) (setByte s.i.toNat (getV s (BitVec.ofNat 4 k)) s)) hm
      (by omega) (fun l hl => by have := ok (l + 1) (by omega); rw [setI_i, hs, setI_params, setByte_params]; omega)
      (by rw [setI_i, hs, setI_params, setByte_params]; omega)
    rw [setI_i, hs, show s.i.toNat + 1 + j = s.i.toNat + (j + 1) by omega] at ht
    rw [setI_i, hs] at hc
    refine ⟨m', ?_, CellsWritten.cons hi ?_⟩
    · simp only [setMem_setI, setI_setI, setMem_setByte, word_add_succ] at ht
      simp only [storeRegs, memWrite_done hi, bind_done, setByte_i, ht]
    · simp only [show ∀ l, k + 1 + l = k + (l + 1) by omega] at hc
      exact hc

/-- What the loads of a run leave in the registers: byte `r - k` of the run in register `r`, for the first `n` from `k` on. -/
def RegsLoaded (s t : State) (k n : Nat) : Prop :=
  ∀ r : RegIdx, getV t r = if k ≤ r.toNat ∧ r.toNat < k + n then byteAt s (s.i.toNat + (r.toNat - k)) else getV s r

theorem RegsLoaded.cons {s : State} {v' : Vector Byte 16} {k n : Nat} (hk : k < 16) (hs : (s.i + 1).toNat = s.i.toNat + 1)
    (h : RegsLoaded (setI (s.i + 1) (setV s (BitVec.ofNat 4 k) (byteAt s s.i.toNat))) (setRegs v' s) (k + 1) n) :
    RegsLoaded s (setRegs v' s) k (n + 1) := by
  intro r
  have hr := h r
  simp only [getV_setI, getV_setV, byteAt_setI, byteAt_setV, setI_i, hs] at hr
  rw [hr]
  by_cases hrk : r.toNat = k
  · have : r = BitVec.ofNat 4 k := BitVec.eq_of_toNat_eq (by simp [hrk, Nat.mod_eq_of_lt hk])
    rw [if_neg (by omega), if_pos this, if_pos (by omega), hrk, Nat.sub_self, Nat.add_zero]
  · have : r ≠ BitVec.ofNat 4 k := fun h => hrk (by simp [h, Nat.mod_eq_of_lt hk])
    by_cases hin : k + 1 ≤ r.toNat ∧ r.toNat < k + 1 + n
    · rw [if_pos hin, if_pos (by omega)]
      congr 1
      omega
    · rw [if_neg hin, if_neg this, if_neg (by omega)]

/-- FX65's loop when every address exists: `n` registers loaded, I raised by `n`. -/
theorem loadRegs_done (n k : Nat) (s : State) (hm : s.params.memSize ≤ 0xF000) (hk : k + n ≤ 16)
    (h : ∀ j < n, s.i.toNat + j < s.params.memSize) :
    ∃ v', loadRegs n k s = .done () (setI (s.i + BitVec.ofNat 16 n) (setRegs v' s)) ∧ RegsLoaded s (setRegs v' s) k n := by
  induction n generalizing k s with
  | zero => exact ⟨s.v, by simp [loadRegs], fun r => by rw [if_neg (by omega), setRegs_v_self]⟩
  | succ n ih =>
    have hi : s.i.toNat < s.params.memSize := h 0 (by omega)
    have hs := i_succ_toNat hi hm
    obtain ⟨v', hv, hc⟩ := ih (k + 1) (setI (s.i + 1) (setV s (BitVec.ofNat 4 k) (byteAt s s.i.toNat))) hm (by omega)
      fun j hj => by
        have := h (j + 1) (by omega)
        rw [setI_i, hs, setI_params, setV_params]; omega
    simp only [setI_i, setRegs_setI, setI_setI, setRegs_setV, word_add_succ] at hv
    exact ⟨v', by simp only [loadRegs, memRead_done hi, bind_done, hv], RegsLoaded.cons (by omega) hs hc⟩

/-- FX65's loop when byte `j` is the first whose address does not exist: `j` registers loaded, I raised by `j`. -/
theorem loadRegs_raised (n k j : Nat) (s : State) (hm : s.params.memSize ≤ 0xF000) (hk : k + n ≤ 16) (hj : j < n)
    (ok : ∀ l < j, s.i.toNat + l < s.params.memSize) (bad : s.params.memSize ≤ s.i.toNat + j) :
    ∃ v', loadRegs n k s =
        .raised (.outOfRange (.mem (s.i.toNat + j))) (setI (s.i + BitVec.ofNat 16 j) (setRegs v' s)) ∧
      RegsLoaded s (setRegs v' s) k j := by
  induction j generalizing n k s with
  | zero =>
    obtain ⟨n, rfl⟩ : ∃ m, n = m + 1 := ⟨n - 1, by omega⟩
    exact ⟨s.v, by simp [loadRegs, memRead_raised (show s.params.memSize ≤ s.i.toNat from bad)],
      fun r => by rw [if_neg (by omega), setRegs_v_self]⟩
  | succ j ih =>
    obtain ⟨n, rfl⟩ : ∃ m, n = m + 1 := ⟨n - 1, by omega⟩
    have hi : s.i.toNat < s.params.memSize := ok 0 (by omega)
    have hs := i_succ_toNat hi hm
    obtain ⟨v', hv, hc⟩ := ih n (k + 1) (setI (s.i + 1) (setV s (BitVec.ofNat 4 k) (byteAt s s.i.toNat))) hm
      (by omega) (by omega) (fun l hl => by have := ok (l + 1) (by omega); rw [setI_i, hs, setI_params, setV_params]; omega)
      (by rw [setI_i, hs, setI_params, setV_params]; omega)
    simp only [setI_i, setRegs_setI, setI_setI, setRegs_setV, word_add_succ, hs,
      show s.i.toNat + 1 + j = s.i.toNat + (j + 1) by omega] at hv
    exact ⟨v', by simp only [loadRegs, memRead_done hi, bind_done, hv], RegsLoaded.cons (by omega) hs hc⟩

/-- The state that a statement sequence leaves, after a success or after a raise, satisfies `P`; and it is never stuck. -/
def Txn.Leaves {α : Type} (P : State → Prop) : Txn α → Prop
  | .done _ t => P t
  | .raised _ t => P t
  | .stuck _ => False

/-- FX33's stores change nothing but memory, in every state. -/
theorem storeBytes_leaves (bs : List Byte) (a : Nat) (s : State) : (storeBytes a bs s).Leaves fun t => ∃ m, t = setMem m s := by
  induction bs generalizing a s with
  | nil => exact ⟨s.mem, rfl⟩
  | cons b bs ih =>
    unfold storeBytes memWrite
    split
    · exact ih (a + 1) (setByte a b s)
    · exact ⟨s.mem, rfl⟩

/-- FX55's loop changes nothing but memory and I, in every state. -/
theorem storeRegs_leaves (n k : Nat) (s : State) : (storeRegs n k s).Leaves fun t => ∃ w m, t = setI w (setMem m s) := by
  induction n generalizing k s with
  | zero => exact ⟨s.i, s.mem, rfl⟩
  | succ n ih =>
    unfold storeRegs memWrite
    split
    · exact ih (k + 1) (setI (s.i + 1) (setByte s.i.toNat (getV s (BitVec.ofNat 4 k)) s))
    · exact ⟨s.i, s.mem, rfl⟩

/-- FX65's loop changes nothing but registers and I, in every state. -/
theorem loadRegs_leaves (n k : Nat) (s : State) : (loadRegs n k s).Leaves fun t => ∃ w v, t = setI w (setRegs v s) := by
  induction n generalizing k s with
  | zero => exact ⟨s.i, s.v, rfl⟩
  | succ n ih =>
    unfold loadRegs memRead
    split
    · exact ih (k + 1) (setI (s.i + 1) (setV s (BitVec.ofNat 4 k) (byteAt s s.i.toNat)))
    · exact ⟨s.i, s.v, rfl⟩

end Sys2Proof.Machine
end

