-- ==== Sys2Proof/Laws/Flags.lean ====
section
/-!
SUPPORT. Results and flags of the arithmetic family, and what the flag-writing operation leaves in every register
(41_alu.md R160-R163); the operand forms that can raise.
-/

namespace Sys2Proof.Machine

theorem add8_toNat (a b : Byte) : (add8 a b).toNat = (a.toNat + b.toNat) % 256 := by
  simp [add8]

theorem sub8_eq (a b : Byte) : sub8 a b = a - b := by
  unfold sub8
  apply BitVec.eq_of_toInt_eq
  rw [BitVec.toInt_ofInt, BitVec.toInt_sub]
  have ha := a.isLt
  have hb := b.isLt
  rw [BitVec.toInt_eq_toNat_bmod, BitVec.toInt_eq_toNat_bmod]
  simp only [Int.sub_bmod_bmod, Int.bmod_sub_bmod]

theorem sub8_toNat (a b : Byte) : (sub8 a b).toNat = (a.toNat + (256 - b.toNat)) % 256 := by
  rw [sub8_eq, BitVec.toNat_sub]
  congr 1
  omega

/-- Only registers change in a flagged write. -/
theorem writeFlagged_eq (flag result : Byte → Byte → Byte) (x y : RegIdx) (s : State) :
    writeFlagged flag result x y s = setRegs (writeFlagged flag result x y s).v s := by
  unfold writeFlagged
  cases s.params.aluVfReading <;> rfl

/-- What `sequential` leaves (R162): the flag in VF, and in Vx the result of the operands as they are after the flag is written. -/
theorem getV_writeFlagged_sequential (flag result : Byte → Byte → Byte) (x y r : RegIdx) (s : State)
    (h : s.params.aluVfReading = .sequential) :
    getV (writeFlagged flag result x y s) r =
      let f := flag (getV s x) (getV s y)
      if r = x then result (if x = vf then f else getV s x) (if y = vf then f else getV s y)
      else if r = vf then f else getV s r := by
  simp only [writeFlagged, h, getV_setV]

/-- What `snapshotFlagLast` leaves (R162): the result of the old operands in Vx, then the flag in VF. -/
theorem getV_writeFlagged_snapshot (flag result : Byte → Byte → Byte) (x y r : RegIdx) (s : State)
    (h : s.params.aluVfReading = .snapshotFlagLast) :
    getV (writeFlagged flag result x y s) r =
      if r = vf then flag (getV s x) (getV s y) else if r = x then result (getV s x) (getV s y) else getV s r := by
  simp only [writeFlagged, h, getV_setV]

/-- Everything the font pointer can do (20_memory.md R65). -/
theorem fontGlyphPointer_cases (d : Byte) (s : State) :
    (d.toNat ≤ 0xF ∧ fontGlyphPointer d s = .done (BitVec.ofNat 16 (s.params.fontBase + s.params.glyphBytes * d.toNat)) s) ∨
    (0xF < d.toNat ∧ fontGlyphPointer d s = .raised (.outOfRange (.fontDigit d.toNat)) s) := by
  unfold fontGlyphPointer
  by_cases h : d.toNat > 0xF
  · exact .inr ⟨h, if_pos h⟩
  · exact .inl ⟨Nat.not_lt.mp h, if_neg h⟩

/-- Everything a key test can do (44_keys_timers.md R260, R261). -/
theorem keyFlag_cases (k : Byte) (s : State) :
    (∃ h : k.toNat < 16, keyFlag k s = .done (s.keys[k.toNat]'h) s) ∨
    (16 ≤ k.toNat ∧ keyFlag k s = .raised (.outOfRange (.keyIndex k.toNat)) s) := by
  unfold keyFlag
  by_cases h : k.toNat < 16
  · exact .inl ⟨h, dif_pos h⟩
  · exact .inr ⟨Nat.not_lt.mp h, dif_neg h⟩

end Sys2Proof.Machine
end

