-- ==== Sys2Proof/Laws/PerInstr.lean ====
section
/-!
SUPPORT. The family EncodesInOwnRow: every instruction's opcode is covered by its own row of the opcode table
(30_encoding.md R92, R95).
-/

/-- The opcode of `i` matches the row of the opcode table that carries its mnemonic. -/
def Sys2Proof.Laws.EncodesInOwnRow.Statement (i : Sys2Proof.Instr) : Prop :=
  ∃ r ∈ Sys2Proof.opcodeTable, r.mnemonic = i.mnemonic ∧ r.covers (Sys2Proof.encode i) = true

namespace Sys2Proof.Laws.EncodesInOwnRow

/-- A row of the table with the instruction's mnemonic whose mask and pattern the opcode meets. -/
theorem of_row {i : Instr} (m : String) (p k : Word) (hr : ⟨m, p, k⟩ ∈ opcodeTable) (hm : m = i.mnemonic)
    (hc : encode i &&& k = p) : Statement i :=
  ⟨⟨m, p, k⟩, hr, hm, by simp [OpcodeRow.covers, hc]⟩

theorem cls : Statement (.cls) :=
  of_row "CLS" 0x00E0#16 0xFFFF#16 (by decide) rfl (by decide)

theorem ret : Statement (.ret) :=
  of_row "RET" 0x00EE#16 0xFFFF#16 (by decide) rfl (by decide)

theorem jp (nnn : Addr12) : Statement (.jp nnn) :=
  of_row "JP" 0x1000#16 0xF000#16 (by decide) rfl ((layoutNNN_masked ..).trans (by decide))

theorem call (nnn : Addr12) : Statement (.call nnn) :=
  of_row "CALL" 0x2000#16 0xF000#16 (by decide) rfl ((layoutNNN_masked ..).trans (by decide))

theorem seImm (x : RegIdx) (nn : Byte) : Statement (.seImm x nn) :=
  of_row "SE_IMM" 0x3000#16 0xF000#16 (by decide) rfl ((layoutXNN_masked ..).trans (by decide))

theorem sneImm (x : RegIdx) (nn : Byte) : Statement (.sneImm x nn) :=
  of_row "SNE_IMM" 0x4000#16 0xF000#16 (by decide) rfl ((layoutXNN_masked ..).trans (by decide))

theorem seReg (x : RegIdx) (y : RegIdx) : Statement (.seReg x y) :=
  of_row "SE_REG" 0x5000#16 0xF00F#16 (by decide) rfl ((layoutXYN_masked_nibble ..).trans (by decide))

theorem ldImm (x : RegIdx) (nn : Byte) : Statement (.ldImm x nn) :=
  of_row "LD_IMM" 0x6000#16 0xF000#16 (by decide) rfl ((layoutXNN_masked ..).trans (by decide))

theorem addImm (x : RegIdx) (nn : Byte) : Statement (.addImm x nn) :=
  of_row "ADD_IMM" 0x7000#16 0xF000#16 (by decide) rfl ((layoutXNN_masked ..).trans (by decide))

theorem ldReg (x : RegIdx) (y : RegIdx) : Statement (.ldReg x y) :=
  of_row "LD_REG" 0x8000#16 0xF00F#16 (by decide) rfl ((layoutXYN_masked_nibble ..).trans (by decide))

theorem orReg (x : RegIdx) (y : RegIdx) : Statement (.orReg x y) :=
  of_row "OR" 0x8001#16 0xF00F#16 (by decide) rfl ((layoutXYN_masked_nibble ..).trans (by decide))

theorem andReg (x : RegIdx) (y : RegIdx) : Statement (.andReg x y) :=
  of_row "AND" 0x8002#16 0xF00F#16 (by decide) rfl ((layoutXYN_masked_nibble ..).trans (by decide))

theorem xorReg (x : RegIdx) (y : RegIdx) : Statement (.xorReg x y) :=
  of_row "XOR" 0x8003#16 0xF00F#16 (by decide) rfl ((layoutXYN_masked_nibble ..).trans (by decide))

theorem addReg (x : RegIdx) (y : RegIdx) : Statement (.addReg x y) :=
  of_row "ADD_REG" 0x8004#16 0xF00F#16 (by decide) rfl ((layoutXYN_masked_nibble ..).trans (by decide))

theorem sub (x : RegIdx) (y : RegIdx) : Statement (.sub x y) :=
  of_row "SUB" 0x8005#16 0xF00F#16 (by decide) rfl ((layoutXYN_masked_nibble ..).trans (by decide))

theorem shr (x : RegIdx) (y : RegIdx) : Statement (.shr x y) :=
  of_row "SHR" 0x8006#16 0xF00F#16 (by decide) rfl ((layoutXYN_masked_nibble ..).trans (by decide))

theorem subn (x : RegIdx) (y : RegIdx) : Statement (.subn x y) :=
  of_row "SUBN" 0x8007#16 0xF00F#16 (by decide) rfl ((layoutXYN_masked_nibble ..).trans (by decide))

theorem shl (x : RegIdx) (y : RegIdx) : Statement (.shl x y) :=
  of_row "SHL" 0x800E#16 0xF00F#16 (by decide) rfl ((layoutXYN_masked_nibble ..).trans (by decide))

theorem sneReg (x : RegIdx) (y : RegIdx) : Statement (.sneReg x y) :=
  of_row "SNE_REG" 0x9000#16 0xF00F#16 (by decide) rfl ((layoutXYN_masked_nibble ..).trans (by decide))

theorem ldI (nnn : Addr12) : Statement (.ldI nnn) :=
  of_row "LD_I" 0xA000#16 0xF000#16 (by decide) rfl ((layoutNNN_masked ..).trans (by decide))

theorem jpV0 (nnn : Addr12) : Statement (.jpV0 nnn) :=
  of_row "JP_V0" 0xB000#16 0xF000#16 (by decide) rfl ((layoutNNN_masked ..).trans (by decide))

theorem rnd (x : RegIdx) (nn : Byte) : Statement (.rnd x nn) :=
  of_row "RND" 0xC000#16 0xF000#16 (by decide) rfl ((layoutXNN_masked ..).trans (by decide))

theorem drw (x : RegIdx) (y : RegIdx) (n : Nibble) : Statement (.drw x y n) :=
  of_row "DRW" 0xD000#16 0xF000#16 (by decide) rfl ((layoutXYN_masked ..).trans (by decide))

theorem skp (x : RegIdx) : Statement (.skp x) :=
  of_row "SKP" 0xE09E#16 0xF0FF#16 (by decide) rfl ((layoutXNN_masked_byte ..).trans (by decide))

theorem sknp (x : RegIdx) : Statement (.sknp x) :=
  of_row "SKNP" 0xE0A1#16 0xF0FF#16 (by decide) rfl ((layoutXNN_masked_byte ..).trans (by decide))

theorem ldVxDt (x : RegIdx) : Statement (.ldVxDt x) :=
  of_row "LD_VX_DT" 0xF007#16 0xF0FF#16 (by decide) rfl ((layoutXNN_masked_byte ..).trans (by decide))

theorem ldVxK (x : RegIdx) : Statement (.ldVxK x) :=
  of_row "LD_VX_K" 0xF00A#16 0xF0FF#16 (by decide) rfl ((layoutXNN_masked_byte ..).trans (by decide))

theorem ldDtVx (x : RegIdx) : Statement (.ldDtVx x) :=
  of_row "LD_DT_VX" 0xF015#16 0xF0FF#16 (by decide) rfl ((layoutXNN_masked_byte ..).trans (by decide))

theorem ldStVx (x : RegIdx) : Statement (.ldStVx x) :=
  of_row "LD_ST_VX" 0xF018#16 0xF0FF#16 (by decide) rfl ((layoutXNN_masked_byte ..).trans (by decide))

theorem addI (x : RegIdx) : Statement (.addI x) :=
  of_row "ADD_I" 0xF01E#16 0xF0FF#16 (by decide) rfl ((layoutXNN_masked_byte ..).trans (by decide))

theorem ldF (x : RegIdx) : Statement (.ldF x) :=
  of_row "LD_F" 0xF029#16 0xF0FF#16 (by decide) rfl ((layoutXNN_masked_byte ..).trans (by decide))

theorem ldB (x : RegIdx) : Statement (.ldB x) :=
  of_row "LD_B" 0xF033#16 0xF0FF#16 (by decide) rfl ((layoutXNN_masked_byte ..).trans (by decide))

theorem ldMemVx (x : RegIdx) : Statement (.ldMemVx x) :=
  of_row "LD_MEM_VX" 0xF055#16 0xF0FF#16 (by decide) rfl ((layoutXNN_masked_byte ..).trans (by decide))

theorem ldVxMem (x : RegIdx) : Statement (.ldVxMem x) :=
  of_row "LD_VX_MEM" 0xF065#16 0xF0FF#16 (by decide) rfl ((layoutXNN_masked_byte ..).trans (by decide))

end Sys2Proof.Laws.EncodesInOwnRow
end

