-- ==== Sys2Proof/Laws/Pixels.lean ====
section
/-!
SUPPORT. The blit engine (43_display.md R230-R236): what one flip, one row and the row loop of DXYN do to every pixel, and when
they report a collision.
-/

namespace Sys2Proof.Machine

variable {c : Params}

theorem Pix.wf_iff (p : Pix) : Pix.wf c p = true ↔ p.length = c.displayH ∧ ∀ row ∈ p, row.length = c.displayW := by
  simp [Pix.wf]

/-- The cleared framebuffer has the display's size. -/
theorem wf_clearPix : Pix.wf c (clearPix c) = true := by
  simp [Pix.wf_iff, clearPix]

/-- Every pixel of the cleared framebuffer is off (R231). -/
theorem pixelAt_clearPix (px py : Nat) : pixelAt c (clearPix c) px py = false := by
  simp only [pixelAt, clearPix, List.getD_eq_getElem?_getD, List.getElem?_replicate]
  split <;> simp [List.getElem?_replicate]
  split <;> rfl

/-- Row `y mod DISPLAY_H` exists and has the display's width. -/
theorem row_length {p : Pix} (hc : c.wf = true) (hp : Pix.wf c p = true) (y : Nat) :
    y % c.displayH < p.length ∧ (p.getD (y % c.displayH) []).length = c.displayW := by
  have hy := Params.displayH_gt hc
  have h := (Pix.wf_iff p).mp hp
  have hl : y % c.displayH < p.length := h.1 ▸ Nat.mod_lt _ (by omega)
  exact ⟨hl, by rw [List.getD_eq_getElem _ _ hl]; exact h.2 _ (List.getElem_mem hl)⟩

/-- A pixel write keeps the framebuffer's size. -/
theorem wf_setPixel {p : Pix} (hc : c.wf = true) (hp : Pix.wf c p = true) (x y : Nat) (b : Bool) :
    Pix.wf c (setPixel c p x y b) = true := by
  have h := (Pix.wf_iff p).mp hp
  refine (Pix.wf_iff _).mpr ⟨by simp [setPixel, h.1], fun row hr => ?_⟩
  rcases List.mem_or_eq_of_mem_set hr with hr | rfl
  · exact h.2 row hr
  · rw [List.length_set]
    exact (row_length hc hp y).2

/-- Reading a pixel after a pixel write. -/
theorem pixelAt_setPixel {p : Pix} (hc : c.wf = true) (hp : Pix.wf c p = true) (x y px py : Nat) (b : Bool) :
    pixelAt c (setPixel c p x y b) px py =
      if px % c.displayW = x % c.displayW ∧ py % c.displayH = y % c.displayH then b else pixelAt c p px py := by
  have hw := Params.displayW_gt hc
  have ⟨hl, hr⟩ := row_length hc hp y
  have hx : x % c.displayW < c.displayW := Nat.mod_lt _ (by omega)
  unfold pixelAt setPixel
  by_cases hy : py % c.displayH = y % c.displayH
  · by_cases hxx : px % c.displayW = x % c.displayW
    · simp only [hy, hxx, and_self, if_true, List.getD_eq_getElem?_getD] at *
      rw [List.getElem?_set_self hl, Option.getD_some, List.getElem?_set_self (by rw [hr]; exact hx)]
      rfl
    · simp only [hy, hxx, false_and, if_false, List.getD_eq_getElem?_getD]
      rw [List.getElem?_set_self hl, Option.getD_some, List.getElem?_set_ne (Ne.symm hxx)]
  · simp only [hy, and_false, if_false, List.getD_eq_getElem?_getD]
    rw [List.getElem?_set_ne (Ne.symm hy)]

/-- A blit of the mask `m` took the framebuffer from `p` to `p'`, which has the display's size, and `e` says whether it turned some
pixel off. -/
structure Blitted (c : Params) (p p' : Pix) (e : Bool) (m : Nat → Nat → Bool) : Prop where
  pixel : ∀ px py, pixelAt c p' px py = (pixelAt c p px py ^^ m px py)
  hit : e = true ↔ ∃ px py, px < c.displayW ∧ py < c.displayH ∧ pixelAt c p px py = true ∧ m px py = true
  wf : Pix.wf c p' = true

theorem Blitted.empty {p : Pix} (hp : Pix.wf c p = true) : Blitted c p p false fun _ _ => false := ⟨by simp, by simp, hp⟩

/-- Two blits of masks that do not overlap are the blit of both. -/
theorem Blitted.trans {p q r : Pix} {e d : Bool} {m n : Nat → Nat → Bool} (h : Blitted c p q e m) (k : Blitted c q r d n)
    (hd : ∀ px py, m px py = true → n px py = false) : Blitted c p r (e || d) fun px py => m px py || n px py := by
  refine ⟨?_, ?_, k.wf⟩
  · intro px py
    rw [k.pixel, h.pixel]
    have := hd px py
    cases hm : m px py <;> simp_all
  · rw [Bool.or_eq_true, h.hit, k.hit]
    constructor
    · rintro (⟨px, py, hx, hy, hp, hm⟩ | ⟨px, py, hx, hy, hp, hn⟩)
      · exact ⟨px, py, hx, hy, hp, by simp [hm]⟩
      · refine ⟨px, py, hx, hy, ?_, by simp [hn]⟩
        rw [h.pixel] at hp
        cases hm : m px py
        · simpa [hm] using hp
        · simp [hd px py hm] at hn
    · rintro ⟨px, py, hx, hy, hp, hmn⟩
      cases hm : m px py
      · rw [hm, Bool.false_or] at hmn
        exact .inr ⟨px, py, hx, hy, by rw [h.pixel, hp, hm]; rfl, hmn⟩
      · exact .inl ⟨px, py, hx, hy, hp, hm⟩

theorem Blitted.congr {p q : Pix} {e : Bool} {m n : Nat → Nat → Bool} (h : Blitted c p q e m) (k : ∀ px py, m px py = n px py) :
    Blitted c p q e n := by
  have : m = n := funext fun px => funext fun py => k px py
  exact this ▸ h

theorem pixelAt_mod (p : Pix) (x y : Nat) : pixelAt c p (x % c.displayW) (y % c.displayH) = pixelAt c p x y := by
  simp [pixelAt]

/-- One flip (R232) is the blit of one pixel. -/
theorem flipBit_blitted (hc : c.wf = true) (x y : Nat) (bit : Bool) {p : Pix} (hp : Pix.wf c p = true) :
    Blitted c p (flipBit c x y bit p).1 (flipBit c x y bit p).2 fun px py =>
      decide (py % c.displayH = y % c.displayH) && decide (px % c.displayW = x % c.displayW) && bit := by
  have hw := Params.displayW_gt hc
  have hh := Params.displayH_gt hc
  refine ⟨?_, ?_, wf_setPixel hc hp ..⟩
  · intro px py
    simp only [flipBit, pixelAt_setPixel hc hp]
    split
    · rename_i h
      have : pixelAt c p px py = pixelAt c p x y := by rw [← pixelAt_mod p px py, ← pixelAt_mod p x y, h.1, h.2]
      simp [this, h.1, h.2]
    · rename_i h
      have : (decide (py % c.displayH = y % c.displayH) && decide (px % c.displayW = x % c.displayW) && bit) = false := by
        by_cases hy : py % c.displayH = y % c.displayH <;> by_cases hx : px % c.displayW = x % c.displayW <;> simp_all
      rw [this, Bool.xor_false]
  · simp only [flipBit]
    constructor
    · intro h
      refine ⟨x % c.displayW, y % c.displayH, Nat.mod_lt _ (by omega), Nat.mod_lt _ (by omega), ?_, ?_⟩
      · rw [pixelAt_mod]; cases hp : pixelAt c p x y <;> simp_all
      · cases hb : bit <;> simp_all
    · rintro ⟨px, py, _, _, hp, hm⟩
      simp only [Bool.and_eq_true, decide_eq_true_eq] at hm
      have : pixelAt c p px py = pixelAt c p x y := by rw [← pixelAt_mod p px py, ← pixelAt_mod p x y, hm.1.1, hm.1.2]
      simp [← this, hp, hm.2]

/-- An offset on a screen that wraps names the line `x + j`. -/
theorem offset_eq_iff {m : Nat} (a x : Nat) {j : Nat} (hj : j < m) : (a + (m - x % m)) % m = j ↔ a % m = (x + j) % m := by
  have hx := Nat.mod_lt x (show 0 < m by omega)
  have hd := Nat.div_add_mod x m
  have e : a + (m - x % m) + x = a + m * (1 + x / m) := by
    rw [Nat.mul_add]; omega
  have ea : a + (m - x % m) + x ≡ a [MOD m] := by rw [e]; exact Nat.add_mul_mod_self_left ..
  constructor
  · intro h
    have h1 : a + (m - x % m) ≡ j [MOD m] := by rw [Nat.ModEq, h, Nat.mod_eq_of_lt hj]
    have h2 := ea.symm.trans (h1.add_right x)
    rwa [Nat.add_comm] at h2
  · intro h
    have h1 : a ≡ x + j [MOD m] := h
    rw [Nat.add_comm] at h1
    have h2 := Nat.ModEq.add_right_cancel' x (ea.trans h1)
    rwa [Nat.ModEq, Nat.mod_eq_of_lt hj] at h2

/-- The column offset names the column `x + j`. -/
theorem columnOffset_eq_iff (hc : c.wf = true) (x px j : Nat) (hj : j < 8) :
    columnOffset c x px = j ↔ px % c.displayW = (x + j) % c.displayW :=
  offset_eq_iff px x (Nat.lt_trans hj (Params.displayW_gt hc))

/-- The row offset names the row `y + k`. -/
theorem rowOffset_eq_iff (hc : c.wf = true) (y py k : Nat) (hk : k < 15) :
    rowOffset c y py = k ↔ py % c.displayH = (y + k) % c.displayH :=
  offset_eq_iff py y (Nat.lt_trans hk (Params.displayH_gt hc))

/-- Flips of the columns from `b` on (R233) are the blit of those columns of the row. -/
theorem flipBits_blitted (hc : c.wf = true) (x y : Nat) (row : Byte) (n b : Nat) (col : Bool) {p : Pix} (hp : Pix.wf c p = true)
    (hb : b + n ≤ 8) :
    ∃ e, (flipBits c x y row n b col p).2 = (e || col) ∧
      Blitted c p (flipBits c x y row n b col p).1 e fun px py =>
        decide (py % c.displayH = y % c.displayH) && decide (b ≤ columnOffset c x px ∧ columnOffset c x px < b + n) &&
          row.getLsbD (7 - columnOffset c x px) := by
  induction n generalizing b col p with
  | zero =>
    refine ⟨false, by simp [flipBits], (Blitted.empty hp).congr fun px py => ?_⟩
    rw [decide_eq_false (show ¬(b ≤ columnOffset c x px ∧ columnOffset c x px < b + 0) by omega)]
    simp
  | succ n ih =>
    have hf := flipBit_blitted hc (x + b) y (row.getLsbD (7 - b)) hp
    obtain ⟨e, he, hr⟩ := ih (b + 1) ((flipBit c (x + b) y (row.getLsbD (7 - b)) p).2 || col) hf.wf (by omega)
    refine ⟨(flipBit c (x + b) y (row.getLsbD (7 - b)) p).2 || e, ?_, (hf.trans hr fun px py hm => ?_).congr fun px py => ?_⟩
    · simp only [flipBits, he]
      cases e <;> cases (flipBit c (x + b) y (row.getLsbD (7 - b)) p).2 <;> cases col <;> rfl
    · simp only [Bool.and_eq_true, decide_eq_true_eq] at hm
      have := (columnOffset_eq_iff hc x px b (by omega)).mpr hm.1.2
      rw [decide_eq_false (show ¬(b + 1 ≤ columnOffset c x px ∧ columnOffset c x px < b + 1 + n) by omega)]
      simp
    · have he := columnOffset_eq_iff hc x px b (by omega)
      by_cases hx : columnOffset c x px = b
      · have h1 : ¬(b + 1 ≤ columnOffset c x px ∧ columnOffset c x px < b + 1 + n) := by omega
        have h2 : b ≤ columnOffset c x px ∧ columnOffset c x px < b + (n + 1) := by omega
        have h3 : decide (px % c.displayW = (x + b) % c.displayW) = true := decide_eq_true (he.mp hx)
        rw [decide_eq_false h1, decide_eq_true h2, h3, hx]
        simp
      · have h1 : (b + 1 ≤ columnOffset c x px ∧ columnOffset c x px < b + 1 + n) ↔
          (b ≤ columnOffset c x px ∧ columnOffset c x px < b + (n + 1)) := by omega
        have h3 : decide (px % c.displayW = (x + b) % c.displayW) = false := decide_eq_false fun h => hx (he.mpr h)
        simp only [h3, h1, Bool.and_false, Bool.false_and, Bool.false_or]

/-- A sprite row (R233) is the blit of its 8 columns, and its value says whether it turned some pixel off. -/
theorem flipSprite_blitted (hc : c.wf = true) (x y : Nat) (row : Byte) {p : Pix} (hp : Pix.wf c p = true) :
    Blitted c p (flipSprite c x y row p).1 (flipSprite c x y row p).2 fun px py =>
      decide (py % c.displayH = y % c.displayH) && decide (columnOffset c x px < 8) &&
        row.getLsbD (7 - columnOffset c x px) := by
  obtain ⟨e, he, hb⟩ := flipBits_blitted hc x y row 8 0 false hp (by omega)
  rw [Bool.or_false] at he
  unfold flipSprite
  rw [he]
  exact hb.congr fun px py => by simp

/-- The rows `lo` to `hi - 1` of a sprite at a pixel. -/
def spriteRows (c : Params) (rows : Nat → Byte) (lo hi x y px py : Nat) : Bool :=
  decide (lo ≤ rowOffset c y py ∧ rowOffset c y py < hi) && decide (columnOffset c x px < 8) &&
    (rows (rowOffset c y py)).getLsbD (7 - columnOffset c x px)

theorem spriteBit_eq_spriteRows (rows : Nat → Byte) (n x y px py : Nat) :
    spriteBit c rows n x y px py = spriteRows c rows 0 n x y px py := by
  simp [spriteBit, spriteRows]

theorem spriteRows_empty (rows : Nat → Byte) (r x y px py : Nat) : spriteRows c rows r (r + 0) x y px py = false := by
  unfold spriteRows
  rw [decide_eq_false (show ¬(r ≤ rowOffset c y py ∧ rowOffset c y py < r + 0) by omega)]
  rfl

theorem row_blitted (x y r : Nat) {s : State} (hc : s.params.wf = true) (hp : Pix.wf s.params s.pix = true) (hr : r < 15) :
    Blitted s.params s.pix (flipSprite s.params x (y + r) (spriteBytes s r) s.pix).1
      (flipSprite s.params x (y + r) (spriteBytes s r) s.pix).2 (spriteRows s.params (spriteBytes s) r (r + 1) x y) := by
  refine (flipSprite_blitted hc x (y + r) (spriteBytes s r) hp).congr fun px py => ?_
  have he := rowOffset_eq_iff hc y py r hr
  unfold spriteRows
  by_cases h : rowOffset s.params y py = r
  · rw [decide_eq_true (he.mp h),
      decide_eq_true (show r ≤ rowOffset s.params y py ∧ rowOffset s.params y py < r + 1 by omega), h]
  · rw [decide_eq_false fun k => h (he.mpr k),
      decide_eq_false (show ¬(r ≤ rowOffset s.params y py ∧ rowOffset s.params y py < r + 1) by omega)]
    rfl

theorem spriteRows_disjoint (rows : Nat → Byte) (r n x y px py : Nat) (h : spriteRows c rows r (r + 1) x y px py = true) :
    spriteRows c rows (r + 1) (r + 1 + n) x y px py = false := by
  simp only [spriteRows, Bool.and_eq_true, decide_eq_true_eq] at h
  unfold spriteRows
  rw [decide_eq_false (show ¬(r + 1 ≤ rowOffset c y py ∧ rowOffset c y py < r + 1 + n) by omega)]
  rfl

theorem spriteRows_split (rows : Nat → Byte) (r n x y px py : Nat) :
    (spriteRows c rows r (r + 1) x y px py || spriteRows c rows (r + 1) (r + 1 + n) x y px py) =
      spriteRows c rows r (r + (n + 1)) x y px py := by
  unfold spriteRows
  by_cases h : rowOffset c y py = r
  · rw [decide_eq_true (show r ≤ rowOffset c y py ∧ rowOffset c y py < r + 1 by omega),
      decide_eq_false (show ¬(r + 1 ≤ rowOffset c y py ∧ rowOffset c y py < r + 1 + n) by omega),
      decide_eq_true (show r ≤ rowOffset c y py ∧ rowOffset c y py < r + (n + 1) by omega)]
    simp
  · have he : (r + 1 ≤ rowOffset c y py ∧ rowOffset c y py < r + 1 + n) ↔
      (r ≤ rowOffset c y py ∧ rowOffset c y py < r + (n + 1)) := by omega
    rw [decide_eq_false (show ¬(r ≤ rowOffset c y py ∧ rowOffset c y py < r + 1) by omega)]
    simp only [he, Bool.false_and, Bool.false_or]

/-- DXYN's loop when every row's address exists: the blit of the rows, and whether it turned some pixel off. -/
theorem drawRows_done (x y n r : Nat) (col : Bool) (s : State) (hc : s.params.wf = true) (hp : Pix.wf s.params s.pix = true)
    (hr : r + n ≤ 15) (h : ∀ k < n, s.i.toNat + r + k < s.params.memSize) :
    ∃ e p', drawRows x y n r col s = .done (e || col) (setPix p' s) ∧
      Blitted s.params s.pix p' e (spriteRows s.params (spriteBytes s) r (r + n) x y) := by
  induction n generalizing r col s with
  | zero =>
    exact ⟨false, s.pix, by simp [drawRows], (Blitted.empty hp).congr fun px py => (spriteRows_empty ..).symm⟩
  | succ n ih =>
    have hi : s.i.toNat + r < s.params.memSize := h 0 (by omega)
    have hf := row_blitted x y r hc hp (by omega)
    obtain ⟨e, p', hd, hb⟩ := ih (r + 1) ((flipSprite s.params x (y + r) (spriteBytes s r) s.pix).2 || col)
      (setPix (flipSprite s.params x (y + r) (spriteBytes s r) s.pix).1 s) hc hf.wf (by omega) (fun k hk => by
        have := h (k + 1) (by omega)
        rw [setPix_i, setPix_params]; omega)
    refine ⟨(flipSprite s.params x (y + r) (spriteBytes s r) s.pix).2 || e, p', ?_,
      (hf.trans hb fun px py hm => spriteRows_disjoint _ r n x y px py hm).congr fun px py => spriteRows_split _ r n x y px py⟩
    simp only [drawRows, memRead_done hi, bind_done]
    show drawRows x y n (r + 1) ((flipSprite s.params x (y + r) (spriteBytes s r) s.pix).2 || col)
      (setPix (flipSprite s.params x (y + r) (spriteBytes s r) s.pix).1 s) = _
    rw [hd, setPix_setPix]
    congr 1
    cases e <;> cases (flipSprite s.params x (y + r) (spriteBytes s r) s.pix).2 <;> cases col <;> rfl

/-- DXYN's loop when row `r + j` is the first whose address does not exist: the `j` rows before it are blitted. -/
theorem drawRows_raised (x y n r j : Nat) (col : Bool) (s : State) (hc : s.params.wf = true)
    (hp : Pix.wf s.params s.pix = true) (hr : r + n ≤ 15) (hj : j < n)
    (ok : ∀ k < j, s.i.toNat + r + k < s.params.memSize) (bad : s.params.memSize ≤ s.i.toNat + r + j) :
    ∃ e p', drawRows x y n r col s = .raised (.outOfRange (.mem (s.i.toNat + r + j))) (setPix p' s) ∧
      Blitted s.params s.pix p' e (spriteRows s.params (spriteBytes s) r (r + j) x y) := by
  induction j generalizing n r col s with
  | zero =>
    obtain ⟨n, rfl⟩ : ∃ m, n = m + 1 := ⟨n - 1, by omega⟩
    exact ⟨false, s.pix, by simp [drawRows, memRead_raised (show s.params.memSize ≤ s.i.toNat + r from bad)],
      (Blitted.empty hp).congr fun px py => (spriteRows_empty ..).symm⟩
  | succ j ih =>
    obtain ⟨n, rfl⟩ : ∃ m, n = m + 1 := ⟨n - 1, by omega⟩
    have hi : s.i.toNat + r < s.params.memSize := ok 0 (by omega)
    have hf := row_blitted x y r hc hp (by omega)
    obtain ⟨e, p', hd, hb⟩ := ih n (r + 1) ((flipSprite s.params x (y + r) (spriteBytes s r) s.pix).2 || col)
      (setPix (flipSprite s.params x (y + r) (spriteBytes s r) s.pix).1 s) hc hf.wf (by omega) (by omega)
      (fun k hk => by have := ok (k + 1) (by omega); rw [setPix_i, setPix_params]; omega)
      (by rw [setPix_i, setPix_params]; omega)
    refine ⟨(flipSprite s.params x (y + r) (spriteBytes s r) s.pix).2 || e, p', ?_,
      (hf.trans hb fun px py hm => spriteRows_disjoint _ r j x y px py hm).congr fun px py => spriteRows_split _ r j x y px py⟩
    simp only [drawRows, memRead_done hi, bind_done]
    show drawRows x y n (r + 1) ((flipSprite s.params x (y + r) (spriteBytes s r) s.pix).2 || col)
      (setPix (flipSprite s.params x (y + r) (spriteBytes s r) s.pix).1 s) = _
    rw [hd, setPix_setPix, setPix_i, show s.i.toNat + (r + 1) + j = s.i.toNat + r + (j + 1) by omega]

/-- DXYN's loop changes nothing but the framebuffer, in every state. -/
theorem drawRows_leaves (x y n r : Nat) (col : Bool) (s : State) : (drawRows x y n r col s).Leaves fun t => ∃ p, t = setPix p s := by
  induction n generalizing r col s with
  | zero => exact ⟨s.pix, rfl⟩
  | succ n ih =>
    unfold drawRows memRead
    split
    · exact ih (r + 1) _ (setPix (flipSprite s.params x (y + r) (byteAt s (s.i.toNat + r)) s.pix).1 s)
    · exact ⟨s.pix, rfl⟩

end Sys2Proof.Machine
end

