-- ==== Sys2Proof/Laws/Transactions.lean ====
section
/-!
SUPPORT. The transactions: what a bulk load leaves, what the instruction cycle can do, and the step as one transaction.
-/

namespace Sys2Proof.Machine

/-- A bulk load whose every address exists (20_memory.md R68). -/
theorem writeBulk_done (bs : List Byte) (a : Nat) (s : State) (h : ∀ k < bs.length, a + k < s.params.memSize) :
    ∃ m', writeBulk a bs s = (setMem m' s, none, bs.length) ∧ CellsWritten s m' a bs.length fun k => bs.getD k 0 := by
  induction bs generalizing a s with
  | nil => exact ⟨s.mem, rfl, .refl ..⟩
  | cons b bs ih =>
    have ha : a < s.params.memSize := h 0 (by simp)
    obtain ⟨m', hm, hc⟩ := ih (a + 1) (setByte a b s) fun k hk => by
      have := h (k + 1) (by simp; omega)
      rw [setByte_params]; omega
    exact ⟨m', by simp [writeBulk, memWrite_done ha, hm], CellsWritten.cons ha (by simpa using hc)⟩

/-- A bulk load whose byte `n` is the first whose address does not exist: the bytes before it stay written (20_memory.md R68). -/
theorem writeBulk_stopped (bs : List Byte) (a n : Nat) (s : State) (hn : n < bs.length) (ok : ∀ k < n, a + k < s.params.memSize)
    (bad : s.params.memSize ≤ a + n) :
    ∃ m', writeBulk a bs s = (setMem m' s, some (.outOfRange (.mem (a + n))), n) ∧
      CellsWritten s m' a n fun k => bs.getD k 0 := by
  induction n generalizing a s bs with
  | zero =>
    cases bs with
    | nil => simp at hn
    | cons b bs => exact ⟨s.mem, by simp [writeBulk, memWrite_raised (show s.params.memSize ≤ a from bad)], .refl ..⟩
  | succ n ih =>
    cases bs with
    | nil => simp at hn
    | cons b bs =>
      have ha : a < s.params.memSize := ok 0 (by omega)
      obtain ⟨m', hm, hc⟩ := ih bs (a + 1) (setByte a b s) (by simpa using hn)
        (fun k hk => by have := ok (k + 1) (by omega); rw [setByte_params]; omega) (by rw [setByte_params]; omega)
      rw [show a + 1 + n = a + (n + 1) by omega] at hm
      exact ⟨m', by simp [writeBulk, memWrite_done ha, hm], CellsWritten.cons ha (by simpa using hc)⟩

/-- A bulk load of any length: the bytes below MEM_SIZE are written, and nothing else changes. -/
theorem writeBulk_cases (bs : List Byte) (a : Nat) (s : State) :
    ∃ m' n, n ≤ bs.length ∧ (writeBulk a bs s).1 = setMem m' s ∧ CellsWritten s m' a n fun k => bs.getD k 0 := by
  by_cases h : ∀ k < bs.length, a + k < s.params.memSize
  · obtain ⟨m', hm, hc⟩ := writeBulk_done bs a s h
    exact ⟨m', bs.length, Nat.le_refl _, by rw [hm], hc⟩
  · have hb : s.params.memSize - a < bs.length := by
      by_contra hn
      exact h fun k hk => by omega
    by_cases ha : a < s.params.memSize
    · obtain ⟨m', hm, hc⟩ := writeBulk_stopped bs a (s.params.memSize - a) s hb (fun k hk => by omega) (by omega)
      exact ⟨m', s.params.memSize - a, Nat.le_of_lt hb, by rw [hm], hc⟩
    · obtain ⟨m', hm, hc⟩ := writeBulk_stopped bs a 0 s (by omega) (fun k hk => absurd hk (Nat.not_lt_zero k)) (by omega)
      exact ⟨m', 0, Nat.zero_le _, by rw [hm], hc⟩

/-- While Running, the cycle is the fetched word's instruction, or the error of the fetch or of the decode (30_encoding.md R111). -/
theorem cycle_running {s : State} (h : s.mode = .running) :
    (∃ op i, fetch s = .done op s ∧ decode op = .ok i ∧ cycle s = exec i s) ∨
    (∃ op e, fetch s = .done op s ∧ decode op = .error e ∧ cycle s = raise (.invalidOpcode op) s) ∨
    (∃ e, fetch s = .raised e s ∧ cycle s = raise e s) := by
  rcases fetch_cases s with ⟨_, hf⟩ | ⟨_, hf⟩ | ⟨_, hf⟩
  · cases hd : decode (wordOfBytes (byteAt s s.pc.toNat) (byteAt s (s.pc.toNat + 1))) with
    | ok i => exact .inl ⟨_, i, hf, hd, by simp only [cycle, h, hf, hd]⟩
    | error e => exact .inr (.inl ⟨_, e, hf, hd, by simp only [cycle, h, hf, hd]⟩)
  · exact .inr (.inr ⟨_, hf, by simp only [cycle, h, hf]⟩)
  · exact .inr (.inr ⟨_, hf, by simp only [cycle, h, hf]⟩)

/-- In AwaitingKey the cycle changes nothing (30_encoding.md R110). -/
theorem cycle_awaiting {s : State} {r : RegIdx} (h : s.mode = .awaitingKey r) : cycle s = .next s := by
  simp only [cycle, h]

/-- Everything the host's turn can do to the state (60_exceptions.md R311): only its schedule moves on. -/
theorem hostTurn_schedule (s : State) : ∃ l p, (hostTurn s).2 = setPlan p (setInbox l s) := by
  unfold hostTurn
  split
  · rename_i rest _
    exact ⟨rest, s.plan, rfl⟩
  · split
    · exact ⟨s.inbox, s.plan, rfl⟩
    · rename_i rest _
      exact ⟨rest, s.plan, rfl⟩
    · rename_i n _
      exact ⟨s.inbox, .free (n + 1), rfl⟩

/-- The step when the host issues a transaction is that transaction. -/
theorem step_of_turn {s t : State} {tr : Transaction} (h : hostTurn s = (some tr, t)) : step s = transact tr t := by
  simp only [step, nextTransaction, h]

/-- The step when the host issues none: only the schedule moves on. -/
theorem step_of_no_turn {s t : State} (h : hostTurn s = (none, t)) : step s = .next t := by
  simp only [step, nextTransaction, h]

/-- A pending transaction is the host's turn. -/
theorem hostTurn_of_pending {s : State} {tr : Transaction} {rest : List Transaction} (h : s.inbox = tr :: rest) :
    hostTurn s = (some tr, setInbox rest s) := by
  simp only [hostTurn, h]

/-- Without a fault record every transaction is enabled (60_exceptions.md R306). -/
theorem enabled_of_no_fault {s : State} (tr : Transaction) (h : s.fault = none) : enabled tr s = true := by
  simp [enabled, h]

/-- `step()` without a fault record is the cycle. -/
theorem transact_step {s : State} (h : s.fault = none) : transact .step s = cycle s := by
  simp [transact, enabled_of_no_fault .step h]

end Sys2Proof.Machine
end

