-- ==== Sys2Proof/Tests/Slice0.lean ====
section
/-!
SUPPORT. Small tests. Expected results are those of 95_test_vectors.md (E1-E14, L2.1-L2.7) and of the encodings of
30_encoding.md; each names its row. Then one witness per obligation that has hypotheses.
-/

namespace Sys2Proof.Tests

open Sys2Proof.Machine

section Helpers

/-- `s` with some registers set. -/
def regs (l : List (RegIdx × Byte)) (s : State) : State := l.foldl (fun t p => setV t p.1 p.2) s

/-- `s` with bytes in memory from `a` on. -/
def bytes (a : Nat) (bs : List Byte) (s : State) : State := placeBytes a bs s

/-- The opcode `op` at the next fetch of the state after reset, with some registers set. -/
def board (op : Word) (l : List (RegIdx × Byte)) : State := (regs l State.reset).withFetchWord 16 op.toNat

/-- The state after one step, if there is one. -/
def after (s : State) : Option State :=
  match step s with
  | .next t => some t
  | _ => none

/-- The state after one transaction, if there is one. -/
def afterTr (tr : Transaction) (s : State) : Option State :=
  match transact tr s with
  | .next t => some t
  | _ => none

/-- A field of the state after one step. -/
def see {α : Type} (s : State) (f : State → α) : Option α := (after s).map f

/-- `s` under the other reading of ALU_VF_READING. -/
def snapshot (s : State) : State := { s with params := { s.params with aluVfReading := .snapshotFlagLast } }

/-- Parameters other than the defaults of R8, with its first constraint met exactly. -/
def otherParams : Params :=
  { memSize := 0x400, fontBase := 0x3A0, glyphBytes := 6, fontGlyphs := 16, fontTable := List.replicate 96 0x81, programStart := 0x100,
    stackDepth := 2, displayW := 9, displayH := 16, aluVfReading := .snapshotFlagLast }

/-- The opcode `op` at the next fetch of a machine with other parameters after its reset, with some registers set. -/
def otherBoard (op : Word) (l : List (RegIdx × Byte)) : State := (regs l (State.resetWith otherParams)).withFetchWord 16 op.toNat

/-- The word decodes to the instruction, and the instruction encodes to the word. -/
def agrees (op : Word) (i : Instr) : Bool := decide (decode op = .ok i) && decide (encode i = op)

/-- The word is refused by name. -/
def refused (op : Word) : Bool := decide (decode op = .error (.invalidOpcode op)) && !wordWf op

end Helpers

section WellFormed

/-- The defaults meet R8, and so do other parameters at a boundary. -/
theorem test_params_wf : defaultParams.wf = true ∧ otherParams.wf = true := by decide

/-- FONT_BASE so high that the table does not fit. -/
theorem test_params_font_does_not_fit : Params.wf { defaultParams with fontBase := 0xFB1 } = false := by decide

/-- PROGRAM_START at MEM_SIZE. -/
theorem test_params_start_outside : Params.wf { defaultParams with programStart := 0x1000 } = false := by decide

/-- MEM_SIZE above 0xF000, where I + X + 1 would wrap. -/
theorem test_params_memory_too_large : Params.wf { defaultParams with memSize := 0xF001 } = false := by decide

/-- A font table that is not FONT_GLYPHS glyphs long. -/
theorem test_params_font_table_short : Params.wf { defaultParams with fontTable := [] } = false := by decide

/-- A font without a glyph for the digit 0xF. -/
theorem test_params_font_glyphs_few :
    Params.wf { defaultParams with fontGlyphs := 15, fontTable := List.replicate 75 0 } = false := by decide

/-- A stack that 8 bits cannot count. -/
theorem test_params_stack_too_deep : Params.wf { defaultParams with stackDepth := 256 } = false := by decide

/-- A display as narrow as a sprite. -/
theorem test_params_display_narrow : Params.wf { defaultParams with displayW := 8 } = false := by decide

/-- A display as low as the tallest sprite. -/
theorem test_params_display_low : Params.wf { defaultParams with displayH := 15 } = false := by decide

/-- Ill-formed words, one or more of every class that has some (L2.1). -/
theorem test_words_refused :
    (refused 0x0000 && refused 0x0123 && refused 0x00E1 && refused 0x5121 && refused 0x9AB1 && refused 0x8AB8 && refused 0x8ABF &&
      refused 0xE09F && refused 0xF0FF && refused 0xFFFF) = true := by decide

/-- Bytes that are too few for an instruction. -/
theorem test_bytes_truncated : decodeBytes [0x12] = .error .truncated := by decide

/-- The table has 34 rows (R95). -/
theorem test_table_rows : opcodeTable.length = 34 := by decide

end WellFormed

section Decoding

/-- Control flow words, written out from R92 and R95. -/
theorem test_decode_control :
    (agrees 0x00EE .ret && agrees 0x1ABC (.jp 0xABC) && agrees 0x2DEF (.call 0xDEF) && agrees 0x3142 (.seImm 1 0x42) &&
      agrees 0x4A09 (.sneImm 0xA 0x09) && agrees 0x5120 (.seReg 1 2) && agrees 0x9AB0 (.sneReg 0xA 0xB) &&
      agrees 0xB7F1 (.jpV0 0x7F1)) = true := by decide

/-- Load and arithmetic words. -/
theorem test_decode_alu :
    (agrees 0x643C (.ldImm 4 0x3C) && agrees 0x71FF (.addImm 1 0xFF) && agrees 0x8120 (.ldReg 1 2) && agrees 0x8231 (.orReg 2 3) &&
      agrees 0x8342 (.andReg 3 4) && agrees 0x8453 (.xorReg 4 5) && agrees 0x8564 (.addReg 5 6) && agrees 0x8675 (.sub 6 7) &&
      agrees 0x8AB6 (.shr 0xA 0xB) && agrees 0x8C17 (.subn 0xC 1) && agrees 0x8F9E (.shl 0xF 9) &&
      agrees 0xC35A (.rnd 3 0x5A)) = true := by decide

/-- Address register, memory and display words. -/
theorem test_decode_memory_display :
    (agrees 0xA321 (.ldI 0x321) && agrees 0xF51E (.addI 5) && agrees 0xF629 (.ldF 6) && agrees 0xF733 (.ldB 7) &&
      agrees 0xF855 (.ldMemVx 8) && agrees 0xF965 (.ldVxMem 9) && agrees 0x00E0 .cls && agrees 0xD12F (.drw 1 2 0xF) &&
      agrees 0xD000 (.drw 0 0 0)) = true := by decide

/-- Key and timer words. -/
theorem test_decode_keys_timers :
    (agrees 0xE19E (.skp 1) && agrees 0xE2A1 (.sknp 2) && agrees 0xF307 (.ldVxDt 3) && agrees 0xF40A (.ldVxK 4) &&
      agrees 0xF515 (.ldDtVx 5) && agrees 0xF618 (.ldStVx 6)) = true := by decide

/-- The assembler text of one instruction with each operand kind (R100). -/
theorem test_asm : (Instr.drw 1 0xF 6).asm = "DRW V1, VF, 0x6" ∧ (Instr.jp 0x2A8).asm = "JP 0x2A8" ∧
    (Instr.ldVxMem 2).asm = "LD V2, [I]" := by decide

/-- The opcode table's numbering: the one word, bit 0 its least significant bit. -/
theorem test_decodeTableWord : decodeTableWord 16 0x8AB6 = some (.shr 0xA 0xB) ∧ decodeTableWord 16 0x5121 = none := by decide

/-- A placed word is what the very next step runs, as the first instruction after reset. -/
theorem test_withFetchWord : see (State.reset.withFetchWord 16 0x643C) (fun t => (getV t 4, t.pc)) = some (0x3C, 0x202) := by decide

/-- A placed word is fetched high byte first. -/
theorem test_fetch_big_endian : fetch (board 0xA321 []) = .done 0xA321 (board 0xA321 []) := by rfl

end Decoding

section ControlFlow

/-- E13. -/
theorem test_ret :
    see { board 0x00EE [] with sp := 2, stack := State.reset.stack.set 1 0x30A } (fun t => (t.sp, t.pc, t.stack[1]?)) =
      some (1, 0x30A, some 0x30A) := by decide

/-- L2.2, SP = 0. -/
theorem test_ret_underflow :
    see (board 0x00EE []) (fun t => (t.sp, t.pc, t.fault)) = some (0, 0x200, some (.outOfRange .stackUnderflow)) := by decide

/-- L2.2. -/
theorem test_jp : see (board 0x1234 []) (·.pc) = some 0x234 := by decide

/-- L2.2: the step after `1FFF` fails on the second byte of the fetch. -/
theorem test_jp_to_last_byte :
    ((after (board 0x1FFF [])).bind after).map (fun t => (t.pc, t.fault)) = some (0xFFF, some (.outOfRange (.mem 0x1000))) := by decide

/-- L2.2, SP = 15. -/
theorem test_call :
    see { board 0x2300 [] with sp := 15 } (fun t => (t.sp, t.pc, t.stack[15]?)) = some (16, 0x300, some 0x202) := by decide

/-- L2.2, SP = 16. -/
theorem test_call_overflow :
    see { board 0x2300 [] with sp := 16 } (fun t => (t.sp, t.pc, t.fault)) =
      some (16, 0x200, some (.outOfRange .stackOverflow)) := by decide

/-- L2.2. -/
theorem test_seImm : see (board 0x3342 [(3, 0x42)]) (·.pc) = some 0x204 ∧ see (board 0x3342 [(3, 0x41)]) (·.pc) = some 0x202 := by
  decide

/-- L2.2. -/
theorem test_sneImm : see (board 0x4342 [(3, 0x42)]) (·.pc) = some 0x202 ∧ see (board 0x4342 [(3, 0x41)]) (·.pc) = some 0x204 := by
  decide

/-- L2.2. -/
theorem test_seReg : see (board 0x5120 [(1, 7), (2, 7)]) (·.pc) = some 0x204 ∧
    see (board 0x5120 [(1, 7), (2, 8)]) (·.pc) = some 0x202 := by decide

/-- L2.2. -/
theorem test_sneReg : see (board 0x9120 [(1, 7), (2, 7)]) (·.pc) = some 0x202 ∧
    see (board 0x9120 [(1, 7), (2, 8)]) (·.pc) = some 0x204 := by decide

/-- L2.2: no cut to 12 bits. -/
theorem test_jpV0_no_wrap : see (board 0xBFFF [(0, 0xFF)]) (·.pc) = some 0x10FE := by decide

/-- L2.2: always V0. -/
theorem test_jpV0_uses_v0 : see (board 0xBF00 [(0xF, 0x22)]) (·.pc) = some 0xF00 := by decide

end ControlFlow

section Alu

/-- E1. -/
theorem test_ldImm : see (board 0x643C [(4, 0x99)]) (fun t => (getV t 4, t.pc)) = some (0x3C, 0x202) := by decide

/-- E2. -/
theorem test_addImm_wraps_no_flag :
    see (board 0x7420 [(4, 0xF0), (0xF, 0x55)]) (fun t => (getV t 4, getV t vf)) = some (0x10, 0x55) := by decide

/-- L2.3. -/
theorem test_ldReg : see (board 0x8120 [(2, 0x33)]) (fun t => (getV t 1, getV t 2)) = some (0x33, 0x33) := by decide

/-- L2.3. -/
theorem test_orReg : see (board 0x8121 [(1, 0x0F), (2, 0xF0), (0xF, 0x55)]) (fun t => (getV t 1, getV t vf)) = some (0xFF, 0x55) := by
  decide

/-- L2.3. -/
theorem test_andReg : see (board 0x8122 [(1, 0x3C), (2, 0x0F)]) (fun t => getV t 1) = some 0x0C := by decide

/-- L2.3. -/
theorem test_xorReg : see (board 0x8123 [(1, 0x3C), (2, 0x0F)]) (fun t => getV t 1) = some 0x33 := by decide

/-- E3. -/
theorem test_addReg : see (board 0x8124 [(1, 0xFF), (2, 0x01)]) (fun t => (getV t 1, getV t vf)) = some (0, 1) := by decide

/-- L2.3, VF as Vx: the carry wins. -/
theorem test_addReg_vf : see (board 0x8F14 [(0xF, 0xF0), (1, 0x20)]) (fun t => getV t vf) = some 1 := by decide

/-- E4 and the strict comparison of L2.3. -/
theorem test_sub : see (board 0x8125 [(1, 3), (2, 5)]) (fun t => (getV t 1, getV t vf)) = some (0xFE, 0) ∧
    see (board 0x8125 [(1, 5), (2, 5)]) (fun t => (getV t 1, getV t vf)) = some (0, 0) := by decide

/-- L2.3, VF as an operand, both readings. -/
theorem test_sub_vf :
    see (board 0x81F5 [(1, 5), (0xF, 3)]) (fun t => (getV t 1, getV t vf)) = some (4, 1) ∧
    see (snapshot (board 0x81F5 [(1, 5), (0xF, 3)])) (fun t => (getV t 1, getV t vf)) = some (2, 1) := by decide

/-- L2.3: Y is ignored. -/
theorem test_shr : see (board 0x8126 [(1, 0x05), (2, 0x77)]) (fun t => (getV t 1, getV t vf, getV t 2)) = some (0x02, 1, 0x77) := by
  decide

/-- L2.3, VF as an operand, both readings. -/
theorem test_shr_vf : see (board 0x8F06 [(0xF, 3)]) (fun t => getV t vf) = some 0 ∧
    see (snapshot (board 0x8F06 [(0xF, 3)])) (fun t => getV t vf) = some 1 := by decide

/-- L2.3. -/
theorem test_subn : see (board 0x8127 [(1, 3), (2, 5)]) (fun t => (getV t 1, getV t vf)) = some (2, 1) := by decide

/-- L2.3, VF as an operand, both readings. -/
theorem test_subn_vf :
    see (board 0x81F7 [(1, 3), (0xF, 5)]) (fun t => (getV t 1, getV t vf)) = some (0xFE, 1) ∧
    see (snapshot (board 0x81F7 [(1, 3), (0xF, 5)])) (fun t => (getV t 1, getV t vf)) = some (2, 1) := by decide

/-- L2.3. -/
theorem test_shl : see (board 0x810E [(1, 0x81)]) (fun t => (getV t 1, getV t vf)) = some (2, 1) := by decide

/-- L2.3, VF as an operand, both readings. -/
theorem test_shl_vf : see (board 0x8F0E [(0xF, 0x81)]) (fun t => getV t vf) = some 2 ∧
    see (snapshot (board 0x8F0E [(0xF, 0x81)])) (fun t => getV t vf) = some 1 := by decide

/-- L2.3: 0 for every random byte. -/
theorem test_rnd_zero_mask (s : State) : ∃ t, exec (.rnd 1 0) s = .next t ∧ getV t 1 = 0 :=
  ⟨_, rfl, by simp⟩

/-- One draw per RND. -/
theorem test_rnd_counts_draw : see (board 0xC10F []) (fun t => (t.draws, t.pc)) = some (1, 0x202) := by decide

end Alu

section IndexMemory

/-- L2.4. -/
theorem test_ldI : see (board 0xA300 []) (·.i) = some 0x300 := by decide

/-- L2.4: 16-bit wrap. -/
theorem test_addI_wraps : see { board 0xF11E [(1, 2)] with i := 0xFFFF } (·.i) = some 0x0001 := by decide

/-- L2.4: no flag above 0xFFF. -/
theorem test_addI_no_flag : see { board 0xF11E [(1, 2), (0xF, 0x55)] with i := 0x0FFF } (fun t => (t.i, getV t vf)) =
    some (0x1001, 0x55) := by decide

/-- L2.4, E6. -/
theorem test_ldF : see (board 0xF529 [(5, 0x0F)]) (·.i) = some 0x09B := by decide

/-- L2.4: a digit above 0xF. -/
theorem test_ldF_raises : see { board 0xF529 [(5, 0x1A)] with i := 0x123 } (fun t => (t.i, t.pc, t.fault)) =
    some (0x123, 0x200, some (.outOfRange (.fontDigit 0x1A))) := by decide

/-- L2.4. -/
theorem test_ldB : see { board 0xF033 [(0, 0xFF)] with i := 0x300 } (fun t => (bytesAt t 0x300 3, t.i)) =
    some ([2, 5, 5], 0x300) := by decide

/-- L2.4: the first two digits stay. -/
theorem test_ldB_partial : see { board 0xF033 [(0, 0xFE)] with i := 0xFFE } (fun t => (bytesAt t 0xFFE 2, t.i, t.fault)) =
    some ([2, 5], 0xFFE, some (.outOfRange (.mem 0x1000))) := by decide

/-- L2.4. -/
theorem test_ldMemVx : see { board 0xF255 [(0, 1), (1, 2), (2, 3)] with i := 0x300 } (fun t => (bytesAt t 0x300 3, t.i)) =
    some ([1, 2, 3], 0x303) := by decide

/-- L2.4: two registers stored, I at the failing address. -/
theorem test_ldMemVx_partial :
    see { board 0xF255 [(0, 1), (1, 2), (2, 3)] with i := 0xFFE } (fun t => (bytesAt t 0xFFE 2, t.i, t.pc, t.fault)) =
      some ([1, 2], 0x1000, 0x200, some (.outOfRange (.mem 0x1000))) := by decide

/-- L2.4, the first three and the last of the loaded registers. -/
theorem test_ldVxMem : see (bytes 0x300 [0x00, 0x11, 0x22] { board 0xF265 [(3, 0x77)] with i := 0x300 })
    (fun t => (getV t 0, getV t 1, getV t 2, getV t 3, t.i)) = some (0x00, 0x11, 0x22, 0x77, 0x303) := by decide

/-- L2.4: V0 loaded, V1 kept. -/
theorem test_ldVxMem_partial : see (bytes 0xFFF [0xAA] { board 0xF165 [(1, 0x77)] with i := 0xFFF })
    (fun t => (getV t 0, getV t 1, t.i, t.fault)) = some (0xAA, 0x77, 0x1000, some (.outOfRange (.mem 0x1000))) := by decide

end IndexMemory

section Display

/-- E5, first draw, with the edges of the glyph's first row. -/
theorem test_drw : see { board 0xD121 [(0xF, 9)] with i := 0x050 }
    (fun t => (pixelAt t.params t.pix 0 0, pixelAt t.params t.pix 3 0, pixelAt t.params t.pix 4 0, getV t vf)) =
      some (true, true, false, 0) := by decide

/-- L2.5: two rows drawn before the failing read; VF and PC unchanged. -/
theorem test_drw_partial : see (bytes 0xFFE [0x80, 0x80] { board 0xD123 [(0xF, 0x55)] with i := 0xFFE })
    (fun t => (pixelAt t.params t.pix 0 0, pixelAt t.params t.pix 0 1, getV t vf, t.pc, t.fault)) =
      some (true, true, 0x55, 0x200, some (.outOfRange (.mem 0x1000))) := by decide

/-- L2.5: coordinates wrap (200 mod 64 = 8, 33 mod 32 = 1). -/
theorem test_flip_wraps : pixelAt defaultParams (flipBit defaultParams 200 33 true (clearPix defaultParams)).1 8 1 = true ∧
    (flipBit defaultParams 200 33 true (clearPix defaultParams)).2 = false := by decide

/-- L2.5: all off, VF unchanged. -/
theorem test_cls : see { board 0x00E0 [(0xF, 1)] with pix := setPixel defaultParams (clearPix defaultParams) 5 6 true }
    (fun t => (pixelAt t.params t.pix 5 6, getV t vf, t.pc)) = some (false, 1, 0x202) := by decide

end Display

section KeysTimers

/-- L2.6. -/
theorem test_skp : see { board 0xE09E [(0, 5)] with keys := State.reset.keys.set 5 true } (·.pc) = some 0x204 ∧
    see (board 0xE09E [(0, 5)]) (·.pc) = some 0x202 := by decide

/-- L2.6. -/
theorem test_sknp : see { board 0xE0A1 [(0, 5)] with keys := State.reset.keys.set 5 true } (·.pc) = some 0x202 ∧
    see (board 0xE0A1 [(0, 5)]) (·.pc) = some 0x204 := by decide

/-- L2.6: key index 0x10. -/
theorem test_sknp_raises : see (board 0xE0A1 [(0, 0x10)]) (fun t => (t.pc, t.fault)) =
    some (0x200, some (.outOfRange (.keyIndex 0x10))) := by decide

/-- L2.6. -/
theorem test_ldVxDt : see { board 0xF307 [] with dt := 0x3C } (fun t => getV t 3) = some 0x3C := by decide

/-- L2.6. -/
theorem test_ldDtVx : see (board 0xF315 [(3, 0x3C)]) (·.dt) = some 0x3C := by decide

/-- L2.6: the tone does not change at once. -/
theorem test_ldStVx : see (board 0xF118 [(1, 5)]) (fun t => (t.st, t.tone)) = some (5, false) := by decide

/-- L2.6: a held key does not end the wait. -/
theorem test_ldVxK : see { board 0xF30A [] with keys := State.reset.keys.set 3 true } (fun t => (t.mode, t.pc)) =
    some (.awaitingKey 3, 0x202) := by decide

end KeysTimers

section OtherParameters

/-- R65, R67: the glyph's address and its bytes follow FONT_BASE, GLYPH_BYTES and FONT_TABLE (0x3A0 + 6 * 0xF = 0x3FA). -/
theorem test_other_font : see (otherBoard 0xF529 [(5, 0x0F)]) (fun t => (t.i, t.pc, bytesAt t 0x39F 2, bytesAt t 0x3FF 2)) =
    some (0x3FA, 0x102, [0x00, 0x81], [0x81, 0x00]) := by decide

/-- R61: the bound is MEM_SIZE. -/
theorem test_other_bound : see { otherBoard 0xF165 [] with i := 0x3FF } (fun t => (getV t 0, t.i, t.fault)) =
    some (0x81, 0x400, some (.outOfRange (.mem 0x400))) := by decide

/-- R29: the stack is full at STACK_DEPTH. -/
theorem test_other_stack : see { otherBoard 0x2300 [] with sp := 1 } (fun t => (t.sp, t.stack[1]?)) = some (2, some 0x102) ∧
    see { otherBoard 0x2300 [] with sp := 2 } (·.fault) = some (some (.outOfRange .stackOverflow)) := by decide

/-- R232: a sprite of one row, 0x81, at (17, 31) wraps to column 8 and its last bit to column 6, row 15. -/
theorem test_other_display : see { otherBoard 0xD121 [(1, 17), (2, 31)] with i := 0x3A0 }
    (fun t => (pixelAt t.params t.pix 8 15, pixelAt t.params t.pix 6 15, pixelAt t.params t.pix 7 15)) = some (true, true, false) := by
  decide

/-- R162: the other reading. -/
theorem test_other_reading : see (otherBoard 0x8F06 [(0xF, 3)]) (fun t => getV t vf) = some 1 := by decide

/-- R350: reset keeps the parameters and takes PC to their PROGRAM_START. -/
theorem test_other_reset : (afterTr .reset { otherBoard 0x1000 [] with pc := 0x123 }).map (fun t => (t.pc, t.params)) =
    some (0x100, otherParams) := by decide

end OtherParameters

section Transactions

/-- L2.7, the two fetch failures. -/
theorem test_fetch_bounds : see { State.reset with pc := 0xFFF } (fun t => (t.pc, t.fault)) =
    some (0xFFF, some (.outOfRange (.mem 0x1000))) ∧
    see { State.reset with pc := 0x1000 } (fun t => (t.pc, t.fault)) = some (0x1000, some (.outOfRange (.mem 0x1000))) := by decide

/-- L2.7: an invalid opcode, its fault record and its status code. -/
theorem test_invalid_opcode : see (board 0x5121 []) (fun t => (t.pc, t.fault, statusCode t.fault)) =
    some (0x200, some (.invalidOpcode 0x5121), 2) := by decide

/-- L2.7: a faulted machine takes no tick. -/
theorem test_faulted_tick : afterTr .timerStep { State.reset with fault := some (.invalidOpcode 0x5121), st := 5 } = none := by decide

/-- L2.7: reset clears the fault record and program memory. -/
theorem test_reset_clears : (afterTr .reset { board 0x5121 [(1, 9)] with fault := some (.invalidOpcode 0x5121), sp := 3 }).map
    (fun t => (t.fault, byteAt t 0x200, getV t 1, t.sp, t.pc)) = some (none, 0, 0, 0, 0x200) := by decide

/-- L2.7: the first glyph of the default font. -/
theorem test_font_at_reset : readMem State.reset 0x050 5 = .ok [0xF0, 0x90, 0x90, 0x90, 0xF0] := by decide

/-- L2.7: accessor bounds. -/
theorem test_accessor_bounds : readStack State.reset 16 = .error .outOfRange ∧ readV State.reset 16 = .error .outOfRange ∧
    readMem State.reset 0xFFF 2 = .error .outOfRange ∧ readMem State.reset 0xFFF 1 = .ok [0] := by decide

/-- E9: St = 5 goes to 4 with the tone on, and St = 1 to 0 with the tone off. -/
theorem test_timer_tone : (afterTr .timerStep { State.reset with st := 5 }).map (fun t => (t.st, t.tone)) = some (4, true) ∧
    (afterTr .timerStep { State.reset with st := 1, tone := true }).map (fun t => (t.dt, t.st, t.tone)) = some (0, 0, false) := by
  decide

/-- E8: the key event ends the wait. -/
theorem test_key_resolves : (afterTr (.handleKey 7 true) { State.reset with mode := .awaitingKey 3, pc := 0x202 }).map
    (fun t => (getV t 3, t.mode, t.pc, t.keys[7])) = some (7, .running, 0x202, true) := by decide

/-- L2.6: key 16 is refused and no fault record is set. -/
theorem test_key_refused : handleKey 16 true State.reset = (State.reset, some (.outOfRange (.keyIndex 16))) := by decide

/-- L2.6: no fetch while waiting. -/
theorem test_waiting_step : see { State.reset with mode := .awaitingKey 2, pc := 0x2000 } (fun t => (t.pc, t.fault, t.mode)) =
    some (0x2000, none, .awaitingKey 2) := by decide

/-- E14. -/
theorem test_writeBulk : (writeBulk 0xFFE [1, 2, 3, 4] State.reset).2 = (some (.outOfRange (.mem 0x1000)), 2) ∧
    bytesAt (writeBulk 0xFFE [1, 2, 3, 4] State.reset).1 0xFFE 2 = [1, 2] := by decide

/-- A pending host transaction is performed first, and is then gone (log 5). -/
theorem test_inbox : see { State.reset with dt := 9, inbox := [.timerStep, .reset] } (fun t => (t.dt, t.inbox)) =
    some (8, [.reset]) := by decide

/-- R311: a host that never steps, endless ticks: each tick leaves the same schedule. -/
theorem test_endless_ticks : ((after { State.reset with dt := 9, plan := .repeating [.timerStep] }).bind after).map
    (fun t => (t.dt, t.pc, t.inbox, t.plan)) = some (7, 0x200, [], .repeating [.timerStep]) := by decide

/-- R311: a tick after every second step, for ever. -/
theorem test_repeating_pattern : see { State.reset with dt := 9, plan := .repeating [.timerStep, .step, .step] }
    (fun t => (t.dt, t.inbox)) = some (8, [.step, .step]) := by decide

/-- R311: a host that issues nothing. -/
theorem test_idle_host : step { State.reset with plan := .repeating [] } = .next { State.reset with plan := .repeating [] } := rfl

end Transactions

section Witnesses

/-- The state after reset with the address register set; its parameters and sizes are those of reset. -/
abbrev atI (w : Word) : State := { State.reset with i := w }

/-- MEM_SIZE of the state after reset. -/
abbrev top : Nat := State.reset.params.memSize

/-- STACK_DEPTH of the state after reset. -/
abbrev depth : Nat := State.reset.params.stackDepth

/-- A state with a fault record. -/
def faulted : State := { State.reset with fault := some (.invalidOpcode 0x5121) }

/-- A state in the key wait. -/
def waiting : State := { State.reset with mode := .awaitingKey 0xF }

theorem shaped_reset : Shaped State.reset := ⟨by decide, rfl, by decide⟩

theorem shaped_other : Shaped (State.resetWith otherParams) := ⟨by decide, rfl, by decide⟩

theorem witness_EncodeOfDecode : decode 0x8AB6#16 = .ok (.shr 0xA 0xB) ∧ decode 0x00E0#16 = .ok .cls := by decide

theorem witness_DecodeAgreesWithOpcodeTable : decode 0xFF65#16 = .ok (.ldVxMem 0xF) ∧ wordWf 0xFF65#16 = true ∧
    wordWf 0xFF66#16 = false := by decide

/-- A word at a boundary of every class of invalid words, and its valid neighbour; a state that fetches one. -/
theorem witness_InvalidWordsByClass :
    ((board 0x5121 []).fault = none ∧ (board 0x5121 []).mode = .running ∧
      fetch (board 0x5121 []) = .done 0x5121 (board 0x5121 []) ∧ decode 0x5121#16 = .error (.invalidOpcode 0x5121)) ∧
    (refused 0x00DF && refused 0x00E1 && refused 0x00EF && refused 0x5FF1 && refused 0x900F && refused 0x8008 && refused 0x800D &&
      refused 0x800F && refused 0xE09D && refused 0xE0A2 && refused 0xF006 && refused 0xF066) = true ∧
    (wordWf 0x00E0 && wordWf 0x00EE && wordWf 0x5FF0 && wordWf 0x9000 && wordWf 0x8007 && wordWf 0x800E && wordWf 0xE09E &&
      wordWf 0xE0A1 && wordWf 0xF007 && wordWf 0xF065) = true :=
  ⟨⟨rfl, rfl, rfl, by decide⟩, by decide, by decide⟩

/-- Each clause: a fault record; waiting; a fetch that raises; an invalid word; a valid one; and a turn that is `step()` from a pending
list and from a repeated one. -/
theorem witness_StepRunsDecodedInstruction :
    faulted.fault ≠ none ∧ (waiting.fault = none ∧ waiting.mode = .awaitingKey 0xF) ∧
    (∃ s : State, s.fault = none ∧ s.mode = .running ∧ fetch s = .raised (.outOfRange (.mem 0x1000)) s) ∧
    (∃ s : State, s.fault = none ∧ s.mode = .running ∧ fetch s = .done 0x5121 s ∧
      decode 0x5121#16 = .error (.invalidOpcode 0x5121)) ∧
    (∃ s : State, s.fault = none ∧ s.mode = .running ∧ fetch s = .done 0x8125 s ∧ decode 0x8125#16 = .ok (.sub 1 2)) ∧
    hostTurn { State.reset with inbox := [.step, .timerStep] } = (some .step, { State.reset with inbox := [.timerStep] }) ∧
    hostTurn State.reset = (some .step, State.reset) :=
  ⟨by decide, ⟨rfl, rfl⟩, ⟨{ State.reset with pc := 0xFFF }, rfl, rfl, rfl⟩, ⟨board 0x5121 [], rfl, rfl, rfl, by decide⟩,
    ⟨board 0x8125 [], rfl, rfl, rfl, by decide⟩, rfl, rfl⟩

/-- PC at the last place with room, at MEM_SIZE - 1, at MEM_SIZE. -/
theorem witness_FetchReadsBigEndian : { State.reset with pc := 0xFFE }.pc.toNat + 1 < top ∧
    { State.reset with pc := 0xFFF }.pc.toNat + 1 = top ∧ top ≤ { State.reset with pc := 0x1000 }.pc.toNat := by decide

/-- A pending transaction; a repeated list; an empty one; a free plan. -/
theorem witness_HostScheduleTurns : { State.reset with inbox := [.reset, .step] }.inbox = .reset :: [.step] ∧
    (State.reset.inbox = [] ∧ State.reset.plan = .repeating (.step :: [])) ∧
    ({ State.reset with plan := .repeating [] }.inbox = [] ∧ { State.reset with plan := .repeating [] }.plan = .repeating []) ∧
    ({ State.reset with plan := .free 0 }.inbox = [] ∧ { State.reset with plan := .free 0 }.plan = .free 0) :=
  ⟨rfl, ⟨rfl, rfl⟩, ⟨rfl, rfl⟩, ⟨rfl, rfl⟩⟩

/-- The last address, and the first that does not exist. -/
theorem witness_MemoryReadWriteBounds : 0xFFF < top ∧ top ≤ 0x1000 ∧ (0xFFE : Nat) ≠ 0xFFF := by decide

theorem witness_StoreIsFetchedNext : { State.reset with pc := 0xFFE }.pc.toNat + 1 < top := by decide

theorem witness_AwaitingStepDoesNothing : waiting.fault = none ∧ waiting.mode = .awaitingKey 0xF := ⟨rfl, rfl⟩

/-- A state that meets the invariant with an occupied stack, and has a next state. -/
theorem witness_EveryStepKeepsInvariant : ∃ s t : State, s.sp = 15 ∧ StateInv s ∧ step s = .next t :=
  ⟨{ board 0x2300 [] with sp := 15 }, _, rfl, ⟨shaped_reset, by decide, by decide, by decide, by decide, by decide⟩, rfl⟩

theorem witness_FaultDisablesTransactions : faulted.fault ≠ none ∧ Transaction.step ≠ .reset := by decide

/-- A failing instruction of each shape: no partial effect, and some. -/
theorem witness_FailedInstructionCommitsOnlyListed :
    (∃ t, Shaped State.reset ∧ State.reset.fault = none ∧ exec .ret State.reset = .next t ∧
      t.fault = some (.outOfRange .stackUnderflow)) ∧
    ∃ s t : State, Shaped s ∧ s.fault = none ∧ exec (.ldMemVx 2) s = .next t ∧ t.fault = some (.outOfRange (.mem 0x1000)) :=
  ⟨⟨_, shaped_reset, rfl, rfl, rfl⟩, (atI 0xFFE), _, shaped_reset, rfl, rfl, rfl⟩

/-- A register outside the Writes column; register files that agree on the Reads column and differ elsewhere; an instruction that
stops. -/
theorem witness_RegisterMatrix :
    (∃ t, exec (.addReg 1 2) State.reset = .next t ∧ writesV (.addReg 1 2) 3 = false) ∧
    (∃ v' : Vector Byte 16, v' ≠ State.reset.v ∧
      ∀ r, readsV (.addReg 1 2) r = true → getV { State.reset with v := v' } r = getV State.reset r) ∧
    (∃ (s : State) (f : Fault), exec .ret s = .fault f ∧
      ∀ r, readsV .ret r = true → getV { s with v := State.reset.v } r = getV s r) ∧
    waiting.mode = .awaitingKey 0xF :=
  ⟨⟨_, rfl, by decide⟩, ⟨(setV State.reset 3 9).v, by decide, by decide⟩, ⟨{ State.reset with sp := 18 }, _, rfl, by decide⟩, rfl⟩

/-- Each clause: a success; a failed step; a step in the wait. -/
theorem witness_ProgramCounterTable :
    (∃ t, exec (.jpV0 0xFFF) State.reset = .next t ∧ t.fault = none) ∧
    (∃ t, State.reset.fault = none ∧ transact .step State.reset = .next t ∧ t.fault ≠ none) ∧
    (∃ t, waiting.mode = .awaitingKey 0xF ∧ transact .step waiting = .next t) :=
  ⟨⟨_, rfl, rfl⟩, ⟨_, rfl, rfl, by decide⟩, ⟨_, rfl, rfl⟩⟩

/-- A tick that changes Tone, and a key event that changes Keys. -/
theorem witness_ToneAndKeysWriters :
    (∃ s t : State, transact .timerStep s = .next t ∧ t.tone ≠ s.tone) ∧
    ∃ s t : State, transact (.handleKey 0xF true) s = .next t ∧ t.keys ≠ s.keys :=
  ⟨⟨{ State.reset with st := 2 }, _, rfl, by decide⟩, State.reset, _, rfl, by decide⟩

/-- SP at 1 and at STACK_DEPTH. -/
theorem witness_ReturnPopsStack : Shaped State.reset ∧ { State.reset with sp := 1 }.sp.toNat = 0 + 1 ∧ State.reset.stack[0]? = some 0 ∧
    { State.reset with sp := 16 }.sp.toNat = 15 + 1 ∧ State.reset.stack[15]? = some 0 := ⟨shaped_reset, by decide⟩

/-- SP at 0 and at STACK_DEPTH - 1. -/
theorem witness_CallPushesReturnAddress : Shaped State.reset ∧ State.reset.sp.toNat < depth ∧
    { State.reset with sp := 15 }.sp.toNat < depth := ⟨shaped_reset, by decide⟩

theorem witness_StackLimitsRaise : { State.reset with sp := 16 }.sp.toNat = depth ∧ State.reset.sp = 0 := by
  decide

theorem witness_CallThenReturn : Shaped State.reset ∧ { State.reset with sp := 15 }.sp.toNat < depth :=
  ⟨shaped_reset, by decide⟩

/-- A target at MEM_SIZE - 1, one at MEM_SIZE (of other parameters), and a jump to itself. -/
theorem witness_JumpSetsPc : (0xFFF#12).toNat + 1 = top ∧
    (State.resetWith otherParams).params.memSize ≤ (0x400#12).toNat ∧ State.reset.pc.toNat = (0x200#12).toNat := by decide

/-- The last valid key number, and the first above it. -/
theorem witness_KeySkips : (getV (regs [(3, 0xF)] State.reset) 3).toNat < 16 ∧ 16 ≤ (getV (regs [(3, 0x10)] State.reset) 3).toNat := by
  decide

theorem witness_AddWithCarry : (0xE#4 : RegIdx) ≠ vf ∧ (getV (regs [(1, 0xFF), (2, 1)] State.reset) 1).toNat +
    (getV (regs [(1, 0xFF), (2, 1)] State.reset) 2).toNat > 255 := by decide

/-- Both readings occur. -/
theorem witness_SubtractUnderBothReadings : State.reset.params.aluVfReading = .sequential ∧
    (snapshot State.reset).params.aluVfReading = .snapshotFlagLast := by decide

theorem witness_ShiftUnderBothReadings : State.reset.params.aluVfReading = .sequential ∧
    (State.resetWith otherParams).params.aluVfReading = .snapshotFlagLast := by decide

/-- Each row of the table runs. -/
theorem witness_VfOperandTable : (0#4 : RegIdx) ≠ vf ∧ (0xE#4 : RegIdx) ≠ vf ∧ ∃ t1 t2 t3 t4 t5 t6 t7 u : State,
    exec (.sub vf 0) State.reset = .next t1 ∧ exec (.sub 0xE vf) State.reset = .next t2 ∧ exec (.subn vf 0) State.reset = .next t3 ∧
    exec (.subn 0xE vf) State.reset = .next t4 ∧ exec (.sub vf vf) State.reset = .next t5 ∧ exec (.shr vf 0) State.reset = .next t6 ∧
    exec (.shl vf 0) State.reset = .next t7 ∧ exec (.sub 0xE 0) (snapshot State.reset) = .next u :=
  ⟨by decide, by decide, _, _, _, _, _, _, _, _, rfl, rfl, rfl, rfl, rfl, rfl, rfl, rfl⟩

/-- The last digit that has a glyph, and the first that has none. -/
theorem witness_FontPointer : State.reset.params.wf = true ∧ (getV (regs [(5, 0xF)] State.reset) 5).toNat ≤ 0xF ∧
    0xF < (getV (regs [(5, 0x10)] State.reset) 5).toNat := by decide

theorem witness_BcdStore : dataAddr (atI 0xFFD) 0 + 2 < top := by decide

/-- The first digit that fails is digit 0, 1 or 2. -/
theorem witness_BcdStoreStops :
    (top ≤ dataAddr (atI 0x1000) 0 + 0 ∧ ∀ k < 0, dataAddr (atI 0x1000) 0 + k < top) ∧
    (top ≤ dataAddr (atI 0xFFF) 0 + 1 ∧ ∀ k < 1, dataAddr (atI 0xFFF) 0 + k < top) ∧
    (top ≤ dataAddr (atI 0xFFE) 0 + 2 ∧ ∀ k < 2, dataAddr (atI 0xFFE) 0 + k < top) := by
  decide

/-- One register at the last byte, and all 16 up to it. -/
theorem witness_StoreRegisters : State.reset.params.wf = true ∧ (atI 0xFFF).i.toNat + (0#4).toNat < top ∧
    (atI 0xFF0).i.toNat + (0xF#4).toNat < top := by decide

/-- The first register fails, and the last of 16 fails. -/
theorem witness_StoreRegistersStops : State.reset.params.wf = true ∧
    (0 ≤ (0#4).toNat ∧ top ≤ (atI 0x1000).i.toNat + 0) ∧
    (15 ≤ (0xF#4).toNat ∧ top ≤ (atI 0xFF1).i.toNat + 15 ∧
      ∀ k < 15, (atI 0xFF1).i.toNat + k < top) := by decide

/-- All 16 up to the last byte; the first fails; the last of 16 fails. -/
theorem witness_LoadRegisters : State.reset.params.wf = true ∧
    (atI 0xFF0).i.toNat + (0xF#4).toNat < top ∧
    (0 ≤ (0#4).toNat ∧ top ≤ (atI 0x1000).i.toNat + 0) ∧
    (15 ≤ (0xF#4).toNat ∧ top ≤ (atI 0xFF1).i.toNat + 15 ∧
      ∀ k < 15, (atI 0xFF1).i.toNat + k < top) := by decide

/-- A pixel that differs in its column only, and one that differs in its row only. -/
theorem witness_FlipBitXors : defaultParams.wf = true ∧ Pix.wf defaultParams (clearPix defaultParams) = true ∧
    64 % defaultParams.displayW ≠ 1 % defaultParams.displayW ∧ 32 % defaultParams.displayH ≠ 31 % defaultParams.displayH := by decide

/-- No row at an address that does not exist, and 15 rows up to the last byte; a collision and none. -/
theorem witness_DrawSprite : Shaped State.reset ∧ (∀ k < (0#4).toNat, (atI 0xFFFF).i.toNat + k < top) ∧
    (∀ k < (0xF#4).toNat, (atI 0xFF1).i.toNat + k < top) ∧
    Collides defaultParams (setPixel defaultParams (clearPix defaultParams) 63 31 true) (fun _ => 0x80) 1 63 31 ∧
    ¬Collides defaultParams (clearPix defaultParams) (fun _ => 0x80) 0 0 0 :=
  ⟨shaped_reset, by decide, by decide, ⟨63, 31, by decide, by decide, by decide, by decide⟩, fun ⟨_, _, _, _, _, h⟩ => by simp [spriteBit] at h⟩

/-- The first row fails, and the last of 15 fails. -/
theorem witness_DrawSpriteStops : Shaped State.reset ∧
    (0 < (1#4).toNat ∧ top ≤ (atI 0x1000).i.toNat + 0) ∧
    (14 < (0xF#4).toNat ∧ top ≤ (atI 0xFF2).i.toNat + 14 ∧
      ∀ k < 14, (atI 0xFF2).i.toNat + k < top) := ⟨shaped_reset, by decide⟩

/-- A clear screen and a sprite (the font's first row) with some set bit. -/
theorem witness_DrawTwiceErases : Shaped State.reset ∧ (0#4 : RegIdx) ≠ vf ∧ (0xE#4 : RegIdx) ≠ vf ∧
    (∀ k < (1#4).toNat, (atI 0x050).i.toNat + k < top) ∧ 
    (∀ px py, pixelAt State.reset.params State.reset.pix px py = false) ∧
    ∃ k < (1#4).toNat, spriteBytes (atI 0x050) k ≠ 0 :=
  ⟨shaped_reset, by decide, by decide, by decide, pixelAt_clearPix, 0, by decide, by decide⟩

/-- And an instruction at PC that the next step executes. -/
theorem witness_KeyDownResolvesWait : waiting.fault = none ∧ waiting.mode = .awaitingKey 0xF ∧ 15 < 16 ∧
    ∃ s t : State, s.fault = none ∧ s.mode = .awaitingKey 0xF ∧ transact (.handleKey 15 true) s = .next t ∧
      fetch t = .done 0x6A07 t ∧ decode 0x6A07#16 = .ok (.ldImm 0xA 0x07) :=
  ⟨rfl, rfl, by decide, { board 0x6A07 [] with mode := .awaitingKey 0xF }, _, rfl, rfl, rfl, rfl, by decide⟩

theorem witness_KeyEvents : State.reset.fault = none ∧ 16 ≤ 16 ∧ 15 < 16 ∧ State.reset.mode = .running ∧ (14 : Nat) ≠ 15 := by decide

theorem witness_TimerTick : State.reset.fault = none ∧ faulted.fault ≠ none := by decide

/-- Bytes up to the last address, and one more. -/
theorem witness_BulkLoad : State.reset.fault = none ∧ (∀ k < [1#8, 2#8].length, 0xFFE + k < top) ∧
    (2 < [1#8, 2#8, 3#8].length ∧ (∀ k < 2, 0xFFE + k < top) ∧ top ≤ 0xFFE + 2) := by decide

/-- Both ends outside the font table. -/
theorem witness_ResetState : faulted.params.wf = true ∧ 15 < faulted.params.stackDepth ∧ 79 < faulted.params.fontTable.length ∧
    0x04F < faulted.params.fontBase ∧ faulted.params.fontBase + faulted.params.fontTable.length ≤ 0x0A0 := by decide

theorem witness_ResetMeetsInvariant : defaultParams.wf = true ∧ otherParams.wf = true := by decide

/-- The largest image. -/
theorem witness_LaunchState : ImageFits defaultParams (List.replicate 3584 0xFF) := by
  unfold ImageFits
  rw [List.length_replicate]
  decide

theorem witness_FinalStateIsFixed : IsFinal (board 0x1200 []) :=
  ⟨rfl, rfl, by decide, 0x200, by decide, by decide⟩

/-- Every bound at its edge. -/
theorem witness_Accessors : 15 < 16 ∧ 16 ≤ 16 ∧ 15 < depth ∧ depth ≤ 16 ∧ 0xFFF + 1 ≤ top ∧ top < 0xFFF + 2 := by
  decide

end Witnesses

end Sys2Proof.Tests
end

section
/-!
The registers as a whole, and what the end of an instruction hands on: the lemmas that the register matrix (10_state.md R22) and the
PC table (R25) both need.
-/

namespace Sys2Proof.Machine

theorem getV_congr {s t : State} (h : t.v = s.v) (r : RegIdx) : getV t r = getV s r := by
  simp only [getV, h]

@[simp] theorem getV_skipIf (c : Bool) (s : State) (r : RegIdx) : getV (skipIf c s) r = getV s r := by
  rw [skipIf_eq, getV_jumpTo]

theorem writeFlagged_pc (flag result : Byte → Byte → Byte) (x y : RegIdx) (s : State) :
    (writeFlagged flag result x y s).pc = s.pc := by
  rw [writeFlagged_eq, setRegs_pc]

theorem writeFlagged_fault (flag result : Byte → Byte → Byte) (x y : RegIdx) (s : State) :
    (writeFlagged flag result x y s).fault = s.fault := by
  rw [writeFlagged_eq, setRegs_fault]

/-- Under either reading, a flagged write leaves the registers other than Vx and VF. -/
theorem getV_writeFlagged_other {flag result : Byte → Byte → Byte} {x y r : RegIdx} {s : State} (hx : r ≠ x) (hf : r ≠ vf) :
    getV (writeFlagged flag result x y s) r = getV s r := by
  cases h : s.params.aluVfReading with
  | sequential => simp [getV_writeFlagged_sequential _ _ _ _ _ _ h, hx, hf]
  | snapshotFlagLast => simp [getV_writeFlagged_snapshot _ _ _ _ _ _ h, hx, hf]

theorem fontGlyphPointer_leaves (d : Byte) (s : State) : (fontGlyphPointer d s).Leaves (· = s) := by
  rcases fontGlyphPointer_cases d s with ⟨_, h⟩ | ⟨_, h⟩ <;> rw [h] <;> rfl

theorem keyFlag_leaves (k : Byte) (s : State) : (keyFlag k s).Leaves (· = s) := by
  rcases keyFlag_cases k s with ⟨_, h⟩ | ⟨_, h⟩ <;> rw [h] <;> rfl

theorem zextAddr_toNat (nnn : Addr12) : (zextAddr nnn).toNat = nnn.toNat := by
  unfold zextAddr
  bv_omega

/-- V0 + NNN fits 16 bits (40_control_flow.md R139). -/
theorem computedTarget_toNat (base : Byte) (nnn : Addr12) : (computedTarget base nnn).toNat = base.toNat + nnn.toNat := by
  unfold computedTarget
  bv_omega

theorem Txn.Leaves.mono {α : Type} {P Q : State → Prop} {T : Txn α} (h : T.Leaves P) (hPQ : ∀ t, P t → Q t) : T.Leaves Q := by
  cases T with
  | done _ u => exact hPQ u h
  | raised _ u => exact hPQ u h
  | stuck _ => exact h

/-- An instruction whose statements leave a state with `P` ends in one of two ways: its last statements, or the error taken. -/
theorem Txn.Leaves.finish_cases {α : Type} {P : State → Prop} {T : Txn α} {k : α → State → State} {t : State} (hT : T.Leaves P)
    (h : T.finish k = .next t) : (∃ a u, P u ∧ t = k a u) ∨ ∃ e u, P u ∧ t = setFault (some e) u := by
  cases T with
  | done a u => cases h; exact .inl ⟨a, u, hT, rfl⟩
  | raised e u => cases h; exact .inr ⟨e, u, hT, rfl⟩
  | stuck _ => exact hT.elim

end Sys2Proof.Machine
end

section
/-!
The PC table (10_state.md R25): an instruction that succeeds leaves the fault record and the PC of its row; one that raises leaves
PC.
-/

namespace Sys2Proof.Machine

/-- How an instruction's end shows in PC and the fault record: a success with `Q`, or an error taken with PC unchanged. -/
def SucceedsOrRaises (Q : Prop) (s t : State) : Prop := (t.fault = s.fault ∧ Q) ∨ (t.fault ≠ none ∧ t.pc = s.pc)

theorem succeedsOrRaises_raise (Q : Prop) (e : StepError) (s : State) : SucceedsOrRaises Q s (setFault (some e) s) :=
  .inr ⟨Option.some_ne_none e, rfl⟩

/-- A skip's two PCs (40_control_flow.md R134). -/
theorem skipsOn_skipIf {c : Bool} {P : Prop} (s : State) (h : c = true ↔ P) : SkipsOn P s (skipIf c s) := by
  rw [skipIf_eq]
  exact ⟨fun hP => by simp [h.mpr hP], fun hP => by simp [mt h.mp hP]⟩

theorem succeedsOrRaises_skipIf {c : Bool} {P : Prop} (s : State) (h : c = true ↔ P) :
    SucceedsOrRaises (SkipsOn P s (skipIf c s)) s (skipIf c s) :=
  .inl ⟨by rw [skipIf_eq]; rfl, skipsOn_skipIf s h⟩

/-- An instruction whose statements keep PC and the fault record, and whose last statement is `advance()`. -/
theorem finish_advances {α : Type} {T : Txn α} {k : α → State → State} {s t : State} (h : T.finish k = .next t)
    (hT : T.Leaves fun u => u.pc = s.pc ∧ u.fault = s.fault) (hk : ∀ a u, (k a u).pc = u.pc + 2 ∧ (k a u).fault = u.fault) :
    SucceedsOrRaises (t.pc = s.pc + 2) s t := by
  rcases hT.finish_cases h with ⟨a, u, ⟨hpc, hfault⟩, rfl⟩ | ⟨e, u, ⟨hpc, _⟩, rfl⟩
  · obtain ⟨hkpc, hkfault⟩ := hk a u
    exact .inl ⟨hkfault.trans hfault, by rw [hkpc, hpc]⟩
  · exact .inr ⟨Option.some_ne_none e, hpc⟩

/-- A key skip: the flag of the key that the register names, or the error of a number above 0xF. -/
theorem keySkip_pc {k : Byte} {g : Bool → Bool} {P : Prop} {s t : State}
    (hg : ∀ h : k.toNat < 16, g s.keys[k.toNat] = true ↔ P)
    (h : (keyFlag k s).finish (fun down u => skipIf (g down) u) = .next t) : SucceedsOrRaises (SkipsOn P s t) s t := by
  rcases keyFlag_cases k s with ⟨hk, he⟩ | ⟨_, he⟩ <;> rw [he] at h <;> cases h
  · exact succeedsOrRaises_skipIf s (hg hk)
  · exact succeedsOrRaises_raise ..

theorem keyDown_iff {s : State} {k : Nat} (h : k < 16) : s.keys[k] = true ↔ KeyDown s k :=
  ⟨fun hd => ⟨h, hd⟩, fun ⟨_, hd⟩ => hd⟩

theorem execRet_pc {s t : State} (h : execRet s = .next t) : SucceedsOrRaises (s.stack[s.sp.toNat - 1]? = some t.pc) s t := by
  unfold execRet at h
  rcases pop_cases s with ⟨_, he⟩ | ⟨hsp, hslot, he⟩ | ⟨_, _, he⟩ <;> rw [he] at h <;> cases h
  · exact succeedsOrRaises_raise ..
  · refine .inl ⟨rfl, ?_⟩
    rw [← sp_pred_toNat hsp, List.getElem?_eq_getElem hslot.2, jumpTo_pc, List.getD_eq_getElem _ _ hslot.2]

theorem execCall_pc {nnn : Addr12} {s t : State} (h : execCall nnn s = .next t) :
    SucceedsOrRaises (t.pc.toNat = nnn.toNat) s t := by
  unfold execCall at h
  rcases push_cases (s.pc + 2) s with ⟨_, he⟩ | ⟨_, _, he⟩ | ⟨_, _, he⟩ <;> rw [he] at h <;> cases h
  · exact succeedsOrRaises_raise ..
  · exact .inl ⟨rfl, zextAddr_toNat nnn⟩

/-- R25 row by row. -/
theorem exec_pc {i : Instr} {s t : State} (h : exec i s = .next t) : SucceedsOrRaises (PcAfter i s t) s t := by
  cases i with
  | jp nnn => cases h; exact .inl ⟨rfl, zextAddr_toNat nnn⟩
  | jpV0 nnn => cases h; exact .inl ⟨rfl, computedTarget_toNat _ nnn⟩
  | call nnn => exact execCall_pc h
  | ret => exact execRet_pc h
  | seImm x nn => cases h; exact succeedsOrRaises_skipIf s beq_iff_eq
  | sneImm x nn => cases h; exact succeedsOrRaises_skipIf s bne_iff_ne
  | seReg x y => cases h; exact succeedsOrRaises_skipIf s beq_iff_eq
  | sneReg x y => cases h; exact succeedsOrRaises_skipIf s bne_iff_ne
  | skp x => exact keySkip_pc (g := id) (fun hk => keyDown_iff hk) h
  | sknp x => exact keySkip_pc (g := not) (fun hk => by rw [Bool.not_eq_true', ← keyDown_iff hk, Bool.not_eq_true]) h
  | cls | ldImm | addImm | ldReg | orReg | andReg | xorReg | addReg | ldI | rnd | ldVxDt | ldVxK | ldDtVx | ldStVx | addI =>
    cases h; exact .inl ⟨rfl, rfl⟩
  | sub | shr | subn | shl =>
    cases h; exact .inl ⟨writeFlagged_fault .., by rw [PcAfter, advance_pc, writeFlagged_pc]⟩
  | ldF x => exact finish_advances h ((fontGlyphPointer_leaves ..).mono fun _ h => by simp [h]) fun _ _ => ⟨rfl, rfl⟩
  | ldB x => exact finish_advances h ((storeBytes_leaves ..).mono fun _ ⟨_, h⟩ => by simp [h]) fun _ _ => ⟨rfl, rfl⟩
  | ldMemVx x => exact finish_advances h ((storeRegs_leaves ..).mono fun _ ⟨_, _, h⟩ => by simp [h]) fun _ _ => ⟨rfl, rfl⟩
  | ldVxMem x => exact finish_advances h ((loadRegs_leaves ..).mono fun _ ⟨_, _, h⟩ => by simp [h]) fun _ _ => ⟨rfl, rfl⟩
  | drw x y n => exact finish_advances h ((drawRows_leaves ..).mono fun _ ⟨_, h⟩ => by simp [h]) fun _ _ => ⟨rfl, rfl⟩

/-- A step that fails leaves PC: the fetch's error, InvalidOpcode and a raising instruction alike (60_exceptions.md R300). -/
theorem step_failed_pc {s t : State} (hs : s.fault = none) (h : transact .step s = .next t) (ht : t.fault ≠ none) :
    t.pc = s.pc := by
  rw [transact_step hs] at h
  cases hm : s.mode with
  | awaitingKey r =>
    rw [cycle_awaiting hm] at h
    cases h
    rfl
  | running =>
    rcases cycle_running hm with ⟨_, i, _, _, hc⟩ | ⟨_, _, _, _, hc⟩ | ⟨_, _, hc⟩ <;> rw [hc] at h
    · rcases exec_pc h with ⟨hf, _⟩ | ⟨_, hpc⟩
      · exact absurd (hf.trans hs) ht
      · exact hpc
    · cases h; rfl
    · cases h; rfl

/-- A step in the key wait leaves PC (30_encoding.md R110). -/
theorem step_awaiting_pc {s t : State} {r : RegIdx} (hm : s.mode = .awaitingKey r) (h : transact .step s = .next t) :
    t.pc = s.pc := by
  unfold transact at h
  split at h
  · rw [cycle_awaiting hm] at h
    cases h
    rfl
  · cases h

/-- Settles O17: every instruction ends as its row of R25 says or takes an error (`exec_pc`), and a `step()` that is not such a
success leaves PC. -/
theorem programCounterTable : Obligations.ProgramCounterTable := by
  refine ⟨fun i s t h ht => ?_, fun s t => step_failed_pc, fun s t r => step_awaiting_pc⟩
  rcases exec_pc h with ⟨_, hpc⟩ | ⟨hf, _⟩
  · exact hpc
  · exact absurd ht hf

end Sys2Proof.Machine
end

section
/-!
The register matrix (10_state.md R22), its Writes column: a register outside it keeps its value.
-/

namespace Sys2Proof.Machine

/-- FX65's loop leaves the registers below `k` and from `k + n` on, after a success and after a raise. -/
theorem loadRegs_keeps (n k : Nat) (s : State) (hk : k + n ≤ 16) :
    (loadRegs n k s).Leaves fun t => ∀ r : RegIdx, r.toNat < k ∨ k + n ≤ r.toNat → getV t r = getV s r := by
  induction n generalizing k s with
  | zero => exact fun _ _ => rfl
  | succ n ih =>
    unfold loadRegs memRead
    split
    · refine (ih (k + 1) (setI (s.i + 1) (setV s (BitVec.ofNat 4 k) (byteAt s s.i.toNat))) (by omega)).mono fun t ht r hr => ?_
      have hne : r ≠ BitVec.ofNat 4 k := by
        rintro rfl
        rw [BitVec.toNat_ofNat, Nat.mod_eq_of_lt (by omega)] at hr
        omega
      rw [ht r (by omega), getV_setI, getV_setV, if_neg hne]
    · exact fun _ _ => rfl

/-- An instruction whose statements and last statements keep register `r`. -/
theorem finish_keeps {α : Type} {T : Txn α} {k : α → State → State} {s t : State} {r : RegIdx} (h : T.finish k = .next t)
    (hT : T.Leaves fun u => getV u r = getV s r) (hk : ∀ a u, getV (k a u) r = getV u r) : getV t r = getV s r := by
  rcases hT.finish_cases h with ⟨a, u, hu, rfl⟩ | ⟨e, u, hu, rfl⟩
  · rw [hk, hu]
  · rw [getV_setFault, hu]

theorem execRet_keeps {s t : State} (h : execRet s = .next t) (r : RegIdx) : getV t r = getV s r := by
  unfold execRet at h
  rcases pop_cases s with ⟨_, he⟩ | ⟨_, _, he⟩ | ⟨_, _, he⟩ <;> rw [he] at h <;> cases h <;> rfl

theorem execCall_keeps {nnn : Addr12} {s t : State} (h : execCall nnn s = .next t) (r : RegIdx) : getV t r = getV s r := by
  unfold execCall at h
  rcases push_cases (s.pc + 2) s with ⟨_, he⟩ | ⟨_, _, he⟩ | ⟨_, _, he⟩ <;> rw [he] at h <;> cases h <;> rfl

/-- The Writes column, instruction by instruction. -/
theorem exec_writes {i : Instr} {s t : State} {r : RegIdx} (h : exec i s = .next t) (hr : writesV i r = false) :
    getV t r = getV s r := by
  cases i with
  | cls | jp | ldI | jpV0 | ldVxK | ldDtVx | ldStVx | addI => cases h; rfl
  | seImm | sneImm | seReg | sneReg => cases h; exact getV_skipIf ..
  | ret => exact execRet_keeps h r
  | call nnn => exact execCall_keeps h r
  | ldImm x | addImm x | rnd x | ldVxDt x | ldReg x | orReg x | andReg x | xorReg x =>
    have hx : r ≠ x := by simpa [writesV] using hr
    cases h
    exact (getV_setV ..).trans (if_neg hx)
  | addReg x y =>
    obtain ⟨hx, hf⟩ : r ≠ x ∧ r ≠ vf := by simpa [writesV] using hr
    cases h
    simp [hx, hf]
  | sub x y | shr x y | subn x y | shl x y =>
    obtain ⟨hx, hf⟩ : r ≠ x ∧ r ≠ vf := by simpa [writesV] using hr
    cases h
    exact getV_writeFlagged_other hx hf
  | skp x | sknp x => exact finish_keeps h ((keyFlag_leaves ..).mono fun _ h => by rw [h]) fun _ _ => getV_skipIf ..
  | ldF x => exact finish_keeps h ((fontGlyphPointer_leaves ..).mono fun _ h => by rw [h]) fun _ _ => rfl
  | ldB x => exact finish_keeps h ((storeBytes_leaves ..).mono fun _ ⟨_, h⟩ => by rw [h, getV_setMem]) fun _ _ => rfl
  | ldMemVx x =>
    exact finish_keeps h ((storeRegs_leaves ..).mono fun _ ⟨_, _, h⟩ => by rw [h, getV_setI, getV_setMem]) fun _ _ => rfl
  | ldVxMem x =>
    have hx : ¬r.toNat ≤ x.toNat := by simpa [writesV] using hr
    exact finish_keeps h ((loadRegs_keeps _ _ s (by omega)).mono fun _ h => h r (by omega)) fun _ _ => rfl
  | drw x y n =>
    have hf : r ≠ vf := by simpa [writesV] using hr
    exact finish_keeps h ((drawRows_leaves ..).mono fun _ ⟨_, h⟩ => by rw [h, getV_setPix]) fun _ _ => by simp [hf]

end Sys2Proof.Machine
end

section
/-!
The register matrix (10_state.md R22), its Reads column, as a simulation: two runs from register files that agree on the column stay
in step, statement by statement, and what they leave differs only in registers that both left as they were.
-/

namespace Sys2Proof.Machine

/-- Two runs in step, begun in `s` and `s'` and now in `t` and `t'`: the states differ in no more than registers, and each register
is equal in both or still as each run found it. -/
structure InStep (s s' t t' : State) : Prop where
  rest : ∃ w, t' = setRegs w t
  regs : ∀ r, getV t' r = getV t r ∨ (getV t r = getV s r ∧ getV t' r = getV s' r)

/-- Two statement sequences that end alike, in states that are in step. -/
inductive Txn.InStep {α : Type} (s s' : State) : Txn α → Txn α → Prop
  | done (a : α) {t t' : State} (h : Machine.InStep s s' t t') : Txn.InStep s s' (.done a t) (.done a t')
  | raised (e : StepError) {t t' : State} (h : Machine.InStep s s' t t') : Txn.InStep s s' (.raised e t) (.raised e t')
  | stuck (f : Fault) : Txn.InStep s s' (.stuck f) (.stuck f)

/-- Two instructions that end alike, in states that are in step. -/
inductive ResultsInStep (s s' : State) : Result → Result → Prop
  | next {t t' : State} (h : InStep s s' t t') : ResultsInStep s s' (.next t) (.next t')
  | fault (f : Fault) : ResultsInStep s s' (.fault f) (.fault f)

section Simulation

variable {α β : Type} {s s' t t' : State}

theorem InStep.start (w : Vector Byte 16) (s : State) : InStep s (setRegs w s) s (setRegs w s) :=
  ⟨⟨w, rfl⟩, fun _ => .inr ⟨rfl, rfl⟩⟩

/-- A state operation that neither reads nor writes registers. -/
def RegisterBlind (f : State → State) : Prop := ∀ w u, f (setRegs w u) = setRegs w (f u)

theorem RegisterBlind.v_eq {f : State → State} (hf : RegisterBlind f) (u : State) : (f u).v = u.v := by
  have := congrArg State.v (hf u.v u)
  rwa [setRegs_v_self, setRegs_v] at this

theorem registerBlind_skipIf (c : Bool) : RegisterBlind (skipIf c) := fun w u => by
  rw [skipIf_eq, skipIf_eq]
  rfl

theorem InStep.map {f : State → State} (h : InStep s s' t t') (hf : RegisterBlind f) : InStep s s' (f t) (f t') := by
  obtain ⟨⟨w, rfl⟩, hregs⟩ := h
  refine ⟨⟨w, hf w t⟩, fun r => ?_⟩
  rw [getV_congr (hf.v_eq _) r, getV_congr (hf.v_eq _) r]
  exact hregs r

/-- Both runs write the same byte to the same register. -/
theorem InStep.setV (h : InStep s s' t t') (x : RegIdx) (b : Byte) : InStep s s' (setV t x b) (setV t' x b) := by
  obtain ⟨⟨w, rfl⟩, hregs⟩ := h
  refine ⟨⟨_, rfl⟩, fun r => ?_⟩
  simp only [getV_setV]
  by_cases hr : r = x
  · simp [hr]
  · simpa only [if_neg hr] using hregs r

/-- A flagged write, from equal operands. -/
theorem InStep.writeFlagged (h : InStep s s' t t') (flag result : Byte → Byte → Byte) {x y : RegIdx} (hx : getV t' x = getV t x)
    (hy : getV t' y = getV t y) : InStep s s' (writeFlagged flag result x y t) (writeFlagged flag result x y t') := by
  have hp : t'.params = t.params := by
    obtain ⟨w, rfl⟩ := h.rest
    rfl
  unfold Machine.writeFlagged
  rw [hp]
  cases t.params.aluVfReading with
  | sequential => simpa only [getV_setV, hx, hy] using (h.setV vf _).setV x _
  | snapshotFlagLast => simpa only [hx, hy] using (h.setV x _).setV vf _

theorem Txn.InStep.bind {T T' : Txn α} {k k' : α → State → Txn β} (h : T.InStep s s' T')
    (hk : ∀ a u u', Machine.InStep s s' u u' → (k a u).InStep s s' (k' a u')) : (T.bind k).InStep s s' (T'.bind k') := by
  cases h with
  | done a hu => exact hk a _ _ hu
  | raised e hu => exact .raised e hu
  | stuck f => exact .stuck f

theorem Txn.InStep.finish {T T' : Txn α} {k : α → State → State} (h : T.InStep s s' T')
    (hk : ∀ a u u', Machine.InStep s s' u u' → Machine.InStep s s' (k a u) (k a u')) :
    ResultsInStep s s' (T.finish k) (T'.finish k) := by
  cases h with
  | done a hu => exact .next (hk a _ _ hu)
  | raised e hu => exact .next (hu.map fun _ _ => rfl)
  | stuck f => exact .fault f

/-- A check that does not look at registers goes the same way in both runs. -/
theorem Txn.InStep.check {c : Prop} {d d' : Decidable c} {T T' U U' : Txn α} (hT : c → T.InStep s s' T')
    (hU : ¬c → U.InStep s s' U') : (@ite _ c d T U).InStep s s' (@ite _ c d' T' U') := by
  by_cases hc : c
  · simpa only [if_pos hc] using hT hc
  · simpa only [if_neg hc] using hU hc

theorem memRead_inStep (a : Nat) (h : InStep s s' t t') : (memRead a t).InStep s s' (memRead a t') := by
  obtain ⟨w, rfl⟩ := h.rest
  exact .check (fun _ => .done _ h) fun _ => .raised _ h

theorem memWrite_inStep (a : Nat) (b : Byte) (h : InStep s s' t t') : (memWrite a b t).InStep s s' (memWrite a b t') := by
  obtain ⟨w, rfl⟩ := h.rest
  exact .check (fun _ => .done _ (h.map (f := setByte a b) fun _ _ => rfl)) fun _ => .raised _ h

theorem storeBytes_inStep (bs : List Byte) (a : Nat) (h : InStep s s' t t') :
    (storeBytes a bs t).InStep s s' (storeBytes a bs t') := by
  induction bs generalizing a t t' with
  | nil => exact .done () h
  | cons b bs ih => exact (memWrite_inStep a b h).bind fun _ _ _ hu => ih (a + 1) hu

/-- DXYN's loop, at equal coordinates. -/
theorem drawRows_inStep (x y n r : Nat) (col : Bool) (h : InStep s s' t t') :
    (drawRows x y n r col t).InStep s s' (drawRows x y n r col t') := by
  induction n generalizing r col t t' with
  | zero => exact .done col h
  | succ n ih =>
    obtain ⟨w, rfl⟩ := h.rest
    refine (memRead_inStep _ h).bind fun row u u' hu => ?_
    obtain ⟨w', rfl⟩ := hu.rest
    exact ih (r + 1) _ (hu.map (f := fun u => setPix (flipSprite u.params x (y + r) row u.pix).1 u) fun _ _ => rfl)

/-- FX55's loop, when the registers it stores are equal. -/
theorem storeRegs_inStep (n k : Nat) (h : InStep s s' t t') (hk : k + n ≤ 16)
    (hv : ∀ r : RegIdx, k ≤ r.toNat → r.toNat < k + n → getV t' r = getV t r) :
    (storeRegs n k t).InStep s s' (storeRegs n k t') := by
  induction n generalizing k t t' with
  | zero => exact .done () h
  | succ n ih =>
    obtain ⟨w, rfl⟩ := h.rest
    have hk4 : (BitVec.ofNat 4 k).toNat = k := Nat.mod_eq_of_lt (by omega)
    have hb : getV (setRegs w t) (BitVec.ofNat 4 k) = getV t (BitVec.ofNat 4 k) := hv _ (by omega) (by omega)
    unfold storeRegs
    rw [hb, setRegs_i]
    rcases Nat.lt_or_ge t.i.toNat t.params.memSize with ha | ha
    · rw [memWrite_done ha, memWrite_done (s := setRegs w t) ha]
      exact ih (k + 1) (h.map (f := fun u => setI (u.i + 1) (setByte t.i.toNat (getV t (BitVec.ofNat 4 k)) u)) fun _ _ => rfl)
        (by omega) fun r hl hu => hv r (by omega) (by omega)
    · rw [memWrite_raised ha, memWrite_raised (s := setRegs w t) ha]
      exact .raised _ h

/-- FX65's loop: the bytes it loads are memory's, so both runs load the same. -/
theorem loadRegs_inStep (n k : Nat) (h : InStep s s' t t') : (loadRegs n k t).InStep s s' (loadRegs n k t') := by
  induction n generalizing k t t' with
  | zero => exact .done () h
  | succ n ih =>
    obtain ⟨w, rfl⟩ := h.rest
    exact (memRead_inStep _ h).bind fun b _ _ hu =>
      ih (k + 1) ((hu.setV (BitVec.ofNat 4 k) b).map (f := fun u => setI (u.i + 1) u) fun _ _ => rfl)

theorem keyFlag_inStep (k : Byte) (h : InStep s s' t t') : (keyFlag k t).InStep s s' (keyFlag k t') := by
  obtain ⟨w, rfl⟩ := h.rest
  unfold keyFlag
  split
  · exact .done _ h
  · exact .raised _ h

theorem fontGlyphPointer_inStep (d : Byte) (h : InStep s s' t t') :
    (fontGlyphPointer d t).InStep s s' (fontGlyphPointer d t') := by
  obtain ⟨w, rfl⟩ := h.rest
  exact .check (fun _ => .raised _ h) fun _ => .done _ h

theorem push_inStep (a : Word) (h : InStep s s' t t') : (push a t).InStep s s' (push a t') := by
  obtain ⟨w, rfl⟩ := h.rest
  exact .check (fun _ => .raised _ h) fun _ => .check
    (fun _ => .done _ (h.map (f := fun u => setSp (u.sp + 1) (setStack (u.stack.set u.sp.toNat a) u)) fun _ _ => rfl))
    fun _ => .stuck _

theorem pop_inStep (h : InStep s s' t t') : (pop t).InStep s s' (pop t') := by
  obtain ⟨w, rfl⟩ := h.rest
  exact .check (fun _ => .raised _ h) fun _ => .check
    (fun _ => .done _ (h.map (f := fun u => setSp (u.sp - 1) u) fun _ _ => rfl)) fun _ => .stuck _

end Simulation

/-- The Reads column, instruction by instruction: register files that agree on it give runs in step. -/
theorem exec_reads (i : Instr) (s : State) (w : Vector Byte 16)
    (h : ∀ r, readsV i r = true → getV (setRegs w s) r = getV s r) :
    ResultsInStep s (setRegs w s) (exec i s) (exec i (setRegs w s)) := by
  have start := InStep.start w s
  cases i with
  | cls => exact .next (start.map (f := fun u => advance (setPix (clearPix u.params) u)) fun _ _ => rfl)
  | jp nnn => exact .next (start.map (f := jumpTo _) fun _ _ => rfl)
  | ldI nnn => exact .next (start.map (f := fun u => advance (setI _ u)) fun _ _ => rfl)
  | ldVxK x => exact .next (start.map (f := fun u => advance (setMode _ u)) fun _ _ => rfl)
  | ret => exact (pop_inStep start).finish fun _ _ _ hu => hu.map fun _ _ => rfl
  | call nnn => exact (push_inStep _ start).finish fun _ _ _ hu => hu.map (f := jumpTo _) fun _ _ => rfl
  | ldImm x nn => exact .next ((start.setV x _).map fun _ _ => rfl)
  | ldVxDt x => exact .next ((start.setV x _).map fun _ _ => rfl)
  | rnd x nn =>
    exact .next (((start.map (f := fun u => setDraws (u.draws + 1) u) fun _ _ => rfl).setV x _).map fun _ _ => rfl)
  | ldVxMem x => exact (loadRegs_inStep _ 0 start).finish fun _ _ _ hu => hu.map fun _ _ => rfl
  | seImm x | sneImm x =>
    have hx := h x (by simp [readsV])
    simp only [exec, execSeImm, execSneImm, hx]
    exact .next (start.map (registerBlind_skipIf _))
  | seReg x y | sneReg x y =>
    have hx := h x (by simp [readsV])
    have hy := h y (by simp [readsV])
    simp only [exec, execSeReg, execSneReg, hx, hy]
    exact .next (start.map (registerBlind_skipIf _))
  | jpV0 nnn =>
    have h0 := h v0 (by simp [readsV])
    simp only [exec, execJpV0, h0]
    exact .next (start.map fun _ _ => rfl)
  | addImm x nn =>
    have hx := h x (by simp [readsV])
    simp only [exec, execAddImm, hx]
    exact .next ((start.setV x _).map fun _ _ => rfl)
  | ldReg x y =>
    have hy := h y (by simp [readsV])
    simp only [exec, execLdReg, hy]
    exact .next ((start.setV x _).map fun _ _ => rfl)
  | orReg x y | andReg x y | xorReg x y =>
    have hx := h x (by simp [readsV])
    have hy := h y (by simp [readsV])
    simp only [exec, execOrReg, execAndReg, execXorReg, hx, hy]
    exact .next ((start.setV x _).map fun _ _ => rfl)
  | addReg x y =>
    have hx := h x (by simp [readsV])
    have hy := h y (by simp [readsV])
    simp only [exec, execAddReg, hx, hy]
    exact .next (((start.setV x _).setV vf _).map fun _ _ => rfl)
  | sub x y | subn x y =>
    exact .next ((start.writeFlagged _ _ (h x (by simp [readsV])) (h y (by simp [readsV]))).map fun _ _ => rfl)
  | shr x y | shl x y =>
    have hx := h x (by simp [readsV])
    exact .next ((start.writeFlagged _ _ hx hx).map fun _ _ => rfl)
  | ldDtVx x =>
    have hx := h x (by simp [readsV])
    simp only [exec, execLdDtVx, hx]
    exact .next (start.map (f := fun u => advance (setDt (getV s x) u)) fun _ _ => rfl)
  | ldStVx x =>
    have hx := h x (by simp [readsV])
    simp only [exec, execLdStVx, hx]
    exact .next (start.map (f := fun u => advance (setSt (getV s x) u)) fun _ _ => rfl)
  | addI x =>
    have hx := h x (by simp [readsV])
    simp only [exec, execAddI, hx]
    exact .next (start.map (f := fun u => advance (setI (u.i + zextByte (getV s x)) u)) fun _ _ => rfl)
  | skp x | sknp x =>
    have hx := h x (by simp [readsV])
    simp only [exec, execSkp, execSknp, hx]
    exact (keyFlag_inStep _ start).finish fun _ _ _ hu => hu.map (registerBlind_skipIf _)
  | ldF x =>
    have hx := h x (by simp [readsV])
    simp only [exec, execLdF, hx]
    exact (fontGlyphPointer_inStep _ start).finish fun p _ _ hu => hu.map (f := fun u => advance (setI p u)) fun _ _ => rfl
  | ldB x =>
    have hx := h x (by simp [readsV])
    simp only [exec, execLdB, hx]
    exact (storeBytes_inStep _ _ start).finish fun _ _ _ hu => hu.map fun _ _ => rfl
  | ldMemVx x =>
    refine (storeRegs_inStep _ 0 start (by omega) fun r _ hr => h r ?_).finish fun _ _ _ hu => hu.map fun _ _ => rfl
    exact decide_eq_true (by omega)
  | drw x y n =>
    have hx := h x (by simp [readsV])
    have hy := h y (by simp [readsV])
    simp only [exec, execDrw, hx, hy]
    exact (drawRows_inStep _ _ _ 0 false start).finish fun _ _ _ hu => (hu.setV vf _).map fun _ _ => rfl

/-- The key event that resolves a wait writes the register that FX0A named (R266). -/
theorem resolveWait_awaiting {s : State} {x : RegIdx} (k : Nat) (h : s.mode = .awaitingKey x) :
    resolveWait k s = setMode .running (setV s x (BitVec.ofNat 8 k)) := by
  simp only [resolveWait, h]

/-- Settles O16: the Writes column (`exec_writes`), the Reads column (`exec_reads`), and FX0A's write by the resolving key event. -/
theorem registerMatrix : Obligations.RegisterMatrix := by
  intro i s
  refine ⟨fun t r => exec_writes, fun w hw => ?_, fun x t h => ?_, fun x k hm => ?_⟩
  · have hrun : ResultsInStep s (setRegs w s) (exec i s) (exec i { s with v := w }) := exec_reads i s w hw
    constructor
    · intro t ht
      rw [ht] at hrun
      generalize exec i { s with v := w } = o at hrun ⊢
      obtain ⟨⟨u, rfl⟩, hregs⟩ := hrun
      exact ⟨_, rfl, rfl, hregs⟩
    · intro f hf
      rw [hf] at hrun
      generalize exec i { s with v := w } = o at hrun ⊢
      cases hrun
      rfl
  · cases h
    rfl
  · rw [resolveWait_awaiting k hm]
    exact ⟨by simp, fun r hr => by simp [hr]⟩

end Sys2Proof.Machine
end

section
/-!
Memory seen through byte reads (20_memory.md): what a run of byte stores leaves at each address, and the frame of an operation that
changes memory alone. The single accesses (R61, R62) and the bulk load (R68) follow.
-/

namespace Sys2Proof.Machine

/-- A state operation that changes memory leaves every other piece. -/
theorem setMem_frame (m : Memory) (s : State) : UnchangedExcept [.mem] s (setMem m s) :=
  (unchangedExcept_iff ..).mpr (by simp [Unchanged])

/-- A byte write changes memory alone (R62). -/
theorem setByte_frame (a : Nat) (b : Byte) (s : State) : UnchangedExcept [.mem] s (setByte a b s) :=
  setMem_frame (writeCell s.params s.mem a b) s

namespace CellsWritten

variable {s : State} {m' : Memory} {a n : Nat} {byte : Nat → Byte}

theorem byteAt_inside (h : CellsWritten s m' a n byte) {k : Nat} (hk : k < n) : byteAt (setMem m' s) (a + k) = byte k := by
  obtain ⟨hread, _, _⟩ := h
  rw [byteAt_setMem, hread, if_pos ⟨Nat.le_add_right a k, Nat.add_lt_add_left hk a⟩, Nat.add_sub_cancel_left]

theorem byteAt_outside (h : CellsWritten s m' a n byte) {c : Nat} (hc : c < a ∨ a + n ≤ c) :
    byteAt (setMem m' s) c = byteAt s c := by
  obtain ⟨hread, _, _⟩ := h
  rw [byteAt_setMem, hread, if_neg (by omega)]

/-- Where the stored run is the beginning of a list, each address holds that list's byte. -/
theorem byteAt_getElem {bs : List Byte} (h : CellsWritten s m' a n fun k => bs.getD k 0) {k : Nat} (hk : k < n)
    (hb : k < bs.length) : byteAt (setMem m' s) (a + k) = bs[k] :=
  (h.byteAt_inside hk).trans (List.getD_eq_getElem bs 0 hb)

end CellsWritten

/-- `write_bulk()` without a fault record answers the state of the bulk load (60_exceptions.md R306, R310). -/
theorem transact_writeBulk {s : State} (h : s.fault = none) (a : Nat) (bs : List Byte) :
    transact (.writeBulk a bs) s = .next (writeBulk a bs s).1 := by
  simp [transact, enabled_of_no_fault (.writeBulk a bs) h]

/-- Settles O55: a load whose addresses all exist writes the whole list (`writeBulk_done`), any other the bytes before the first
address that does not (`writeBulk_stopped`). -/
theorem bulkLoad : Obligations.BulkLoad := by
  intro s a bs
  refine ⟨fun h => transact_writeBulk h a bs, fun ok => ?_, fun n hn ok bad => ?_⟩
  · obtain ⟨m', hload, hcells⟩ := writeBulk_done bs a s ok
    exact ⟨setMem m' s, hload, setMem_frame m' s, fun k hk => hcells.byteAt_getElem hk hk, fun c hc => hcells.byteAt_outside hc⟩
  · obtain ⟨m', hload, hcells⟩ := writeBulk_stopped bs a n s hn ok bad
    exact ⟨setMem m' s, hload, setMem_frame m' s, fun k hb hk => hcells.byteAt_getElem hk hb, fun c hc => hcells.byteAt_outside hc⟩

/-- Settles O9: below MEM_SIZE an access is done (`memRead_done`, `memWrite_done`), from there on it raises. -/
theorem memoryReadWriteBounds : Obligations.MemoryReadWriteBounds := by
  intro a b s
  refine ⟨memRead_done, memRead_raised, fun ha => ?_, memWrite_raised⟩
  refine ⟨setByte a b s, memWrite_done ha, setByte_frame a b s, ?_, fun c hc => ?_⟩
  · rw [byteAt_setByte, if_pos rfl]
  · rw [byteAt_setByte, if_neg hc]

end Sys2Proof.Machine
end

section
/-!
The font pointer (20_memory.md R65; 42_index_memory.md R203): every digit's glyph lies in memory, so its address fits I.
-/

namespace Sys2Proof

/-- The glyph of a digit 0..15 begins inside the font table, and so at an address that fits 16 bits (00_scope.md R8). -/
theorem Params.glyphAddr_lt {c : Params} (h : c.wf = true) {d : Nat} (hd : d ≤ 0xF) : c.fontBase + c.glyphBytes * d < 2 ^ 16 := by
  obtain ⟨hfits, _, hsize, _, hglyphs, _⟩ := (Params.wf_iff c).mp h
  have htable : c.glyphBytes * d ≤ c.fontGlyphs * c.glyphBytes := by
    rw [Nat.mul_comm c.fontGlyphs]
    exact Nat.mul_le_mul_left _ (by omega)
  omega

/-- FX29 (30_encoding.md R92, R95). -/
theorem decode_ldF (x : RegIdx) : decode (layoutXNN 0xF#4 x 0x29#8) = .ok (.ldF x) := by
  simp [decode, decodeClassF]

namespace Machine

/-- The last statements of an instruction that loads I leave every piece but I and PC. -/
theorem advance_setI_frame (w : Word) (s : State) : UnchangedExcept [.i, .pc] s (advance (setI w s)) :=
  (unchangedExcept_iff ..).mpr (by simp [Unchanged])

/-- FX29 on a digit that has a glyph: I is the glyph's address (R203). -/
theorem exec_ldF_digit {s : State} {x : RegIdx} (h : (getV s x).toNat ≤ 0xF) :
    exec (.ldF x) s = .next (advance (setI (BitVec.ofNat 16 (s.params.fontBase + s.params.glyphBytes * (getV s x).toNat)) s)) := by
  have hp : fontGlyphPointer (getV s x) s = .done (BitVec.ofNat 16 _) s := if_neg (Nat.not_lt.mpr h)
  rw [exec, execLdF, hp, finish_done]

/-- FX29 on a value above 0xF: FontDigit is raised (R65, R203). -/
theorem exec_ldF_noDigit {s : State} {x : RegIdx} (h : 0xF < (getV s x).toNat) :
    exec (.ldF x) s = .next (setFault (some (.outOfRange (.fontDigit (getV s x).toNat))) s) := by
  have hp : fontGlyphPointer (getV s x) s = .raised _ s := if_pos h
  rw [exec, execLdF, hp, finish_raised]

/-- Settles O38: FX29 by the digit (`exec_ldF_digit`, `exec_ldF_noDigit`), and the glyph's address fits I (`Params.glyphAddr_lt`). -/
theorem fontPointer : Obligations.FontPointer := by
  intro s x hwf
  refine ⟨decode_ldF x, fun hdigit => ?_, exec_ldF_noDigit⟩
  refine ⟨_, exec_ldF_digit hdigit, advance_setI_frame _ s, rfl, ?_⟩
  rw [advance_i, setI_i, BitVec.toNat_ofNat, Nat.mod_eq_of_lt (Params.glyphAddr_lt hwf hdigit)]

end Machine

end Sys2Proof
end

section
/-!
The words the decoder refuses (30_encoding.md R95, R97), class by class, and what `step()` does on one of them and in the key wait
(R110, R111).
-/

namespace Sys2Proof

section RefusedWords

variable (op : Word)

theorem decodeClass0_refused_iff :
    decodeClass0 op = .error (.invalidOpcode op) ↔ op ≠ 0x00E0#16 ∧ op ≠ 0x00EE#16 := by
  unfold decodeClass0
  split
  case isTrue hcls => simp [hcls]
  case isFalse hcls =>
    split
    case isTrue hret => simp [hret]
    case isFalse hret => simp [hcls, hret]

/-- The nibbles that no arm of class 0x8 takes: the fallback arm is reached from 0x8 to 0xD and on 0xF. -/
theorem decodeClass8_refused_iff :
    decodeClass8 op = .error (.invalidOpcode op) ↔ op.toNat % 16 ∈ [0x8, 0x9, 0xA, 0xB, 0xC, 0xD, 0xF] := by
  rw [← fieldN_toNat]
  unfold decodeClass8
  split
  case h_10 =>
    have hN := (fieldN op).isLt
    simp only [imp_false, List.mem_cons, List.not_mem_nil, or_false, true_iff] at *
    omega
  all_goals simp [*]

theorem decodeClassE_refused_iff :
    decodeClassE op = .error (.invalidOpcode op) ↔ op.toNat % 256 ∉ [0x9E, 0xA1] := by
  rw [← fieldNN_toNat]
  unfold decodeClassE
  split <;> simp_all

theorem decodeClassF_refused_iff :
    decodeClassF op = .error (.invalidOpcode op) ↔
      op.toNat % 256 ∉ [0x07, 0x0A, 0x15, 0x18, 0x1E, 0x29, 0x33, 0x55, 0x65] := by
  rw [← fieldNN_toNat]
  unfold decodeClassF
  split <;> simp_all

/-- Classes 0x5 and 0x9 have one instruction each, at N = 0. -/
theorem onlyNibbleZero_refused_iff (i : Instr) :
    (if fieldN op = 0x0#4 then .ok i else .error (.invalidOpcode op) : Except DecodeReject Instr) =
      .error (.invalidOpcode op) ↔ op.toNat % 16 ≠ 0 := by
  have hN : fieldN op = 0x0#4 ↔ op.toNat % 16 = 0 := by
    rw [← fieldN_toNat, ← BitVec.toNat_inj, BitVec.toNat_ofNat]
  split <;> simp_all

/-- R97's list: the six classes with invalid words refuse by their sub-opcode, the other ten refuse nothing. -/
theorem decode_refused_iff :
    decode op = .error (.invalidOpcode op) ↔
      ((op.toNat / 4096 = 0x0 ∧ op ≠ 0x00E0#16 ∧ op ≠ 0x00EE#16) ∨
       ((op.toNat / 4096 = 0x5 ∨ op.toNat / 4096 = 0x9) ∧ op.toNat % 16 ≠ 0) ∨
       (op.toNat / 4096 = 0x8 ∧ op.toNat % 16 ∈ [0x8, 0x9, 0xA, 0xB, 0xC, 0xD, 0xF]) ∨
       (op.toNat / 4096 = 0xE ∧ op.toNat % 256 ∉ [0x9E, 0xA1]) ∨
       (op.toNat / 4096 = 0xF ∧ op.toNat % 256 ∉ [0x07, 0x0A, 0x15, 0x18, 0x1E, 0x29, 0x33, 0x55, 0x65])) := by
  rw [← decodeClass0_refused_iff, ← decodeClass8_refused_iff, ← decodeClassE_refused_iff, ← decodeClassF_refused_iff,
    ← fieldClass_toNat]
  unfold decode
  split
  case h_6 | h_10 => rw [onlyNibbleZero_refused_iff]; simp [*]
  case h_16 =>
    have hlt := (fieldClass op).isLt
    have hF : (fieldClass op).toNat = 0xF := by simp only [imp_false] at *; omega
    simp [hF]
  all_goals simp [*]

end RefusedWords

namespace Machine

/-- A `step()` that fetches a refused word takes InvalidOpcode of it (R97, R111). -/
theorem transact_step_refused {s : State} {op : Word} {e : DecodeReject} (hs : s.fault = none) (hm : s.mode = .running)
    (hf : fetch s = .done op s) (hd : decode op = .error e) :
    transact .step s = .next (setFault (some (.invalidOpcode op)) s) := by
  rw [transact_step hs]
  simp only [cycle, hm, hf, hd, raise_eq]

/-- Settles O5: the step by `transact_step_refused`, the list of words by `decode_refused_iff`. -/
theorem invalidWordsByClass : Obligations.InvalidWordsByClass :=
  fun op => ⟨fun _ hs hm hf hd => transact_step_refused hs hm hf hd, decode_refused_iff op⟩

/-- Settles O11: without a fault record `step()` is the cycle, which in AwaitingKey does nothing. -/
theorem awaitingStepDoesNothing : Obligations.AwaitingStepDoesNothing :=
  fun _ _ hs hm => (transact_step hs).trans (cycle_awaiting hm)

end Machine

end Sys2Proof
end

section
/-!
JP and the register and immediate skips (40_control_flow.md R132, R134-R138): the words they decode from, and that PC is all they
change.
-/

namespace Sys2Proof

section Decoding

variable (x y : RegIdx)

theorem decode_jp (nnn : Addr12) : decode (layoutNNN 0x1#4 nnn) = .ok (.jp nnn) := by
  simp [decode]

theorem decode_seImm (nn : Byte) : decode (layoutXNN 0x3#4 x nn) = .ok (.seImm x nn) := by
  simp [decode]

theorem decode_sneImm (nn : Byte) : decode (layoutXNN 0x4#4 x nn) = .ok (.sneImm x nn) := by
  simp [decode]

/-- Class 0x5 under every final nibble (30_encoding.md R97). -/
theorem decode_layout5 (n : Nibble) : decode (layoutXYN 0x5#4 x y n) =
    if n = 0 then .ok (.seReg x y) else .error (.invalidOpcode (layoutXYN 0x5#4 x y n)) := by
  simp [decode]

/-- Class 0x9 under every final nibble (30_encoding.md R97). -/
theorem decode_layout9 (n : Nibble) : decode (layoutXYN 0x9#4 x y n) =
    if n = 0 then .ok (.sneReg x y) else .error (.invalidOpcode (layoutXYN 0x9#4 x y n)) := by
  simp [decode]

end Decoding

namespace Machine

theorem fetch_raised_second {s : State} (h : s.pc.toNat + 1 = s.params.memSize) :
    fetch s = .raised (.outOfRange (.mem s.params.memSize)) s := by
  rcases fetch_cases s with ⟨hlt, _⟩ | ⟨_, hf⟩ | ⟨hge, _⟩
  · omega
  · exact hf
  · omega

theorem fetch_raised_first {s : State} (h : s.params.memSize ≤ s.pc.toNat) :
    fetch s = .raised (.outOfRange (.mem s.pc.toNat)) s := by
  rcases fetch_cases s with ⟨hlt, _⟩ | ⟨heq, _⟩ | ⟨_, hf⟩
  · omega
  · omega
  · exact hf

theorem jumpTo_frame (u : Word) (s : State) : UnchangedExcept [.pc] s (jumpTo u s) :=
  (unchangedExcept_iff ..).mpr (by simp [Unchanged])

theorem jumpTo_self {u : Word} {s : State} (h : s.pc = u) : jumpTo u s = s := by
  subst h
  rfl

theorem skipIf_frame (c : Bool) (s : State) : UnchangedExcept [.pc] s (skipIf c s) := by
  rw [skipIf_eq]
  exact jumpTo_frame _ s

/-- An instruction that is a skip on a condition (R134): its two PCs (`skipsOn_skipIf`), and PC is all it changes. -/
theorem skips_of_exec {i : Instr} {c : Bool} {P : Prop} {s : State} (he : exec i s = .next (skipIf c s)) (h : c = true ↔ P) :
    ∃ t, exec i s = .next t ∧ UnchangedExcept [.pc] s t ∧ SkipsOn P s t :=
  ⟨skipIf c s, he, skipIf_frame c s, skipsOn_skipIf s h⟩

/-- Settles O24: JP is `jumpTo`; what the next fetch does there is `fetch_raised_second` and `fetch_raised_first`. -/
theorem jumpSetsPc : Obligations.JumpSetsPc := by
  intro s nnn
  have hpc : (jumpTo (zextAddr nnn) s).pc.toNat = nnn.toNat := zextAddr_toNat nnn
  refine ⟨decode_jp nnn, jumpTo (zextAddr nnn) s, rfl, jumpTo_frame _ s, hpc, fun hlast => ?_, fun habove => ?_, fun hself => ?_⟩
  · exact fetch_raised_second (hpc ▸ hlast)
  · rw [← hpc]
    exact fetch_raised_first (hpc ▸ habove)
  · exact jumpTo_self (BitVec.eq_of_toNat_eq (hself.trans hpc.symm))

/-- Settles O26: both instructions are a skip on their own condition (`skips_of_exec`). -/
theorem immediateSkips : Obligations.ImmediateSkips :=
  fun _ x nn => ⟨decode_seImm x nn, decode_sneImm x nn, skips_of_exec rfl beq_iff_eq, skips_of_exec rfl bne_iff_ne⟩

/-- Settles O27: the skips as for O26 (`skips_of_exec`); the final nibble by `decode_layout5` and `decode_layout9`. -/
theorem registerSkips : Obligations.RegisterSkips := by
  intro s x y
  refine ⟨decode_layout5 x y 0, decode_layout9 x y 0, skips_of_exec rfl beq_iff_eq, skips_of_exec rfl bne_iff_ne, fun n hn => ?_⟩
  rw [decode_layout5, decode_layout9, if_neg hn, if_neg hn]
  exact ⟨rfl, rfl⟩

end Machine

end Sys2Proof
end

section
/-!
The arithmetic family (41_alu.md R160-R174): the words it decodes from, its results and flags on naturals, and how an instruction
ends that writes registers and advances. What VF holds under either reading of ALU_VF_READING is said once, in `flagged_of_exec`.
-/

namespace Sys2Proof

section Decoding

variable (x y : RegIdx)

theorem decode_ldImm (nn : Byte) : decode (layoutXNN 0x6#4 x nn) = .ok (.ldImm x nn) := by
  simp [decode]

theorem decode_addImm (nn : Byte) : decode (layoutXNN 0x7#4 x nn) = .ok (.addImm x nn) := by
  simp [decode]

/-- Class 0x8 goes by its final nibble (30_encoding.md R95). -/
theorem decode_layout8 (n : Nibble) : decode (layoutXYN 0x8#4 x y n) = decodeClass8 (layoutXYN 0x8#4 x y n) := by
  simp [decode]

theorem decode_ldReg : decode (layoutXYN 0x8#4 x y 0) = .ok (.ldReg x y) := by
  simp [decode_layout8, decodeClass8]

theorem decode_orReg : decode (layoutXYN 0x8#4 x y 1) = .ok (.orReg x y) := by
  simp [decode_layout8, decodeClass8]

theorem decode_andReg : decode (layoutXYN 0x8#4 x y 2) = .ok (.andReg x y) := by
  simp [decode_layout8, decodeClass8]

theorem decode_xorReg : decode (layoutXYN 0x8#4 x y 3) = .ok (.xorReg x y) := by
  simp [decode_layout8, decodeClass8]

theorem decode_addReg : decode (layoutXYN 0x8#4 x y 4) = .ok (.addReg x y) := by
  simp [decode_layout8, decodeClass8]

theorem decode_sub : decode (layoutXYN 0x8#4 x y 5) = .ok (.sub x y) := by
  simp [decode_layout8, decodeClass8]

theorem decode_shr : decode (layoutXYN 0x8#4 x y 6) = .ok (.shr x y) := by
  simp [decode_layout8, decodeClass8]

theorem decode_subn : decode (layoutXYN 0x8#4 x y 7) = .ok (.subn x y) := by
  simp [decode_layout8, decodeClass8]

theorem decode_shl : decode (layoutXYN 0x8#4 x y 0xE) = .ok (.shl x y) := by
  simp [decode_layout8, decodeClass8]

end Decoding

namespace Machine

section ResultsAndFlags

variable (a b : Byte)

theorem carryFlag_eq : carryFlag a b = if a.toNat + b.toNat > 255 then 1 else 0 := by
  simp [carryFlag, b2v]

theorem greaterFlag_eq : greaterFlag a b = if a.toNat > b.toNat then 1 else 0 := by
  simp [greaterFlag, b2v]

/-- The difference modulo 256 as the statements write it. -/
theorem sub8_toNat_borrow : (sub8 a b).toNat = (256 + a.toNat - b.toNat) % 256 := by
  rw [sub8_toNat]
  congr 1
  have := b.isLt
  omega

theorem lowBit_toNat : (lowBit a).toNat = a.toNat % 2 := by
  rw [lowBit, BitVec.toNat_and, BitVec.toNat_ofNat, Nat.and_one_is_mod]

theorem highBit_toNat : (highBit a).toNat = a.toNat / 128 := by
  rw [highBit, BitVec.toNat_ushiftRight, Nat.shiftRight_eq_div_pow]

theorem shiftRight1_toNat : (shiftRight1 a).toNat = a.toNat / 2 := by
  rw [shiftRight1, BitVec.toNat_ushiftRight, Nat.shiftRight_eq_div_pow]

theorem shiftLeft1_toNat : (shiftLeft1 a).toNat = a.toNat * 2 % 256 := by
  rw [shiftLeft1, BitVec.toNat_shiftLeft, Nat.shiftLeft_eq]

end ResultsAndFlags

section RegisterWrites

variable {i : Instr} {s : State} {x y : RegIdx}

/-- An instruction that writes no more than registers and then advances: its frame and its PC (30_encoding.md R112). -/
theorem advances_of_exec {u : State} {R : State → Prop} (he : exec i s = .next (advance u)) (hu : u = setRegs u.v s)
    (hR : R (advance u)) : ∃ t, exec i s = .next t ∧ UnchangedExcept [.v, .pc] s t ∧ t.pc = s.pc + 2 ∧ R t := by
  refine ⟨advance u, he, ?_, ?_, hR⟩ <;> rw [hu]
  · exact (unchangedExcept_iff ..).mpr (by simp [Unchanged])
  · rfl

/-- An instruction that writes one byte, which meets `P`, to Vx and advances; no other register changes. -/
theorem oneWrite_of_exec {b : Byte} (P : Byte → Prop) (he : exec i s = .next (advance (setV s x b))) (hb : P b) :
    ∃ t, exec i s = .next t ∧ UnchangedExcept [.v, .pc] s t ∧ t.pc = s.pc + 2 ∧ P (getV t x) ∧
      ∀ r, r ≠ x → getV t r = getV s r :=
  advances_of_exec he rfl ⟨by simpa using hb, fun r hr => by simp [hr]⟩

/-- An instruction that is a flagged write (R162), with a result that meets `P`. `sequential`: the operands `a` and `b` of the
result are the registers after the flag `f` is in VF. `snapshotFlagLast`: they are the old registers, and VF ends as the flag. -/
theorem flagged_of_exec {flag result : Byte → Byte → Byte} (P : Byte → Byte → Byte → Prop)
    (he : exec i s = .next (advance (writeFlagged flag result x y s))) (hP : ∀ a b, P a b (result a b)) :
    ∃ t, exec i s = .next t ∧ UnchangedExcept [.v, .pc] s t ∧ t.pc = s.pc + 2 ∧
      (∀ r, r ≠ x → r ≠ vf → getV t r = getV s r) ∧
      ∃ f a b : Byte, f = flag (getV s x) (getV s y) ∧
        (s.params.aluVfReading = .sequential → a = (if x = vf then f else getV s x) ∧ b = (if y = vf then f else getV s y) ∧
          P a b (getV t x) ∧ (x ≠ vf → getV t vf = f)) ∧
        (s.params.aluVfReading = .snapshotFlagLast → a = getV s x ∧ b = getV s y ∧
          getV t vf = f ∧ (x ≠ vf → P a b (getV t x))) := by
  refine advances_of_exec he (writeFlagged_eq ..) ⟨fun r hx hf => getV_writeFlagged_other hx hf, ?_⟩
  cases h : s.params.aluVfReading with
  | sequential =>
    refine ⟨_, _, _, rfl, fun _ => ⟨rfl, rfl, ?_, fun hx => ?_⟩, nofun⟩ <;>
      rw [getV_advance, getV_writeFlagged_sequential _ _ _ _ _ _ h]
    · simpa using hP _ _
    · simp [hx.symm]
  | snapshotFlagLast =>
    refine ⟨_, _, _, rfl, nofun, fun _ => ⟨rfl, rfl, ?_, fun hx => ?_⟩⟩ <;>
      rw [getV_advance, getV_writeFlagged_snapshot _ _ _ _ _ _ h]
    · simp
    · simpa [hx] using hP _ _

/-- A flagged write of one operand: its flag meets `Q`, its result `P`. -/
theorem flaggedUnary_of_exec {flag result : Byte → Byte} (Q : Byte → Prop) (P : Byte → Byte → Prop)
    (he : exec i s = .next (advance (writeFlagged (fun a _ => flag a) (fun a _ => result a) x x s)))
    (hQ : Q (flag (getV s x))) (hP : ∀ a, P a (result a)) :
    ∃ t, exec i s = .next t ∧ UnchangedExcept [.v, .pc] s t ∧ t.pc = s.pc + 2 ∧
      (∀ r, r ≠ x → r ≠ vf → getV t r = getV s r) ∧
      ∃ f a : Byte, Q f ∧
        (s.params.aluVfReading = .sequential → a = (if x = vf then f else getV s x) ∧
          P a (getV t x) ∧ (x ≠ vf → getV t vf = f)) ∧
        (s.params.aluVfReading = .snapshotFlagLast → a = getV s x ∧ getV t vf = f ∧ (x ≠ vf → P a (getV t x))) := by
  obtain ⟨t, ht, hframe, hpc, hother, f, a, _, hf, hseq, hsnap⟩ := flagged_of_exec (fun a _ => P a) he fun a _ => hP a
  refine ⟨t, ht, hframe, hpc, hother, f, a, hf ▸ hQ, fun h => ?_, fun h => ?_⟩
  · obtain ⟨ha, _, hx⟩ := hseq h
    exact ⟨ha, hx⟩
  · obtain ⟨ha, _, hx⟩ := hsnap h
    exact ⟨ha, hx⟩

end RegisterWrites

/-- Settles O32: both instructions are flagged writes (`flagged_of_exec`) of a difference, SUBN with its operands exchanged. -/
theorem subtractUnderBothReadings : Obligations.SubtractUnderBothReadings := by
  intro s x y
  refine ⟨decode_sub x y, decode_subn x y, ?_, ?_⟩
  · rw [← greaterFlag_eq]
    exact flagged_of_exec (fun a b c => c.toNat = (256 + a.toNat - b.toNat) % 256) rfl sub8_toNat_borrow
  · rw [← greaterFlag_eq]
    exact flagged_of_exec (flag := fun a b => greaterFlag b a) (fun a b c => c.toNat = (256 + b.toNat - a.toNat) % 256) rfl
      fun a b => sub8_toNat_borrow b a

/-- Settles O33: both instructions are flagged writes of Vx alone (`flaggedUnary_of_exec`), whatever Y is. -/
theorem shiftUnderBothReadings : Obligations.ShiftUnderBothReadings := fun s x y =>
  ⟨decode_shr x y, decode_shl x y,
    flaggedUnary_of_exec (fun f => f.toNat = (getV s x).toNat % 2) (fun a c => c.toNat = a.toNat / 2) rfl
      (lowBit_toNat _) shiftRight1_toNat,
    flaggedUnary_of_exec (fun f => f.toNat = (getV s x).toNat / 128) (fun a c => c.toNat = a.toNat * 2 % 256) rfl
      (highBit_toNat _) shiftLeft1_toNat⟩

/-- Settles O29: each instruction writes one register (`oneWrite_of_exec`). -/
theorem loadAndAddImmediate : Obligations.LoadAndAddImmediate := fun s x nn =>
  ⟨decode_ldImm x nn, decode_addImm x nn, oneWrite_of_exec (· = nn) rfl rfl,
    oneWrite_of_exec (fun c => c.toNat = ((getV s x).toNat + nn.toNat) % 256) rfl (add8_toNat ..)⟩

/-- Settles O30: each instruction writes one register (`oneWrite_of_exec`), and the logical operations are bit by bit. -/
theorem copyAndBitwise : Obligations.CopyAndBitwise := fun s x y =>
  ⟨decode_ldReg x y, decode_orReg x y, decode_andReg x y, decode_xorReg x y,
    oneWrite_of_exec (· = getV s y) rfl rfl,
    oneWrite_of_exec (fun c => ∀ k, c.getLsbD k = ((getV s x).getLsbD k || (getV s y).getLsbD k)) rfl
      fun _ => BitVec.getLsbD_or,
    oneWrite_of_exec (fun c => ∀ k, c.getLsbD k = ((getV s x).getLsbD k && (getV s y).getLsbD k)) rfl
      fun _ => BitVec.getLsbD_and,
    oneWrite_of_exec (fun c => ∀ k, c.getLsbD k = ((getV s x).getLsbD k ^^ (getV s y).getLsbD k)) rfl
      fun _ => BitVec.getLsbD_xor⟩

/-- Settles O31: the carry is written after the sum, so it stands in VF also when X = F (R170). -/
theorem addWithCarry : Obligations.AddWithCarry := by
  intro s x y
  refine ⟨decode_addReg x y, advances_of_exec rfl rfl ⟨?_, fun hx => ?_, fun r hx hf => ?_⟩⟩
  · rw [getV_advance, getV_setV, if_pos rfl, carryFlag_eq]
  · rw [getV_advance, getV_setV, if_neg hx, getV_setV, if_pos rfl, add8_toNat]
  · rw [getV_advance, getV_setV, if_neg hf, getV_setV, if_neg hx]

end Machine

end Sys2Proof
end

section
/-!
LD I, addr (42_index_memory.md R201): I takes the address field as it is, with no bound on where it points.
-/

namespace Sys2Proof

/-- ANNN (30_encoding.md R92, R95). -/
theorem decode_ldI (nnn : Addr12) : decode (layoutNNN 0xA#4 nnn) = .ok (.ldI nnn) := by
  simp [decode]

namespace Machine

/-- ANNN completes from every state: I is NNN zero-extended, and PC advances (R201). -/
theorem exec_ldI (nnn : Addr12) (s : State) : exec (.ldI nnn) s = .next (advance (setI (zextAddr nnn) s)) := rfl

/-- Settles O36: ANNN loads I and advances (`exec_ldI`), which leaves the rest (`advance_setI_frame`), and zero-extension keeps
NNN's value (`zextAddr_toNat`). -/
theorem loadAddressRegister : Obligations.LoadAddressRegister := by
  intro s nnn
  refine ⟨decode_ldI nnn, _, exec_ldI nnn s, advance_setI_frame _ s, advance_pc _, ?_⟩
  rw [advance_i, setI_i, zextAddr_toNat]

end Machine

end Sys2Proof
end

section
/-!
CLS and the one-pixel flip (43_display.md R231, R232, R234): the cleared framebuffer is all that CLS writes, and a flip is read back
through the rule for a pixel after a pixel write.
-/

namespace Sys2Proof

/-- 00E0 (30_encoding.md R92, R95). -/
theorem decode_cls : decode 0x00E0#16 = .ok .cls := by decide

namespace Machine

/-- 00E0 completes from every state: the framebuffer is the cleared one, and PC advances (R234). -/
theorem exec_cls (s : State) : exec .cls s = .next (advance (setPix (clearPix s.params) s)) := rfl

/-- The last statements of an instruction that replaces the framebuffer leave every piece but it and PC. -/
theorem advance_setPix_frame (p : Pix) (s : State) : UnchangedExcept [.pix, .pc] s (advance (setPix p s)) :=
  (unchangedExcept_iff ..).mpr (by simp [Unchanged])

/-- Settles O19: CLS stores the cleared framebuffer and advances (`exec_cls`), which leaves the rest (`advance_setPix_frame`), and
there every pixel is off (`pixelAt_clearPix`). -/
theorem clearDisplay : Obligations.ClearDisplay := by
  refine ⟨decode_cls, fun s => ⟨_, exec_cls s, advance_setPix_frame _ s, advance_pc _, fun px py => ?_⟩⟩
  rw [advance_pix, setPix_pix, pixelAt_clearPix]

section FlipBit

variable {c : Params} {p : Pix}

/-- The flipped pixel is XORed with the bit (R232). -/
theorem pixelAt_flipBit_same (hc : c.wf = true) (hp : Pix.wf c p = true) (x y : Nat) (bit : Bool) :
    pixelAt c (flipBit c x y bit p).1 x y = (pixelAt c p x y ^^ bit) := by
  rw [flipBit, pixelAt_setPixel hc hp, if_pos ⟨rfl, rfl⟩]

/-- A flip leaves every pixel whose wrapped column or wrapped row is another (R232). -/
theorem pixelAt_flipBit_other (hc : c.wf = true) (hp : Pix.wf c p = true) {x y px py : Nat} (bit : Bool)
    (h : px % c.displayW ≠ x % c.displayW ∨ py % c.displayH ≠ y % c.displayH) :
    pixelAt c (flipBit c x y bit p).1 px py = pixelAt c p px py := by
  rw [flipBit, pixelAt_setPixel hc hp, if_neg (Classical.not_and_iff_not_or_not.mpr h)]

/-- The value of a flip compares the pixel before it with the pixel after it (R232). -/
theorem flipBit_reports (hc : c.wf = true) (hp : Pix.wf c p = true) (x y : Nat) (bit : Bool) :
    (flipBit c x y bit p).2 = true ↔ pixelAt c p x y = true ∧ pixelAt c (flipBit c x y bit p).1 x y = false := by
  rw [pixelAt_flipBit_same hc hp, flipBit, Bool.and_eq_true, Bool.not_eq_true']

end FlipBit

/-- Settles O44: the flipped pixel (`pixelAt_flipBit_same`), the report (`flipBit_reports`), the others
(`pixelAt_flipBit_other`). -/
theorem flipBitXors : Obligations.FlipBitXors := fun _ x y bit _ hc hp =>
  ⟨pixelAt_flipBit_same hc hp x y bit, flipBit_reports hc hp x y bit, fun _ _ => pixelAt_flipBit_other hc hp bit⟩

end Machine

end Sys2Proof
end

section
/-!
Timers and key events (44_keys_timers.md R262, R263, R266, R280): the timer instructions, what a tick writes, and what a key event
writes to the key flags and, in the key wait, to the pending register.
-/

namespace Sys2Proof

/-- FX07 (30_encoding.md R92, R95). -/
theorem decode_ldVxDt (x : RegIdx) : decode (layoutXNN 0xF#4 x 0x07#8) = .ok (.ldVxDt x) := by
  simp [decode, decodeClassF]

/-- FX15 (30_encoding.md R92, R95). -/
theorem decode_ldDtVx (x : RegIdx) : decode (layoutXNN 0xF#4 x 0x15#8) = .ok (.ldDtVx x) := by
  simp [decode, decodeClassF]

namespace Machine

/-- FX15 completes from every state: Dt is Vx, and PC advances (R263). -/
theorem exec_ldDtVx (x : RegIdx) (s : State) : exec (.ldDtVx x) s = .next (advance (setDt (getV s x) s)) := rfl

theorem advance_setDt_frame (b : Byte) (s : State) : UnchangedExcept [.dt, .pc] s (advance (setDt b s)) :=
  (unchangedExcept_iff ..).mpr (by simp [Unchanged])

/-- Settles O48: FX07 writes one register (`oneWrite_of_exec`), FX15 writes Dt (`exec_ldDtVx`) and leaves the rest
(`advance_setDt_frame`). -/
theorem timerRegisters : Obligations.TimerRegisters := fun s x =>
  ⟨decode_ldVxDt x, decode_ldDtVx x, oneWrite_of_exec (· = s.dt) rfl rfl,
    _, exec_ldDtVx x s, advance_setDt_frame _ s, advance_pc _, rfl⟩

/-- The decrement has a floor at 0, as subtraction of naturals has (R280). -/
theorem tickDown_toNat (b : Byte) : (tickDown b).toNat = b.toNat - 1 := by
  unfold tickDown
  split
  · simp [*]
  · bv_omega

theorem timerStep_frame (s : State) : UnchangedExcept [.dt, .st, .tone] s (timerStep s) :=
  (unchangedExcept_iff ..).mpr (by simp [Unchanged, timerStep])

/-- `timerStep()` without a fault record is the tick (60_exceptions.md R306, R310). -/
theorem transact_timerStep {s : State} (h : s.fault = none) : transact .timerStep s = .next (timerStep s) := by
  simp [transact, enabled_of_no_fault .timerStep h]

/-- With a fault record every transaction but `reset()` has no successor (60_exceptions.md R306). -/
theorem transact_of_fault {s : State} {tr : Transaction} (h : s.fault ≠ none) (htr : tr ≠ .reset) :
    transact tr s = .fault .notEnabled := by
  have hoff : enabled tr s = false := by simp [enabled, htr, Option.isSome_iff_ne_none.mpr h]
  simp [transact, hoff]

/-- Settles O53: the tick (`transact_timerStep`) lowers both timers (`tickDown_toNat`) and leaves the rest (`timerStep_frame`); with a
fault record it is not enabled (`transact_of_fault`). -/
theorem timerTick : Obligations.TimerTick := by
  intro s
  refine ⟨fun h => ?_, fun h t ht => ?_⟩
  · exact ⟨timerStep s, transact_timerStep h, timerStep_frame s, tickDown_toNat s.dt, tickDown_toNat s.st, decide_eq_true_iff⟩
  · rw [transact_of_fault h (by decide)] at ht
    cases ht

/-- `handleKey()` without a fault record answers the state that the key event gives (60_exceptions.md R306, R310). -/
theorem transact_handleKey {s : State} (h : s.fault = none) (k : Nat) (down : Bool) :
    transact (.handleKey k down) s = .next (handleKey k down s).1 := by
  simp [transact, enabled_of_no_fault (.handleKey k down) h]

section KeyFlags

variable {s : State} {k j : Nat} {b : Bool} (hk : k < 16)

theorem keyDown_setKeys_set_same : KeyDown (setKeys (s.keys.set k b hk) s) k ↔ b = true := by
  simp [KeyDown, hk]

theorem keyDown_setKeys_set_other (hj : j ≠ k) : KeyDown (setKeys (s.keys.set k b hk) s) j ↔ KeyDown s j := by
  simp [KeyDown, hj.symm]

/-- A key-up event clears the key's flag, in every Mode (60_exceptions.md R320). -/
theorem handleKey_up (s : State) : handleKey k false s = (setKeys (s.keys.set k false hk) s, none) := by
  simp [handleKey, hk]

/-- A key-down event in the key wait sets the key's flag and resolves the wait (R266). -/
theorem handleKey_down_awaiting {r : RegIdx} (hm : s.mode = .awaitingKey r) :
    handleKey k true s = (setMode .running (setV (setKeys (s.keys.set k true hk) s) r (BitVec.ofNat 8 k)), none) := by
  rw [handleKey, dif_pos hk]
  exact congrArg (·, none) (resolveWait_awaiting k hm)

end KeyFlags

theorem setKeys_frame (ks : Vector Bool 16) (s : State) : UnchangedExcept [.keys] s (setKeys ks s) :=
  (unchangedExcept_iff ..).mpr (by simp [Unchanged])

/-- What the resolved key wait leaves: every piece but the registers, Mode and the key flags (R266). -/
theorem resolved_frame (r : RegIdx) (b : Byte) (ks : Vector Bool 16) (s : State) :
    UnchangedExcept [.v, .mode, .keys] s (setMode .running (setV (setKeys ks s) r b)) :=
  (unchangedExcept_iff ..).mpr (by simp [Unchanged])

/-- A `step()` that fetches a valid word executes its instruction (30_encoding.md R111). -/
theorem transact_step_decoded {s : State} {op : Word} {i : Instr} (hs : s.fault = none) (hm : s.mode = .running)
    (hf : fetch s = .done op s) (hd : decode op = .ok i) : transact .step s = exec i s := by
  rw [transact_step hs]
  simp only [cycle, hm, hf, hd]

/-- Settles O51: the key-down event is a flag write and the resolution of the wait (`handleKey_down_awaiting`), after which `step()`
runs the instruction at PC (`transact_step_decoded`); the key-up event is a flag write alone (`handleKey_up`). -/
theorem keyDownResolvesWait : Obligations.KeyDownResolvesWait := by
  intro s r k hs hm hk
  constructor
  · rw [transact_handleKey hs, handleKey_down_awaiting hk hm]
    refine ⟨_, rfl, resolved_frame r _ _ s, rfl, ?_, (keyDown_setKeys_set_same hk).mpr rfl, fun q hq => ?_,
      fun j hj => keyDown_setKeys_set_other hk hj, fun op i => transact_step_decoded hs rfl⟩
    · rw [getV_setMode, getV_setV, if_pos rfl, BitVec.toNat_ofNat]
      omega
    · rw [getV_setMode, getV_setV, if_neg hq, getV_setKeys]
  · rw [transact_handleKey hs, handleKey_up hk]
    exact ⟨_, rfl, setKeys_frame _ s, by simp [keyDown_setKeys_set_same hk], fun j hj => keyDown_setKeys_set_other hk hj⟩

end Machine

end Sys2Proof
end

section
/-!
Decoding and encoding as inverses (30_encoding.md R91-R95): a word is the layout of its own fields, so what the decoder reads is
what the encoder wrote, and the rows of the opcode table cover exactly the words that decode.
-/

namespace Sys2Proof

section LayoutsOfFields

variable {op : Word} {c : Nibble}

theorem layoutNNN_fields (hc : fieldClass op = c) : layoutNNN c (fieldNNN op) = op := by
  subst hc
  apply BitVec.eq_of_toNat_eq
  rw [layoutNNN_toNat, fieldClass_toNat, fieldNNN_toNat]
  omega

theorem layoutXNN_fields {nn : Byte} (hc : fieldClass op = c) (hnn : fieldNN op = nn) : layoutXNN c (fieldX op) nn = op := by
  subst hc hnn
  apply BitVec.eq_of_toNat_eq
  rw [layoutXNN_toNat, fieldClass_toNat, fieldX_toNat, fieldNN_toNat]
  omega

theorem layoutXYN_fields {n : Nibble} (hc : fieldClass op = c) (hn : fieldN op = n) :
    layoutXYN c (fieldX op) (fieldY op) n = op := by
  subst hc hn
  apply BitVec.eq_of_toNat_eq
  rw [layoutXYN_toNat, fieldClass_toNat, fieldX_toNat, fieldY_toNat, fieldN_toNat]
  omega

end LayoutsOfFields

theorem encode_decodeClass0 {op : Word} {i : Instr} (h : decodeClass0 op = .ok i) : encode i = op := by
  unfold decodeClass0 at h
  split at h
  case isTrue hop => cases h; exact hop.symm
  case isFalse =>
    split at h <;> cases h
    next hop => exact hop.symm

theorem encode_decodeClass8 {op : Word} {i : Instr} (hc : fieldClass op = 0x8#4) (h : decodeClass8 op = .ok i) : encode i = op := by
  unfold decodeClass8 at h
  split at h <;> cases h
  all_goals exact layoutXYN_fields hc (BitVec.eq_of_toNat_eq ‹_›)

theorem encode_decodeClassE {op : Word} {i : Instr} (hc : fieldClass op = 0xE#4) (h : decodeClassE op = .ok i) : encode i = op := by
  unfold decodeClassE at h
  split at h <;> cases h
  all_goals exact layoutXNN_fields hc (BitVec.eq_of_toNat_eq ‹_›)

theorem encode_decodeClassF {op : Word} {i : Instr} (hc : fieldClass op = 0xF#4) (h : decodeClassF op = .ok i) : encode i = op := by
  unfold decodeClassF at h
  split at h <;> cases h
  all_goals exact layoutXNN_fields hc (BitVec.eq_of_toNat_eq ‹_›)

/-- Class by class: the layout of the fields that the decoder read is the word. -/
theorem encode_decode {op : Word} {i : Instr} (h : decode op = .ok i) : encode i = op := by
  unfold decode at h
  split at h
  case h_1 => exact encode_decodeClass0 h
  case h_9 hc => exact encode_decodeClass8 (BitVec.eq_of_toNat_eq hc) h
  case h_15 hc => exact encode_decodeClassE (BitVec.eq_of_toNat_eq hc) h
  case h_16 =>
    have hF : fieldClass op = 0xF#4 := by
      have := (fieldClass op).isLt
      apply BitVec.eq_of_toNat_eq
      simp only [imp_false, BitVec.toNat_ofNat] at *
      omega
    exact encode_decodeClassF hF h
  case h_6 hc | h_10 hc =>
    split at h <;> cases h
    next hn => exact layoutXYN_fields (BitVec.eq_of_toNat_eq hc) hn
  case h_2 hc | h_3 hc | h_11 hc | h_12 hc => cases h; exact layoutNNN_fields (BitVec.eq_of_toNat_eq hc)
  case h_4 hc | h_5 hc | h_7 hc | h_8 hc | h_13 hc => cases h; exact layoutXNN_fields (BitVec.eq_of_toNat_eq hc) rfl
  case h_14 hc => cases h; exact layoutXYN_fields (BitVec.eq_of_toNat_eq hc) rfl

/-- Settles O3: class by class, `encode_decode`. -/
theorem encodeOfDecode : Obligations.EncodeOfDecode := fun _ _ => encode_decode

/-- Settles O2: in each constructor the class and the sub-opcode of the built word select the decoder's own arm. -/
theorem decodeOfEncode : Obligations.DecodeOfEncode := by
  intro i
  cases i with
  | cls | ret => decide
  | jp | call | ldI | jpV0 => simp [encode, decode]
  | seImm | sneImm | ldImm | addImm | rnd => simp [encode, decode]
  | seReg | sneReg | drw => simp [encode, decode]
  | ldReg | orReg | andReg | xorReg | addReg | sub | shr | subn | shl => simp [encode, decode_layout8, decodeClass8]
  | skp | sknp => simp [encode, decode, decodeClassE]
  | ldVxDt | ldVxK | ldDtVx | ldStVx | addI | ldF | ldB | ldMemVx | ldVxMem => simp [encode, decode, decodeClassF]

/-- The decoder has one reason to refuse a word: it names the word. -/
theorem decode_error {op : Word} {e : DecodeReject} (h : decode op = .error e) : e = .invalidOpcode op := by
  unfold decode decodeClass0 decodeClass8 decodeClassE decodeClassF at h
  repeat' split at h
  all_goals cases h <;> rfl

section MaskedFields

variable {op p : Word}

theorem class_of_masked (h : op &&& 0xF000#16 = p) : op.toNat / 4096 = p.toNat / 4096 := by
  rw [← layoutXNN_fields (op := op) rfl rfl, layoutXNN_masked] at h
  rw [← fieldClass_toNat, ← fieldClass_toNat, ← h, fieldClass_layoutXNN]

theorem class_nibble_of_masked (h : op &&& 0xF00F#16 = p) :
    op.toNat / 4096 = p.toNat / 4096 ∧ op.toNat % 16 = p.toNat % 16 := by
  rw [← layoutXYN_fields (op := op) rfl rfl, layoutXYN_masked_nibble] at h
  simp only [← fieldClass_toNat, ← fieldN_toNat, ← h, fieldClass_layoutXYN, fieldN_layoutXYN, and_self]

theorem class_byte_of_masked (h : op &&& 0xF0FF#16 = p) :
    op.toNat / 4096 = p.toNat / 4096 ∧ op.toNat % 256 = p.toNat % 256 := by
  rw [← layoutXNN_fields (op := op) rfl rfl, layoutXNN_masked_byte] at h
  simp only [← fieldClass_toNat, ← fieldNN_toNat, ← h, fieldClass_layoutXNN, fieldNN_layoutXNN, and_self]

end MaskedFields

/-- Each row's pattern decodes, and its mask keeps what the decoder looks at in its class. -/
theorem opcodeTable_rows : ∀ r ∈ opcodeTable, decode r.pattern ≠ .error (.invalidOpcode r.pattern) ∧
    (r.mask = 0xFFFF#16 ∨ (r.mask = 0xF000#16 ∧ r.pattern.toNat / 4096 ∉ [0x0, 0x5, 0x8, 0x9, 0xE, 0xF]) ∨
      (r.mask = 0xF00F#16 ∧ r.pattern.toNat / 4096 ∈ [0x5, 0x8, 0x9]) ∨
      (r.mask = 0xF0FF#16 ∧ r.pattern.toNat / 4096 ∈ [0xE, 0xF])) := by
  decide

/-- A covered word is refused no more than the row's pattern, as R97's list sees only bits under the mask. -/
theorem not_refused_of_covers {op : Word} {r : OpcodeRow} (hr : r ∈ opcodeTable) (h : r.covers op = true) :
    decode op ≠ .error (.invalidOpcode op) := by
  obtain ⟨hp, hmask⟩ := opcodeTable_rows r hr
  obtain ⟨m, p, k⟩ := r
  replace h : op &&& k = p := eq_of_beq h
  rw [Ne, decode_refused_iff] at hp ⊢
  rcases hmask with rfl | ⟨rfl, hc⟩ | ⟨rfl, hc⟩ | ⟨rfl, hc⟩
  · obtain rfl : op = p := (BitVec.and_allOnes (x := op)).symm.trans h
    exact hp
  · rw [class_of_masked h]
    simp only [List.mem_cons, List.not_mem_nil, or_false] at hc
    omega
  · obtain ⟨hclass, hn⟩ := class_nibble_of_masked h
    rw [hclass, hn]
    simp only [List.mem_cons, List.not_mem_nil, or_false] at hp hc ⊢
    omega
  · obtain ⟨hclass, hnn⟩ := class_byte_of_masked h
    rw [hclass, hnn]
    simp only [List.mem_cons, List.not_mem_nil, or_false] at hp hc ⊢
    omega

open Laws.EncodesInOwnRow in
/-- Every instruction's opcode is covered by its own row (30_encoding.md R92). -/
theorem encode_coveredByOwnRow : ∀ i, Statement i
  | .cls => cls
  | .ret => ret
  | .jp nnn => jp nnn
  | .call nnn => call nnn
  | .seImm x nn => seImm x nn
  | .sneImm x nn => sneImm x nn
  | .seReg x y => seReg x y
  | .ldImm x nn => ldImm x nn
  | .addImm x nn => addImm x nn
  | .ldReg x y => ldReg x y
  | .orReg x y => orReg x y
  | .andReg x y => andReg x y
  | .xorReg x y => xorReg x y
  | .addReg x y => addReg x y
  | .sub x y => sub x y
  | .shr x y => shr x y
  | .subn x y => subn x y
  | .shl x y => shl x y
  | .sneReg x y => sneReg x y
  | .ldI nnn => ldI nnn
  | .jpV0 nnn => jpV0 nnn
  | .rnd x nn => rnd x nn
  | .drw x y n => drw x y n
  | .skp x => skp x
  | .sknp x => sknp x
  | .ldVxDt x => ldVxDt x
  | .ldVxK x => ldVxK x
  | .ldDtVx x => ldDtVx x
  | .ldStVx x => ldStVx x
  | .addI x => addI x
  | .ldF x => ldF x
  | .ldB x => ldB x
  | .ldMemVx x => ldMemVx x
  | .ldVxMem x => ldVxMem x

/-- Settles O4: the row of the instruction covers its own opcode, which is the word (`encode_decode`); the decoder refuses no word
that a row covers. -/
theorem decodeAgreesWithOpcodeTable : Obligations.DecodeAgreesWithOpcodeTable := by
  intro op
  have own : ∀ i, decode op = .ok i → ∃ r ∈ opcodeTable, r.mnemonic = i.mnemonic ∧ r.covers op = true := by
    intro i h
    rw [← encode_decode h]
    exact encode_coveredByOwnRow i
  refine ⟨own, fun ⟨i, h⟩ => ?_, fun h => ?_⟩
  · obtain ⟨r, hr, _, hc⟩ := own i h
    exact List.any_eq_true.mpr ⟨r, hr, hc⟩
  · obtain ⟨r, hr, hc⟩ := List.any_eq_true.mp h
    cases hd : decode op with
    | ok i => exact ⟨i, rfl⟩
    | error e => exact absurd (decode_error hd ▸ hd) (not_refused_of_covers hr hc)

/-- Settles O1: each word by running the decoder. -/
theorem sampleWordsDecode : Obligations.SampleWordsDecode := by
  unfold Obligations.SampleWordsDecode
  decide

end Sys2Proof
end

section
/-!
The invariant (10_state.md R27, R30, R42): what each state operation needs to keep it, that every instruction run on a fetched word
keeps it, and that every transaction does.
-/

namespace Sys2Proof.Machine

section StateOperations

variable {s : State}

theorem StateInv.setMem {m : Memory} (h : StateInv s) (hwf : Memory.wf s.params m = true)
    (hrange : Memory.inRange s.params m = true) : StateInv (setMem m s) := by
  obtain ⟨hshape, _, _, hsp, hpc, hslots⟩ := h
  exact ⟨hshape, hwf, hrange, hsp, hpc, hslots⟩

theorem StateInv.setPix {p : Pix} (h : StateInv s) (hwf : Pix.wf s.params p = true) : StateInv (setPix p s) := by
  obtain ⟨⟨hparams, hstack, _⟩, hmem, hrange, hsp, hpc, hslots⟩ := h
  exact ⟨⟨hparams, hstack, hwf⟩, hmem, hrange, hsp, hpc, hslots⟩

theorem StateInv.jumpTo {u : Word} (h : StateInv s) (hu : u.toNat ≤ maxPc s.params) : StateInv (jumpTo u s) := by
  obtain ⟨hshape, hmem, hrange, hsp, _, hslots⟩ := h
  exact ⟨hshape, hmem, hrange, hsp, hu, hslots⟩

theorem StateInv.setByte {a : Nat} {b : Byte} (h : StateInv s) (ha : a < s.params.memSize) : StateInv (setByte a b s) := by
  have ⟨_, hmem, hrange, _⟩ := h
  exact h.setMem (wf_writeCell _ a b hmem) (inRange_writeCell _ a b hrange ha)

/-- A push of a return address at most MEM_SIZE keeps the invariant: SP has room, so the new slot is the only new occupied one. -/
theorem StateInv.push {w : Word} (h : StateInv s) (hsp : s.sp.toNat ≠ s.params.stackDepth) (hw : w.toNat ≤ s.params.memSize) :
    StateInv (setSp (s.sp + 1) (setStack (s.stack.set s.sp.toNat w) s)) := by
  obtain ⟨⟨hparams, hstack, hpix⟩, hmem, hrange, hle, hpc, hslots⟩ := h
  have hdepth := Params.stackDepth_le hparams
  have hsucc : (s.sp + 1).toNat = s.sp.toNat + 1 := by bv_omega
  refine ⟨⟨hparams, by simpa using hstack, hpix⟩, hmem, hrange, ?_, hpc, fun k hk => ?_⟩
  · rw [setSp_sp, hsucc, setSp_params, setStack_params]
    omega
  · rw [setSp_sp, hsucc] at hk
    rw [setSp_stack, setStack_stack, List.getD_eq_getElem?_getD]
    by_cases hks : k = s.sp.toNat
    · subst hks
      rwa [List.getElem?_set_self (by omega), Option.getD_some]
    · rw [List.getElem?_set_ne (Ne.symm hks), ← List.getD_eq_getElem?_getD]
      exact hslots k (by omega)

/-- A pop keeps the invariant: the slots below the new SP were occupied before. -/
theorem StateInv.pop (h : StateInv s) (hsp : s.sp ≠ 0) : StateInv (setSp (s.sp - 1) s) := by
  obtain ⟨hshape, hmem, hrange, hle, hpc, hslots⟩ := h
  have hpred := sp_pred_toNat hsp
  exact ⟨hshape, hmem, hrange, by rw [setSp_sp, setSp_params]; omega, hpc,
    fun k hk => hslots k (by rw [setSp_sp] at hk; omega)⟩

end StateOperations

/-- The invariant at the start of an instruction: the fetch has found both bytes in memory (30_encoding.md R111). -/
def FetchedInv (s : State) : Prop := StateInv s ∧ s.pc.toNat + 1 < s.params.memSize

section Instructions

variable {s t : State}

theorem FetchedInv.advance (h : FetchedInv s) : StateInv (advance s) := by
  obtain ⟨hinv, hpc⟩ := h
  have hsize := Params.memSize_le hinv.1.1
  refine hinv.jumpTo ?_
  unfold maxPc
  bv_omega

theorem FetchedInv.skipIf (h : FetchedInv s) (c : Bool) : StateInv (skipIf c s) := by
  obtain ⟨hinv, hpc⟩ := h
  have hsize := Params.memSize_le hinv.1.1
  rw [skipIf_eq]
  refine hinv.jumpTo ?_
  unfold maxPc
  cases c <;> simp only [Bool.false_eq_true, if_true, if_false] <;> bv_omega

/-- Statement sequences keep a predicate when each part does. -/
theorem Txn.Leaves.bind {α β : Type} {P : State → Prop} {T : Txn α} {k : α → State → Txn β} (hT : T.Leaves P)
    (hk : ∀ a u, P u → (k a u).Leaves P) : (T.bind k).Leaves P := by
  cases T with
  | done a u => exact hk a u hT
  | raised _ _ => exact hT
  | stuck _ => exact hT

theorem memRead_keepsInv (h : FetchedInv s) (a : Nat) : (memRead a s).Leaves FetchedInv := by
  unfold memRead
  split <;> exact h

theorem memWrite_keepsInv (h : FetchedInv s) (a : Nat) (b : Byte) : (memWrite a b s).Leaves FetchedInv := by
  unfold memWrite
  split
  case isTrue ha => exact ⟨h.1.setByte ha, h.2⟩
  case isFalse => exact h

theorem storeBytes_keepsInv (bs : List Byte) (a : Nat) (h : FetchedInv s) : (storeBytes a bs s).Leaves FetchedInv := by
  induction bs generalizing a s with
  | nil => exact h
  | cons b bs ih => exact (memWrite_keepsInv h a b).bind fun _ _ hu => ih (a + 1) hu

theorem storeRegs_keepsInv (n k : Nat) (h : FetchedInv s) : (storeRegs n k s).Leaves FetchedInv := by
  induction n generalizing k s with
  | zero => exact h
  | succ n ih => exact (memWrite_keepsInv h ..).bind fun _ u hu => ih (s := setI (u.i + 1) u) (k + 1) hu

theorem loadRegs_keepsInv (n k : Nat) (h : FetchedInv s) : (loadRegs n k s).Leaves FetchedInv := by
  induction n generalizing k s with
  | zero => exact h
  | succ n ih =>
    exact (memRead_keepsInv h _).bind fun b u hu => ih (s := setI (u.i + 1) (setV u (BitVec.ofNat 4 k) b)) (k + 1) hu

theorem drawRows_keepsInv (x y n r : Nat) (col : Bool) (h : FetchedInv s) : (drawRows x y n r col s).Leaves FetchedInv := by
  induction n generalizing r col s with
  | zero => exact h
  | succ n ih =>
    refine (memRead_keepsInv h _).bind fun row u hu => ih (r + 1) _ ⟨hu.1.setPix ?_, hu.2⟩
    have ⟨⟨hparams, _, hpix⟩, _⟩ := hu.1
    exact (flipSprite_blitted hparams x (y + r) row hpix).wf

/-- An instruction ends with the invariant when its statements keep it and its last statements do. -/
theorem finish_keepsInv {α : Type} {T : Txn α} {k : α → State → State} (h : T.finish k = .next t) (hT : T.Leaves FetchedInv)
    (hk : ∀ a u, FetchedInv u → StateInv (k a u)) : StateInv t := by
  rcases hT.finish_cases h with ⟨a, u, hu, rfl⟩ | ⟨_, _, ⟨hu, _⟩, rfl⟩
  · exact hk a u hu
  · exact hu

/-- RET's target is the popped slot, which the invariant bounds. -/
theorem execRet_keepsInv (hs : StateInv s) (h : execRet s = .next t) : StateInv t := by
  unfold execRet at h
  rcases pop_cases s with ⟨_, he⟩ | ⟨hsp, _, he⟩ | ⟨_, _, he⟩ <;> rw [he] at h <;> cases h
  · exact hs
  · have ⟨_, _, _, _, _, hslots⟩ := hs
    have hne : s.sp.toNat ≠ 0 := fun h0 => hsp (BitVec.eq_of_toNat_eq h0)
    refine (hs.pop hsp).jumpTo (Nat.le_trans (hslots _ ?_) ?_)
    · rw [sp_pred_toNat hsp]
      omega
    · simp only [maxPc, setSp_params]
      omega

/-- CALL pushes PC + 2, at most MEM_SIZE. -/
theorem execCall_keepsInv {nnn : Addr12} (hs : FetchedInv s) (h : execCall nnn s = .next t) : StateInv t := by
  obtain ⟨hinv, hpc⟩ := hs
  have hsize := Params.memSize_le hinv.1.1
  unfold execCall at h
  rcases push_cases (s.pc + 2) s with ⟨_, he⟩ | ⟨hsp, _, he⟩ | ⟨_, _, he⟩ <;> rw [he] at h <;> cases h
  · exact hinv
  · refine (hinv.push hsp (by bv_omega)).jumpTo ?_
    rw [zextAddr_toNat]
    have := nnn.isLt
    unfold maxPc
    omega

/-- Every instruction run on a fetched word keeps the invariant. -/
theorem exec_keepsInv {i : Instr} (hs : FetchedInv s) (h : exec i s = .next t) : StateInv t := by
  have hinv := hs.1
  cases i with
  | cls => cases h; exact FetchedInv.advance ⟨hinv.setPix wf_clearPix, hs.2⟩
  | ret => exact execRet_keepsInv hinv h
  | call nnn => exact execCall_keepsInv hs h
  | jp nnn =>
    cases h
    refine hinv.jumpTo ?_
    rw [zextAddr_toNat]
    have := nnn.isLt
    unfold maxPc
    omega
  | jpV0 nnn =>
    cases h
    refine hinv.jumpTo ?_
    rw [computedTarget_toNat]
    have := nnn.isLt
    have := (getV s v0).isLt
    unfold maxPc
    omega
  | seImm | sneImm | seReg | sneReg => cases h; exact hs.skipIf _
  | ldImm | addImm | ldReg | orReg | andReg | xorReg | addReg | ldI | rnd | ldVxDt | ldVxK | ldDtVx | ldStVx | addI =>
    cases h; exact FetchedInv.advance hs
  | sub | shr | subn | shl => cases h; rw [writeFlagged_eq]; exact FetchedInv.advance hs
  | skp x | sknp x => exact finish_keepsInv h ((keyFlag_leaves ..).mono fun _ hu => hu ▸ hs) fun _ _ hu => hu.skipIf _
  | ldF x => exact finish_keepsInv h ((fontGlyphPointer_leaves ..).mono fun _ hu => hu ▸ hs) fun _ _ hu => FetchedInv.advance hu
  | ldB x => exact finish_keepsInv h (storeBytes_keepsInv _ _ hs) fun _ _ => FetchedInv.advance
  | ldMemVx x => exact finish_keepsInv h (storeRegs_keepsInv _ _ hs) fun _ _ => FetchedInv.advance
  | ldVxMem x => exact finish_keepsInv h (loadRegs_keepsInv _ _ hs) fun _ _ => FetchedInv.advance
  | drw x y n => exact finish_keepsInv h (drawRows_keepsInv _ _ _ _ _ hs) fun _ _ hu => FetchedInv.advance hu

end Instructions

/-- The reset state meets the invariant (10_state.md R41): nothing is stored, no slot is occupied. -/
theorem stateInv_resetWith {c : Params} (hc : c.wf = true) : StateInv (State.resetWith c) := by
  obtain ⟨_, hstart, _⟩ := (Params.wf_iff c).mp hc
  have hpc : (BitVec.ofNat 16 c.programStart).toNat ≤ maxPc c :=
    calc (BitVec.ofNat 16 c.programStart).toNat
      _ ≤ c.programStart := by rw [BitVec.toNat_ofNat]; exact Nat.mod_le _ _
      _ ≤ c.memSize + 2 := by omega
      _ ≤ maxPc c := Nat.le_max_left ..
  have hslots : ∀ k < 0, ((State.resetWith c).stack.getD k 0).toNat ≤ c.memSize := fun k hk => absurd hk (Nat.not_lt_zero k)
  exact ⟨⟨hc, List.length_replicate, wf_clearPix⟩, wf_nil, inRange_nil, Nat.zero_le _, hpc, hslots⟩

/-- The instruction cycle keeps the invariant: an error or a wait leaves everything it speaks of. -/
theorem cycle_keepsInv {s t : State} (hs : StateInv s) (h : cycle s = .next t) : StateInv t := by
  cases hm : s.mode with
  | awaitingKey r =>
    rw [cycle_awaiting hm] at h
    cases h
    exact hs
  | running =>
    rcases cycle_running hm with ⟨op, i, hf, _, hc⟩ | ⟨_, _, _, _, hc⟩ | ⟨_, _, hc⟩ <;> rw [hc] at h
    · refine exec_keepsInv ⟨hs, ?_⟩ h
      rcases fetch_cases s with ⟨hlt, _⟩ | ⟨_, hr⟩ | ⟨_, hr⟩
      · exact hlt
      all_goals rw [hr] at hf; cases hf
    all_goals cases h; exact hs

theorem handleKey_keepsInv {s : State} (hs : StateInv s) (k : Nat) (down : Bool) : StateInv (handleKey k down s).1 := by
  unfold handleKey resolveWait
  split
  · cases down
    · exact hs
    · simp only [if_true]
      split <;> exact hs
  · exact hs

/-- How each transaction leads to a next state (60_exceptions.md R310). -/
def TransactionLeads (tr : Transaction) (s t : State) : Prop :=
  match tr with
  | .step => cycle s = .next t
  | .timerStep => t = timerStep s
  | .handleKey k down => t = (handleKey k down s).1
  | .reset => t = resetBoard s
  | .writeBulk a bs => t = (writeBulk a bs s).1

theorem transactionLeads_of_transact {tr : Transaction} {s t : State} (h : transact tr s = .next t) : TransactionLeads tr s t := by
  unfold transact at h
  split at h
  case isFalse => cases h
  case isTrue =>
    cases tr with
    | step => exact h
    | timerStep | handleKey | reset | writeBulk => cases h; rfl

theorem transact_keepsInv {tr : Transaction} {s t : State} (hs : StateInv s) (h : transact tr s = .next t) : StateInv t := by
  replace h := transactionLeads_of_transact h
  cases tr with
  | step => exact cycle_keepsInv hs h
  | timerStep => cases h; exact hs
  | handleKey k down => cases h; exact handleKey_keepsInv hs k down
  | reset => cases h; exact stateInv_resetWith hs.1.1
  | writeBulk a bs =>
    cases h
    have ⟨_, hmem, hrange, _⟩ := hs
    obtain ⟨m', _, _, he, _, hwf, hin⟩ := writeBulk_cases bs a s
    rw [he]
    exact hs.setMem (hwf hmem) (hin hrange)

/-- Settles O13: the host's turn moves only the schedule (`hostTurn_schedule`), and every transaction keeps the invariant
(`transact_keepsInv`). -/
theorem everyStepKeepsInvariant : Obligations.EveryStepKeepsInvariant := by
  intro s t hs h
  obtain ⟨l, p, hturn⟩ := hostTurn_schedule s
  have hmoved : StateInv (hostTurn s).2 := hturn ▸ hs
  cases htr : (hostTurn s).1 with
  | some tr =>
    rw [step_of_turn (tr := tr) (t := (hostTurn s).2) (Prod.ext htr rfl)] at h
    exact transact_keepsInv hmoved h
  | none =>
    rw [step_of_no_turn (t := (hostTurn s).2) (Prod.ext htr rfl)] at h
    cases h
    exact hmoved

/-- Settles O12: `stateInv_resetWith`; the defaults meet the constraints by evaluation. -/
theorem resetMeetsInvariant : Obligations.ResetMeetsInvariant :=
  ⟨fun _ => stateInv_resetWith, stateInv_resetWith (by decide)⟩

end Sys2Proof.Machine
end

section
/-!
The host's side (10_state.md section 7; 60_exceptions.md R306, R310, R311, R320): no instruction writes Tone or Keys, what the fault
record disables, the host's turn, and key events.
-/

namespace Sys2Proof.Machine

/-- Tone and Keys are in `t` what they are in `s`. -/
def KeepsToneKeys (s t : State) : Prop := t.tone = s.tone ∧ t.keys = s.keys

section Instructions

variable {s t : State}

theorem skipIf_keepsToneKeys (c : Bool) (s : State) : KeepsToneKeys s (skipIf c s) := by
  rw [skipIf_eq]
  exact ⟨rfl, rfl⟩

theorem finish_keepsToneKeys {α : Type} {T : Txn α} {k : α → State → State} (h : T.finish k = .next t)
    (hT : T.Leaves (KeepsToneKeys s)) (hk : ∀ a u, KeepsToneKeys u (k a u)) : KeepsToneKeys s t := by
  rcases hT.finish_cases h with ⟨a, u, ⟨htone, hkeys⟩, rfl⟩ | ⟨_, _, hu, rfl⟩
  · exact ⟨(hk a u).1.trans htone, (hk a u).2.trans hkeys⟩
  · exact hu

theorem exec_keepsToneKeys {i : Instr} (h : exec i s = .next t) : KeepsToneKeys s t := by
  cases i with
  | cls | jp | jpV0 | ldImm | addImm | ldReg | orReg | andReg | xorReg | addReg | ldI | rnd | ldVxDt | ldVxK | ldDtVx | ldStVx
  | addI => cases h; exact ⟨rfl, rfl⟩
  | seImm | sneImm | seReg | sneReg => cases h; exact skipIf_keepsToneKeys ..
  | sub | shr | subn | shl => cases h; rw [writeFlagged_eq]; exact ⟨rfl, rfl⟩
  | ret =>
    change (pop s).finish jumpTo = .next t at h
    rcases pop_cases s with ⟨_, he⟩ | ⟨_, _, he⟩ | ⟨_, _, he⟩ <;> rw [he] at h <;> cases h
    all_goals exact ⟨rfl, rfl⟩
  | call nnn =>
    change (push (s.pc + 2) s).finish _ = .next t at h
    rcases push_cases (s.pc + 2) s with ⟨_, he⟩ | ⟨_, _, he⟩ | ⟨_, _, he⟩ <;> rw [he] at h <;> cases h
    all_goals exact ⟨rfl, rfl⟩
  | skp x | sknp x =>
    exact finish_keepsToneKeys h ((keyFlag_leaves ..).mono fun _ hu => hu ▸ ⟨rfl, rfl⟩) fun _ _ => skipIf_keepsToneKeys ..
  | ldF x =>
    exact finish_keepsToneKeys h ((fontGlyphPointer_leaves ..).mono fun _ hu => hu ▸ ⟨rfl, rfl⟩) fun _ _ => ⟨rfl, rfl⟩
  | ldB x =>
    exact finish_keepsToneKeys h ((storeBytes_leaves ..).mono fun _ ⟨_, hu⟩ => hu ▸ ⟨rfl, rfl⟩) fun _ _ => ⟨rfl, rfl⟩
  | ldMemVx x =>
    exact finish_keepsToneKeys h ((storeRegs_leaves ..).mono fun _ ⟨_, _, hu⟩ => hu ▸ ⟨rfl, rfl⟩) fun _ _ =>
      ⟨rfl, rfl⟩
  | ldVxMem x =>
    exact finish_keepsToneKeys h ((loadRegs_leaves ..).mono fun _ ⟨_, _, hu⟩ => hu ▸ ⟨rfl, rfl⟩) fun _ _ =>
      ⟨rfl, rfl⟩
  | drw x y n =>
    exact finish_keepsToneKeys h ((drawRows_leaves ..).mono fun _ ⟨_, hu⟩ => hu ▸ ⟨rfl, rfl⟩) fun _ _ => ⟨rfl, rfl⟩

end Instructions

section Transactions

variable {s t : State}

theorem cycle_keepsToneKeys (h : cycle s = .next t) : KeepsToneKeys s t := by
  cases hm : s.mode with
  | awaitingKey r =>
    rw [cycle_awaiting hm] at h
    cases h
    exact ⟨rfl, rfl⟩
  | running =>
    rcases cycle_running hm with ⟨_, _, _, _, hc⟩ | ⟨_, _, _, _, hc⟩ | ⟨_, _, hc⟩ <;> rw [hc] at h
    · exact exec_keepsToneKeys h
    all_goals cases h; exact ⟨rfl, rfl⟩

/-- A key's number into the pending register, or nothing: Tone and Keys are left either way (R266). -/
theorem resolveWait_keepsToneKeys (k : Nat) (s : State) : KeepsToneKeys s (resolveWait k s) := by
  unfold resolveWait
  split <;> exact ⟨rfl, rfl⟩

theorem handleKey_tone (k : Nat) (down : Bool) (s : State) : (handleKey k down s).1.tone = s.tone := by
  unfold handleKey
  split
  · cases down
    · rfl
    · exact (resolveWait_keepsToneKeys ..).1
  · rfl

theorem writeBulk_keepsToneKeys (a : Nat) (bs : List Byte) (s : State) : KeepsToneKeys s (writeBulk a bs s).1 := by
  obtain ⟨_, _, _, he, _⟩ := writeBulk_cases bs a s
  rw [he]
  exact ⟨rfl, rfl⟩

/-- Settles O18: `step()` and the bulk load keep both (`cycle_keepsToneKeys`, `writeBulk_keepsToneKeys`), the tick keeps Keys and a
key event keeps Tone (`handleKey_tone`). -/
theorem toneAndKeysWriters : Obligations.ToneAndKeysWriters := by
  intro tr s t h
  replace h := transactionLeads_of_transact h
  cases tr with
  | step =>
    obtain ⟨htone, hkeys⟩ := cycle_keepsToneKeys h
    exact ⟨absurd htone, absurd hkeys⟩
  | timerStep => cases h; exact ⟨fun _ => .inl rfl, absurd rfl⟩
  | handleKey k down => cases h; exact ⟨absurd (handleKey_tone k down s), fun _ => .inr ⟨k, down, rfl⟩⟩
  | reset => exact ⟨fun _ => .inr rfl, fun _ => .inl rfl⟩
  | writeBulk a bs =>
    cases h
    obtain ⟨htone, hkeys⟩ := writeBulk_keepsToneKeys a bs s
    exact ⟨absurd htone, absurd hkeys⟩

/-- `reset()` is enabled in every state (60_exceptions.md R306). -/
theorem transact_reset (s : State) : transact .reset s = .next (resetBoard s) := by
  simp [transact, enabled]

/-- Settles O14: `transact_of_fault`, and reset clears the record (`transact_reset`). -/
theorem faultDisablesTransactions : Obligations.FaultDisablesTransactions :=
  fun s _ hs => ⟨transact_of_fault hs, resetBoard s, transact_reset s, rfl⟩

/-- A `step()` whose fetch fails takes the fetch's error (30_encoding.md R111). -/
theorem transact_step_unfetched {e : StepError} (hs : s.fault = none) (hm : s.mode = .running) (hf : fetch s = .raised e s) :
    transact .step s = .next (setFault (some e) s) := by
  rw [transact_step hs]
  simp only [cycle, hm, hf, raise_eq]

/-- Settles O6: a lemma for each way a `step()` can go, and the host's turn by `step_of_turn`. -/
theorem stepRunsDecodedInstruction : Obligations.StepRunsDecodedInstruction := by
  intro s
  refine ⟨fun hs => transact_of_fault hs (by decide), awaitingStepDoesNothing s,
    fun hs hm => ⟨fun e => ?_, fun op hf => ?_⟩, fun _ => step_of_turn⟩
  · exact transact_step_unfetched hs hm
  · exact ⟨transact_step_refused hs hm hf, fun i => transact_step_decoded hs hm hf⟩

/-- With none pending, a repeated list starts again. -/
theorem hostTurn_of_repeating {tr : Transaction} {rest : List Transaction} (hi : s.inbox = [])
    (hp : s.plan = .repeating (tr :: rest)) : hostTurn s = (some tr, setInbox rest s) := by
  simp only [hostTurn, hi, hp]

theorem hostTurn_of_idle (hi : s.inbox = []) (hp : s.plan = .repeating []) : hostTurn s = (none, s) := by
  simp only [hostTurn, hi, hp]

theorem hostTurn_of_free {n : Nat} (hi : s.inbox = []) (hp : s.plan = .free n) :
    hostTurn s = (Config.hostChoice n, setPlan (.free (n + 1)) s) := by
  simp only [hostTurn, hi, hp]

/-- Settles O8: the host's turn for each inbox and plan, taken by `step_of_turn` or `step_of_no_turn`. -/
theorem hostScheduleTurns : Obligations.HostScheduleTurns := by
  intro s
  refine ⟨fun _ _ hi => step_of_turn (hostTurn_of_pending hi), fun _ _ hi hp => step_of_turn (hostTurn_of_repeating hi hp),
    fun hi hp => step_of_no_turn (hostTurn_of_idle hi hp), fun n hi hp => ?_⟩
  have hturn := hostTurn_of_free hi hp
  cases hc : Config.hostChoice n with
  | some tr => exact step_of_turn (hc ▸ hturn)
  | none => exact step_of_no_turn (hc ▸ hturn)

/-- Settles O58: the instruction at PC is fetched, and its jump leads to where PC is (`jumpTo_self`). -/
theorem finalStateIsFixed : Obligations.FinalStateIsFixed := by
  intro s ⟨hs, hm, hpc, nnn, hd, hself⟩
  rcases fetch_cases s with ⟨_, hf⟩ | ⟨_, _⟩ | ⟨_, _⟩
  · rw [transact_step_decoded hs hm hf hd]
    exact congrArg _ (jumpTo_self (BitVec.eq_of_toNat_eq (hself.symm.trans (zextAddr_toNat nnn).symm)))
  all_goals omega

end Transactions

section KeyEvents

variable {s : State} {k : Nat}

/-- A key above 15 is refused (D19). -/
theorem handleKey_refused (hk : 16 ≤ k) (down : Bool) : handleKey k down s = (s, some (.outOfRange (.keyIndex k))) := by
  rw [handleKey, dif_neg (Nat.not_lt.mpr hk)]

/-- While Running a key event writes the key's flag alone (60_exceptions.md R320). -/
theorem handleKey_running (hk : k < 16) (hm : s.mode = .running) (down : Bool) :
    handleKey k down s = (setKeys (s.keys.set k down hk) s, none) := by
  rw [handleKey, dif_pos hk]
  cases down
  · rfl
  · simp only [if_true, resolveWait, setKeys_mode, hm]

/-- Settles O52: outside the wait, and on a key-up event, only the flag is written (`handleKey_running`, `handleKey_up`); a key-down
event in the wait resolves it as well (`handleKey_down_awaiting`). -/
theorem keyEvents : Obligations.KeyEvents := by
  intro s k down
  refine ⟨fun hs => transact_handleKey hs k down, fun hk => handleKey_refused hk down, fun hk => ?_⟩
  have hframe (b : Bool) : UnchangedExcept [.keys] s (setKeys (s.keys.set k b hk) s) := setKeys_frame _ s
  have hsame (b : Bool) := keyDown_setKeys_set_same (s := s) (b := b) hk
  have hother (b : Bool) (j : Nat) := keyDown_setKeys_set_other (s := s) (j := j) (b := b) hk
  cases hm : s.mode with
  | running => exact ⟨_, handleKey_running hk hm down, (hframe _).mono (by decide), hsame _, hother _, fun _ => hframe _⟩
  | awaitingKey r =>
    cases down with
    | false => exact ⟨_, handleKey_up hk s, (hframe _).mono (by decide), hsame _, hother _, nofun⟩
    | true => exact ⟨_, handleKey_down_awaiting hk hm, resolved_frame _ _ _ s, hsame _, hother _, nofun⟩

end KeyEvents

end Sys2Proof.Machine
end

section
/-!
Fetch and stack (20_memory.md R63; 10_state.md R29, R30; 40_control_flow.md R131, R133, R139): the word that two stores put where
the next fetch finds it, and a push or pop where the slot exists.
-/

namespace Sys2Proof.Machine

section Fetch

variable {s : State}

theorem fetch_done (h : s.pc.toNat + 1 < s.params.memSize) :
    fetch s = .done (wordOfBytes (byteAt s s.pc.toNat) (byteAt s (s.pc.toNat + 1))) s := by
  rcases fetch_cases s with ⟨_, hf⟩ | ⟨_, _⟩ | ⟨_, _⟩
  · exact hf
  all_goals omega

/-- The big-endian word of two bytes (R63). -/
theorem wordOfBytes_toNat (hi lo : Byte) : (wordOfBytes hi lo).toNat = hi.toNat * 256 + lo.toNat := by
  rw [wordOfBytes, BitVec.toNat_append, Nat.shiftLeft_eq, Nat.mul_comm, ← Nat.two_pow_add_eq_or_of_lt lo.isLt, Nat.mul_comm]

/-- Settles O7: the three ranges of PC, each by its fetch (`fetch_done`, `fetch_raised_second`, `fetch_raised_first`). -/
theorem fetchReadsBigEndian : Obligations.FetchReadsBigEndian :=
  fun _ => ⟨fun h => ⟨_, fetch_done h, wordOfBytes_toNat ..⟩, fetch_raised_second, fetch_raised_first⟩

/-- Settles O10: both stores are done below MEM_SIZE, and the fetch reads the two bytes back (`byteAt_setByte`). -/
theorem storeIsFetchedNext : Obligations.StoreIsFetchedNext := by
  intro s hi lo h
  refine ⟨_, _, memWrite_done (Nat.lt_of_succ_lt h), memWrite_done h, ?_⟩
  rw [fetch_done (s := setByte (s.pc.toNat + 1) lo (setByte s.pc.toNat hi s)) h]
  simp

end Fetch

section Stack

variable {s : State}

/-- A push into a slot that exists (R29). -/
theorem push_free (hs : Shaped s) (hsp : s.sp.toNat < s.params.stackDepth) (w : Word) :
    push w s = .done () (setSp (s.sp + 1) (setStack (s.stack.set s.sp.toNat w) s)) := by
  obtain ⟨_, hlength, _⟩ := hs
  rcases push_cases w s with ⟨hfull, _⟩ | ⟨_, _, he⟩ | ⟨_, hnone, _⟩
  · omega
  · exact he
  · exact absurd ⟨hsp, hlength ▸ hsp⟩ hnone

/-- A pop of a slot that exists (R29). -/
theorem pop_occupied {k : Nat} {w : Word} (hs : Shaped s) (hsp : s.sp.toNat = k + 1) (hw : s.stack[k]? = some w) :
    pop s = .done w (setSp (s.sp - 1) s) := by
  obtain ⟨_, hlength, _⟩ := hs
  obtain ⟨hk, _⟩ := List.getElem?_eq_some_iff.mp hw
  have hne : s.sp ≠ 0 := fun h0 => by simp [h0] at hsp
  have hpred : (s.sp - 1).toNat = k := by rw [sp_pred_toNat hne, hsp, Nat.add_sub_cancel]
  rcases pop_cases s with ⟨h0, _⟩ | ⟨_, _, he⟩ | ⟨_, hnone, _⟩
  · exact absurd h0 hne
  · rw [he, hpred, List.getD_eq_getElem?_getD, hw, Option.getD_some]
  · exact absurd (hpred ▸ ⟨hlength ▸ hk, hk⟩) hnone

theorem exec_call_free (hs : Shaped s) (hsp : s.sp.toNat < s.params.stackDepth) (nnn : Addr12) :
    exec (.call nnn) s =
      .next (jumpTo (zextAddr nnn) (setSp (s.sp + 1) (setStack (s.stack.set s.sp.toNat (s.pc + 2)) s))) := by
  rw [exec, execCall, push_free hs hsp, finish_done]

theorem exec_ret_occupied {k : Nat} {w : Word} (hs : Shaped s) (hsp : s.sp.toNat = k + 1) (hw : s.stack[k]? = some w) :
    exec .ret s = .next (jumpTo w (setSp (s.sp - 1) s)) := by
  rw [exec, execRet, pop_occupied hs hsp hw, finish_done]

/-- STACK_DEPTH is at most 255, so SP + 1 does not wrap (R29). -/
theorem sp_succ_toNat (hs : Shaped s) (hsp : s.sp.toNat < s.params.stackDepth) : (s.sp + 1).toNat = s.sp.toNat + 1 := by
  have := Params.stackDepth_le hs.1
  bv_omega

/-- Settles O20: `exec_ret_occupied`. -/
theorem returnPopsStack : Obligations.ReturnPopsStack := by
  intro s k w hs hsp hw
  refine ⟨_, exec_ret_occupied hs hsp hw, (unchangedExcept_iff ..).mpr (by simp [Unchanged]), ?_, rfl⟩
  rw [jumpTo_sp, setSp_sp, sp_pred_toNat fun h0 => by simp [h0] at hsp]
  omega

/-- Settles O21: `exec_call_free`; the new slot and the others are those of a list update. -/
theorem callPushesReturnAddress : Obligations.CallPushesReturnAddress := by
  intro s nnn hs hsp
  refine ⟨_, exec_call_free hs hsp nnn, (unchangedExcept_iff ..).mpr (by simp [Unchanged]), sp_succ_toNat hs hsp,
    zextAddr_toNat nnn, ?_, fun k hk => ?_⟩
  · exact List.getElem?_set_self (hs.2.1 ▸ hsp)
  · exact List.getElem?_set_ne hk.symm

/-- Settles O22: both checks come first (`push_cases`, `pop_cases`). -/
theorem stackLimitsRaise : Obligations.StackLimitsRaise := by
  intro s nnn
  constructor
  · intro hfull
    have he : push (s.pc + 2) s = .raised (.outOfRange .stackOverflow) s := if_pos hfull
    rw [exec, execCall, he]
    rfl
  · intro hempty
    have he : pop s = .raised (.outOfRange .stackUnderflow) s := if_pos hempty
    rw [exec, execRet, he]
    rfl

/-- Settles O23: RET finds the slot that CALL wrote, one below the raised SP. -/
theorem callThenReturn : Obligations.CallThenReturn := by
  intro s nnn hs hsp
  have ⟨hparams, hlength, hpix⟩ := hs
  refine ⟨_, _, exec_call_free hs hsp nnn, exec_ret_occupied ⟨hparams, ?_, hpix⟩ (sp_succ_toNat hs hsp) ?_, rfl, ?_⟩
  · exact (List.length_set ..).trans hlength
  · exact List.getElem?_set_self (hlength ▸ hsp)
  · exact BitVec.add_sub_cancel s.sp 1

/-- Settles O25: the sum fits 16 bits (`computedTarget_toNat`), and a jump changes PC alone. -/
theorem computedJump : Obligations.ComputedJump :=
  fun s nnn => ⟨_, rfl, jumpTo_frame _ s, computedTarget_toNat _ nnn⟩

end Stack

end Sys2Proof.Machine
end

section
/-!
VF as an operand of a flagged write (41_alu.md R162, R163).
-/

namespace Sys2Proof.Machine

section VfOperand

variable {flag result : Byte → Byte → Byte} {x y : RegIdx} {s : State}

/-- Vx = VF: `sequential` overwrites the flag with a result computed from it, `snapshotFlagLast` overwrites the result. -/
theorem getV_writeFlagged_toVf : getV (writeFlagged flag result vf y s) vf =
    if s.params.aluVfReading = .sequential
    then result (flag (getV s vf) (getV s y)) (if y = vf then flag (getV s vf) (getV s y) else getV s y)
    else flag (getV s vf) (getV s y) := by
  cases h : s.params.aluVfReading with
  | sequential => simp [getV_writeFlagged_sequential _ _ _ _ _ _ h]
  | snapshotFlagLast => simp [getV_writeFlagged_snapshot _ _ _ _ _ _ h]

/-- Vx is not VF: the flag stands in VF. -/
theorem getV_writeFlagged_flag (hx : x ≠ vf) : getV (writeFlagged flag result x y s) vf = flag (getV s x) (getV s y) := by
  cases h : s.params.aluVfReading with
  | sequential => simp [getV_writeFlagged_sequential _ _ _ _ _ _ h, hx.symm]
  | snapshotFlagLast => simp [getV_writeFlagged_snapshot _ _ _ _ _ _ h]

/-- Vx is not VF: the result in Vx sees a Vy that is VF as the flag, under `sequential` only. -/
theorem getV_writeFlagged_result (hx : x ≠ vf) : getV (writeFlagged flag result x y s) x =
    result (getV s x)
      (if s.params.aluVfReading = .sequential ∧ y = vf then flag (getV s x) (getV s y) else getV s y) := by
  cases h : s.params.aluVfReading with
  | sequential => simp [getV_writeFlagged_sequential _ _ _ _ _ _ h, hx]
  | snapshotFlagLast => simp [getV_writeFlagged_snapshot _ _ _ _ _ _ h, hx]

/-- Neither operand is VF: both readings leave the same registers. -/
theorem getV_writeFlagged_anyReading (hx : x ≠ vf) (hy : y ≠ vf) (g : VfReading) (r : RegIdx) :
    getV (writeFlagged flag result x y { s with params := { s.params with aluVfReading := g } }) r =
      getV (writeFlagged flag result x y s) r := by
  by_cases hrx : r = x
  · subst hrx
    rw [getV_writeFlagged_result hx, getV_writeFlagged_result hx, if_neg fun h => hy h.2, if_neg fun h => hy h.2]
    rfl
  · by_cases hrf : r = vf
    · subst hrf
      rw [getV_writeFlagged_flag hx, getV_writeFlagged_flag hx]
      rfl
    · rw [getV_writeFlagged_other hrx hrf, getV_writeFlagged_other hrx hrf]
      rfl

theorem greaterFlag_toNat (a b : Byte) : (greaterFlag a b).toNat = if a.toNat > b.toNat then 1 else 0 := by
  rw [greaterFlag_eq]
  split <;> rfl

theorem greaterFlag_self (a : Byte) : greaterFlag a a = 0 := by
  rw [greaterFlag_eq, if_neg (Nat.lt_irrefl _)]

theorem sub8_self (a : Byte) : sub8 a a = 0 := by
  rw [sub8_eq, BitVec.sub_self]
  rfl

/-- Settles O34: each row is `getV_writeFlagged_toVf` (X = F) or `getV_writeFlagged_flag` and `getV_writeFlagged_result` (Y = F);
off the table the readings agree (`getV_writeFlagged_anyReading`). -/
theorem vfOperandTable : Obligations.VfOperandTable := by
  intro s x y t u hx hy
  refine ⟨fun h => ?subToVf, fun h => ?subFromVf, fun h => ?subnToVf, fun h => ?subnFromVf, fun h => ?ofVfItself, fun h => ?shr,
    fun h => ?shl, fun i hi g h k r => ?readings⟩
  case subToVf | subnToVf =>
    cases h
    rw [getV_advance, getV_writeFlagged_toVf, if_neg hy, apply_ite BitVec.toNat, sub8_toNat_borrow, greaterFlag_toNat]
  case subFromVf | subnFromVf =>
    cases h
    rw [getV_advance, getV_advance, getV_writeFlagged_flag hx, getV_writeFlagged_result hx, sub8_toNat_borrow, greaterFlag_toNat]
    refine ⟨rfl, ?_⟩
    simp only [and_true]
    split <;> simp only [greaterFlag_toNat]
  case ofVfItself =>
    rcases h with h | h <;> cases h <;> rw [getV_advance, getV_writeFlagged_toVf] <;> simp [greaterFlag_self, sub8_self]
  case shr =>
    cases h
    rw [getV_advance, getV_writeFlagged_toVf, apply_ite BitVec.toNat, shiftRight1_toNat, lowBit_toNat]
    simp only [show (getV s vf).toNat % 2 / 2 = 0 by omega]
  case shl =>
    cases h
    rw [getV_advance, getV_writeFlagged_toVf, apply_ite BitVec.toNat, shiftLeft1_toNat, highBit_toNat]
    have := (getV s vf).isLt
    rw [Nat.mod_eq_of_lt (by omega)]
  case readings =>
    simp only [List.mem_cons, List.not_mem_nil, or_false] at hi
    rcases hi with rfl | rfl | rfl | rfl <;> cases h <;> cases k
    · exact getV_writeFlagged_anyReading hx hy g r
    · exact getV_writeFlagged_anyReading hx hy g r
    · exact getV_writeFlagged_anyReading hx hx g r
    · exact getV_writeFlagged_anyReading hx hx g r

end VfOperand

end Sys2Proof.Machine
end

section
/-!
RND, ADD I, the key skips, FX18, FX0A and a run of timer ticks (41_alu.md R175; 42_index_memory.md R202; 44_keys_timers.md R260,
R261, R264, R265, R280).
-/

namespace Sys2Proof.Machine

/-- CXNN: the next free byte under the mask goes to Vx (R175). -/
theorem exec_rnd (x : RegIdx) (nn : Byte) (s : State) :
    exec (.rnd x nn) s = .next (advance (setV (setDraws (s.draws + 1) s) x (Config.randomByte s.draws &&& nn))) := rfl

/-- Settles O35: the byte is `Config.randomByte` of the draw (`exec_rnd`). -/
theorem randomAndMask : Obligations.RandomAndMask := by
  intro s x nn
  refine ⟨_, exec_rnd x nn s, (unchangedExcept_iff ..).mpr (by simp [Unchanged]), rfl, rfl, ⟨Config.randomByte s.draws, ?_⟩,
    fun hnn => ?_, fun r hr => ?_⟩
  · rw [getV_advance, getV_setV, if_pos rfl]
  · rw [getV_advance, getV_setV, if_pos rfl, hnn]
    exact BitVec.and_zero
  · rw [getV_advance, getV_setV, if_neg hr, getV_setDraws]

/-- FX1E adds modulo 2^16 (R202). -/
theorem add_zextByte_toNat (w : Word) (b : Byte) : (w + zextByte b).toNat = (w.toNat + b.toNat) % 65536 := by
  unfold zextByte
  bv_omega

/-- Settles O37: FX1E loads I with the sum (`add_zextByte_toNat`) and advances. -/
theorem addToAddressRegister : Obligations.AddToAddressRegister :=
  fun s x => ⟨_, rfl, advance_setI_frame (s.i + zextByte (getV s x)) s, rfl, add_zextByte_toNat ..⟩

section KeySkips

variable {s : State}

theorem keyFlag_done {k : Byte} (hk : k.toNat < 16) : keyFlag k s = .done s.keys[k.toNat] s := dif_pos hk

theorem keyFlag_raised {k : Byte} (hk : 16 ≤ k.toNat) : keyFlag k s = .raised (.outOfRange (.keyIndex k.toNat)) s :=
  dif_neg (Nat.not_lt.mpr hk)

/-- Settles O28: both instructions test the key's flag, which is there below 16 (`keyFlag_done`, `keyFlag_raised`), and skip on it
or on its negation (`skips_of_exec`). -/
theorem keySkips : Obligations.KeySkips := by
  intro s x
  refine ⟨fun hk => ⟨?_, ?_⟩, fun hk => ⟨?_, ?_⟩⟩
  · refine skips_of_exec (c := s.keys[(getV s x).toNat]) ?_ (keyDown_iff hk)
    rw [exec, execSkp, keyFlag_done hk, finish_done]
  · refine skips_of_exec (c := !s.keys[(getV s x).toNat]) ?_ (by rw [Bool.not_eq_true', ← keyDown_iff hk, Bool.not_eq_true])
    rw [exec, execSknp, keyFlag_done hk, finish_done]
  · rw [exec, execSkp, keyFlag_raised hk]
    rfl
  · rw [exec, execSknp, keyFlag_raised hk]
    rfl

end KeySkips

/-- A tick turns Tone on exactly when St was above 1 (R280). -/
theorem timerStep_tone_iff (s : State) : (timerStep s).tone = true ↔ 1 < s.st.toNat := by
  rw [timerStep, setTone_tone, decide_eq_true_iff, tickDown_toNat]
  omega

/-- Settles O49: FX18 writes St alone, and the next tick reads it (`timerStep_tone_iff`). -/
theorem soundTimer : Obligations.SoundTimer := fun s x =>
  ⟨advance (setSt (getV s x) s), rfl, (unchangedExcept_iff ..).mpr (by simp [Unchanged]), rfl, rfl, timerStep_tone_iff _⟩

/-- Settles O50: FX0A sets Mode and advances, whatever the key flags are. -/
theorem keyWaitEntered : Obligations.KeyWaitEntered := fun s x =>
  ⟨advance (setMode (.awaitingKey x) s), rfl, (unchangedExcept_iff ..).mpr (by simp [Unchanged]), rfl, rfl⟩

/-- Settles O54: by induction on the ticks, each lowering both timers by one with a floor at 0 (`tickDown_toNat`). -/
theorem timerDecay : Obligations.TimerDecay := by
  intro s m
  induction m with
  | zero => exact ⟨rfl, rfl⟩
  | succ m ih =>
    obtain ⟨hdt, hst⟩ := ih
    rw [Function.iterate_succ_apply']
    refine ⟨(tickDown_toNat _).trans ?_, (tickDown_toNat _).trans ?_⟩
    · rw [hdt, Nat.sub_sub]
    · rw [hst, Nat.sub_sub]

end Sys2Proof.Machine
end

section
/-!
FX33, FX55 and FX65 (42_index_memory.md R204-R206; 60_exceptions.md R302): the state each leaves when every address exists, and when
access `j` is the first whose address does not.
-/

namespace Sys2Proof.Machine

section Digits

variable (b : Byte)

theorem bcdDigits_hundreds : ((bcdDigits b).getD 0 0).toNat = b.toNat / 100 := by
  show (BitVec.ofNat 8 (b.toNat / 100)).toNat = _
  rw [BitVec.toNat_ofNat]
  omega

theorem bcdDigits_tens : ((bcdDigits b).getD 1 0).toNat = b.toNat / 10 % 10 := by
  show (BitVec.ofNat 8 (b.toNat / 10 % 10)).toNat = _
  rw [BitVec.toNat_ofNat]
  omega

theorem bcdDigits_units : ((bcdDigits b).getD 2 0).toNat = b.toNat % 10 := by
  show (BitVec.ofNat 8 (b.toNat % 10)).toNat = _
  rw [BitVec.toNat_ofNat]
  omega

end Digits

/-- I after `n` accesses, when the last of them was below the largest MEM_SIZE. -/
theorem i_add_toNat {w : Word} {n : Nat} (h : w.toNat + n < 2 ^ 16) : (w + BitVec.ofNat 16 n).toNat = w.toNat + n := by
  bv_omega

/-- No address before a failing one is above MEM_SIZE, so I + j does not wrap. -/
theorem i_add_lt {w : Word} {c : Params} {j : Nat} (hc : c.wf = true) (ok : ∀ k < j, w.toNat + k < c.memSize) :
    w.toNat + j < 2 ^ 16 := by
  have hsize := Params.memSize_le hc
  have hw := w.isLt
  cases j with
  | zero => exact hw
  | succ j =>
    have := ok j (Nat.lt_succ_self j)
    omega

theorem ofNat_toNat_zero_add (r : RegIdx) : BitVec.ofNat 4 (0 + r.toNat) = r := by
  simp

section Instructions

variable {s : State} {x : RegIdx}

theorem exec_ldB_done (h : dataAddr s 0 + 2 < s.params.memSize) : ∃ m', exec (.ldB x) s = .next (advance (setMem m' s)) ∧
    CellsWritten s m' (dataAddr s 0) 3 fun k => (bcdDigits (getV s x)).getD k 0 := by
  obtain ⟨m', hstore, hcells⟩ := storeBytes_done (bcdDigits (getV s x)) (dataAddr s 0) s fun k (hk : k < 3) => by omega
  exact ⟨m', by rw [exec, execLdB, hstore, finish_done], hcells⟩

theorem exec_ldB_stops {j : Nat} (hj : j < 3) (bad : s.params.memSize ≤ dataAddr s 0 + j)
    (ok : ∀ k < j, dataAddr s 0 + k < s.params.memSize) :
    ∃ m', exec (.ldB x) s = .next (setFault (some (.outOfRange (.mem (dataAddr s 0 + j)))) (setMem m' s)) ∧
      CellsWritten s m' (dataAddr s 0) j fun k => (bcdDigits (getV s x)).getD k 0 := by
  obtain ⟨m', hstore, hcells⟩ := storeBytes_raised (bcdDigits (getV s x)) (dataAddr s 0) j s hj ok bad
  exact ⟨m', by rw [exec, execLdB, hstore, finish_raised], hcells⟩

theorem exec_ldMemVx_done (hm : s.params.memSize ≤ 0xF000) (h : s.i.toNat + x.toNat < s.params.memSize) :
    ∃ m', exec (.ldMemVx x) s = .next (advance (setI (s.i + BitVec.ofNat 16 (x.toNat + 1)) (setMem m' s))) ∧
      CellsWritten s m' s.i.toNat (x.toNat + 1) fun l => getV s (BitVec.ofNat 4 (0 + l)) := by
  obtain ⟨m', hstore, hcells⟩ := storeRegs_done (x.toNat + 1) 0 s hm fun l hl => by omega
  exact ⟨m', by rw [exec, execLdMemVx, hstore, finish_done], hcells⟩

theorem exec_ldMemVx_stops {j : Nat} (hm : s.params.memSize ≤ 0xF000) (hj : j ≤ x.toNat)
    (bad : s.params.memSize ≤ s.i.toNat + j) (ok : ∀ k < j, s.i.toNat + k < s.params.memSize) :
    ∃ m', exec (.ldMemVx x) s =
        .next (setFault (some (.outOfRange (.mem (s.i.toNat + j)))) (setI (s.i + BitVec.ofNat 16 j) (setMem m' s))) ∧
      CellsWritten s m' s.i.toNat j fun l => getV s (BitVec.ofNat 4 (0 + l)) := by
  obtain ⟨m', hstore, hcells⟩ := storeRegs_raised (x.toNat + 1) 0 j s hm (Nat.lt_succ_of_le hj) ok bad
  exact ⟨m', by rw [exec, execLdMemVx, hstore, finish_raised], hcells⟩

theorem exec_ldVxMem_done (hm : s.params.memSize ≤ 0xF000) (h : s.i.toNat + x.toNat < s.params.memSize) :
    ∃ v', exec (.ldVxMem x) s = .next (advance (setI (s.i + BitVec.ofNat 16 (x.toNat + 1)) (setRegs v' s))) ∧
      RegsLoaded s (setRegs v' s) 0 (x.toNat + 1) := by
  have hx := x.isLt
  obtain ⟨v', hload, hregs⟩ := loadRegs_done (x.toNat + 1) 0 s hm (by omega) fun l hl => by omega
  exact ⟨v', by rw [exec, execLdVxMem, hload, finish_done], hregs⟩

theorem exec_ldVxMem_stops {j : Nat} (hm : s.params.memSize ≤ 0xF000) (hj : j ≤ x.toNat)
    (bad : s.params.memSize ≤ s.i.toNat + j) (ok : ∀ k < j, s.i.toNat + k < s.params.memSize) :
    ∃ v', exec (.ldVxMem x) s =
        .next (setFault (some (.outOfRange (.mem (s.i.toNat + j)))) (setI (s.i + BitVec.ofNat 16 j) (setRegs v' s))) ∧
      RegsLoaded s (setRegs v' s) 0 j := by
  have hx := x.isLt
  obtain ⟨v', hload, hregs⟩ := loadRegs_raised (x.toNat + 1) 0 j s hm (by omega) (Nat.lt_succ_of_le hj) ok bad
  exact ⟨v', by rw [exec, execLdVxMem, hload, finish_raised], hregs⟩

theorem RegsLoaded.inside {t : State} {n : Nat} (h : RegsLoaded s t 0 n) {r : RegIdx} (hr : r.toNat < n) :
    getV t r = byteAt s (s.i.toNat + r.toNat) := by
  rw [h r, if_pos (by omega), Nat.sub_zero]

theorem RegsLoaded.outside {t : State} {n : Nat} (h : RegsLoaded s t 0 n) {r : RegIdx} (hr : n ≤ r.toNat) :
    getV t r = getV s r := by
  rw [h r, if_neg (by omega)]

end Instructions

/-- Settles O39: `exec_ldB_done`, each digit read back from the run of stores. -/
theorem bcdStore : Obligations.BcdStore := by
  intro s x h
  obtain ⟨m', he, hcells⟩ := exec_ldB_done (x := x) h
  refine ⟨_, he, (unchangedExcept_iff ..).mpr (by simp [Unchanged]), rfl, ?_, ?_, ?_, fun a => hcells.byteAt_outside⟩
  · exact (congrArg _ (hcells.byteAt_inside (k := 0) (by decide))).trans (bcdDigits_hundreds _)
  · exact (congrArg _ (hcells.byteAt_inside (k := 1) (by decide))).trans (bcdDigits_tens _)
  · exact (congrArg _ (hcells.byteAt_inside (k := 2) (by decide))).trans (bcdDigits_units _)

/-- Settles O40: `exec_ldB_stops`, the digits before the failing one read back. -/
theorem bcdStoreStops : Obligations.BcdStoreStops := by
  intro s x j hj bad ok
  obtain ⟨m', he, hcells⟩ := exec_ldB_stops (x := x) hj bad ok
  refine ⟨_, he, (unchangedExcept_iff ..).mpr (by simp [Unchanged]), rfl, fun h0 => ?_, fun h1 => ?_,
    fun a => hcells.byteAt_outside⟩
  · exact (congrArg _ (hcells.byteAt_inside (k := 0) h0)).trans (bcdDigits_hundreds _)
  · exact (congrArg _ (hcells.byteAt_inside (k := 1) h1)).trans (bcdDigits_tens _)

/-- Settles O41: `exec_ldMemVx_done`; I + X + 1 does not wrap. -/
theorem storeRegisters : Obligations.StoreRegisters := by
  intro s x hc h
  have hsize := Params.memSize_le hc
  obtain ⟨m', he, hcells⟩ := exec_ldMemVx_done hsize h
  refine ⟨_, he, (unchangedExcept_iff ..).mpr (by simp [Unchanged]), rfl, i_add_toNat (by omega), fun r hr => ?_,
    fun a ha => hcells.byteAt_outside (by omega)⟩
  exact (hcells.byteAt_inside (Nat.lt_succ_of_le hr)).trans (by rw [ofNat_toNat_zero_add])

/-- Settles O42: `exec_ldMemVx_stops`; I + j does not wrap (`i_add_lt`). -/
theorem storeRegistersStops : Obligations.StoreRegistersStops := by
  intro s x j hc hj bad ok
  obtain ⟨m', he, hcells⟩ := exec_ldMemVx_stops (Params.memSize_le hc) hj bad ok
  refine ⟨_, he, (unchangedExcept_iff ..).mpr (by simp [Unchanged]), rfl, i_add_toNat (i_add_lt hc ok), fun r hr => ?_,
    fun a => hcells.byteAt_outside⟩
  exact (hcells.byteAt_inside hr).trans (by rw [ofNat_toNat_zero_add])

/-- Settles O43: the word by `decodeOfEncode`; `exec_ldVxMem_done` and `exec_ldVxMem_stops`. -/
theorem loadRegisters : Obligations.LoadRegisters := by
  intro s x hc
  have hsize := Params.memSize_le hc
  refine ⟨decodeOfEncode (.ldVxMem x), fun h => ?_, fun j hj bad ok => ?_⟩
  · obtain ⟨v', he, hregs⟩ := exec_ldVxMem_done hsize h
    exact ⟨_, he, (unchangedExcept_iff ..).mpr (by simp [Unchanged]), rfl, i_add_toNat (by omega),
      fun r hr => hregs.inside (Nat.lt_succ_of_le hr), fun r => hregs.outside⟩
  · obtain ⟨v', he, hregs⟩ := exec_ldVxMem_stops hsize hj bad ok
    exact ⟨_, he, (unchangedExcept_iff ..).mpr (by simp [Unchanged]), rfl, i_add_toNat (i_add_lt hc ok),
      fun r => hregs.inside, fun r => hregs.outside⟩

end Sys2Proof.Machine
end

section
/-!
DXYN (43_display.md R235, R236; 60_exceptions.md R302): the blit it makes and the flag it writes, and that the same blit again
undoes it.
-/

namespace Sys2Proof.Machine

section Framebuffers

variable {c : Params}

/-- Two framebuffers of the display's size that show the same pixels are the same. -/
theorem pix_ext {p q : Pix} (hp : Pix.wf c p = true) (hq : Pix.wf c q = true)
    (h : ∀ px py, pixelAt c p px py = pixelAt c q px py) : p = q := by
  obtain ⟨hpl, hpr⟩ := (Pix.wf_iff p).mp hp
  obtain ⟨hql, hqr⟩ := (Pix.wf_iff q).mp hq
  refine List.ext_getElem (hpl.trans hql.symm) fun y hy hy' => ?_
  have hpw := hpr _ (List.getElem_mem hy)
  have hqw := hqr _ (List.getElem_mem hy')
  refine List.ext_getElem (hpw.trans hqw.symm) fun x hx hx' => ?_
  have hxy := h x y
  rw [pixelAt, pixelAt, Nat.mod_eq_of_lt (hpl ▸ hy), Nat.mod_eq_of_lt (hpw ▸ hx)] at hxy
  rwa [List.getD_eq_getElem _ _ hy, List.getD_eq_getElem _ _ hy', List.getD_eq_getElem _ _ hx, List.getD_eq_getElem _ _ hx'] at hxy

/-- The same mask blitted twice restores the framebuffer: each pixel is XORed twice with one bit. -/
theorem Blitted.twice {p q r : Pix} {d e : Bool} {m : Nat → Nat → Bool} (hp : Pix.wf c p = true) (h : Blitted c p q d m)
    (k : Blitted c q r e m) : r = p := by
  refine pix_ext k.wf hp fun px py => ?_
  rw [k.pixel, h.pixel, Bool.xor_assoc, Bool.xor_self, Bool.xor_false]

/-- A blit on a clear screen turns no pixel off. -/
theorem Blitted.no_hit {p q : Pix} {e : Bool} {m : Nat → Nat → Bool} (h : Blitted c p q e m)
    (hclear : ∀ px py, pixelAt c p px py = false) : e = false := by
  rw [← Bool.not_eq_true, h.hit]
  rintro ⟨px, py, _, _, hon, _⟩
  rw [hclear] at hon
  cases hon

theorem exists_bit_of_ne_zero {b : Byte} (h : b ≠ 0) : ∃ j < 8, b.getLsbD (7 - j) = true := by
  by_contra hnone
  refine h (BitVec.eq_of_getLsbD_eq fun j hj => Eq.trans ?_ BitVec.getLsbD_zero.symm)
  rw [← Bool.not_eq_true]
  exact fun hb => hnone ⟨7 - j, by omega, by rwa [Nat.sub_sub_self (Nat.le_of_lt_succ hj)]⟩

/-- A sprite with a byte that is not zero covers some pixel of the screen. -/
theorem exists_spriteBit (hc : c.wf = true) {rows : Nat → Byte} {n k : Nat} (x y : Nat) (hn : n ≤ 15) (hk : k < n)
    (hrow : rows k ≠ 0) : ∃ px py, px < c.displayW ∧ py < c.displayH ∧ spriteBit c rows n x y px py = true := by
  have hw := Params.displayW_gt hc
  have hh := Params.displayH_gt hc
  obtain ⟨j, hj, hbit⟩ := exists_bit_of_ne_zero hrow
  have hrowOf : rowOffset c y ((y + k) % c.displayH) = k := (rowOffset_eq_iff hc y _ k (by omega)).mpr (Nat.mod_mod ..)
  have hcolumnOf : columnOffset c x ((x + j) % c.displayW) = j := (columnOffset_eq_iff hc x _ j hj).mpr (Nat.mod_mod ..)
  refine ⟨(x + j) % c.displayW, (y + k) % c.displayH, Nat.mod_lt _ (by omega), Nat.mod_lt _ (by omega), ?_⟩
  rw [spriteBit, hrowOf, hcolumnOf, hbit, decide_eq_true hk, decide_eq_true hj]
  rfl

end Framebuffers

section Instruction

variable {s : State} {x y : RegIdx} {n : Nibble}

theorem exec_drw_done (hs : Shaped s) (h : ∀ k < n.toNat, s.i.toNat + k < s.params.memSize) :
    ∃ e p', exec (.drw x y n) s = .next (advance (setV (setPix p' s) vf (b2v e))) ∧
      Blitted s.params s.pix p' e (spriteBit s.params (spriteBytes s) n.toNat (getV s x).toNat (getV s y).toNat) := by
  obtain ⟨hc, _, hp⟩ := hs
  have hn := n.isLt
  obtain ⟨e, p', hdraw, hblit⟩ := drawRows_done (getV s x).toNat (getV s y).toNat n.toNat 0 false s hc hp (by omega) h
  refine ⟨e, p', ?_, hblit.congr fun px py => by rw [spriteBit_eq_spriteRows, Nat.zero_add]⟩
  rw [exec, execDrw, hdraw, finish_done, Bool.or_false]

theorem exec_drw_stops {j : Nat} (hs : Shaped s) (hj : j < n.toNat) (bad : s.params.memSize ≤ s.i.toNat + j)
    (ok : ∀ k < j, s.i.toNat + k < s.params.memSize) :
    ∃ e p', exec (.drw x y n) s = .next (setFault (some (.outOfRange (.mem (s.i.toNat + j)))) (setPix p' s)) ∧
      Blitted s.params s.pix p' e (spriteBit s.params (spriteBytes s) j (getV s x).toNat (getV s y).toNat) := by
  obtain ⟨hc, _, hp⟩ := hs
  have hn := n.isLt
  obtain ⟨e, p', hdraw, hblit⟩ :=
    drawRows_raised (getV s x).toNat (getV s y).toNat n.toNat 0 j false s hc hp (by omega) hj ok bad
  refine ⟨e, p', ?_, hblit.congr fun px py => by rw [spriteBit_eq_spriteRows, Nat.zero_add]⟩
  rw [exec, execDrw, hdraw, finish_raised]
  rfl

end Instruction

/-- Settles O45: `exec_drw_done`; the flag is the blit's own report of a collision. -/
theorem drawSprite : Obligations.DrawSprite := by
  intro s x y n hs h
  obtain ⟨e, p', he, hblit⟩ := exec_drw_done (x := x) (y := y) hs h
  have hflag : getV (advance (setV (setPix p' s) vf (b2v e))) vf = b2v e := by rw [getV_advance, getV_setV, if_pos rfl]
  refine ⟨_, he, (unchangedExcept_iff ..).mpr (by simp [Unchanged]), rfl, hblit.pixel, fun hhit => ?_, fun hmiss => ?_,
    fun r hr => ?_⟩
  · rw [hflag, hblit.hit.mpr hhit]
    rfl
  · rw [hflag, Bool.eq_false_iff.mpr (mt hblit.hit.mp hmiss)]
    rfl
  · rw [getV_advance, getV_setV, if_neg hr, getV_setPix]

/-- Settles O46: `exec_drw_stops`. -/
theorem drawSpriteStops : Obligations.DrawSpriteStops := by
  intro s x y n j hs hj bad ok
  obtain ⟨e, p', he, hblit⟩ := exec_drw_stops (x := x) (y := y) hs hj bad ok
  exact ⟨_, he, (unchangedExcept_iff ..).mpr (by simp [Unchanged]), rfl, hblit.pixel⟩

/-- Settles O47: with X and Y not F the second draw blits the same mask (`Blitted.twice`); on a clear screen the first finds no
pixel on (`Blitted.no_hit`), the second those that the first turned on (`exists_spriteBit`). -/
theorem drawTwiceErases : Obligations.DrawTwiceErases := by
  intro s x y n hs hx hy h
  have ⟨hc, hstack, hp⟩ := hs
  obtain ⟨d, p', ht, hfirst⟩ := exec_drw_done (x := x) (y := y) hs h
  have hkeep : ∀ r, r ≠ vf → getV (advance (setV (setPix p' s) vf (b2v d))) r = getV s r := fun r hr => by
    rw [getV_advance, getV_setV, if_neg hr, getV_setPix]
  obtain ⟨e, p'', hu, hsecond⟩ := exec_drw_done (s := advance (setV (setPix p' s) vf (b2v d))) (x := x) (y := y) (n := n)
    ⟨hc, hstack, hfirst.wf⟩ h
  rw [hkeep x hx, hkeep y hy] at hsecond
  refine ⟨_, _, ht, hu, hfirst.twice hp hsecond, fun hclear => ⟨?_, fun ⟨k, hk, hrow⟩ => ?_⟩⟩
  · rw [getV_advance, getV_setV, if_pos rfl, hfirst.no_hit hclear]
    rfl
  · have hn := n.isLt
    obtain ⟨px, py, hpx, hpy, hbit⟩ := exists_spriteBit hc (getV s x).toNat (getV s y).toNat (by omega) hk hrow
    have hon : pixelAt s.params p' px py = true := by rw [hfirst.pixel, hclear, hbit]; rfl
    rw [getV_advance, getV_setV, if_pos rfl, hsecond.hit.mpr ⟨px, py, hpx, hpy, hon, hbit⟩]
    rfl

end Sys2Proof.Machine
end

section
/-!
Reset, the launch state and the accessors (10_state.md R41; 70_reset_and_hazards.md R350, R352; 60_exceptions.md R331).
-/

namespace Sys2Proof.Machine

section ResetContents

variable {c : Params}

/-- The reset contents of memory hold the font table from FONT_BASE on (20_memory.md R67). -/
theorem unlistedByte_font {k : Nat} (hk : k < c.fontTable.length) : unlistedByte c (c.fontBase + k) = c.fontTable[k] := by
  rw [unlistedByte, if_pos (Nat.le_add_right ..), Nat.add_sub_cancel_left, List.getD_eq_getElem _ _ hk]

theorem unlistedByte_elsewhere {a : Nat} (h : a < c.fontBase ∨ c.fontBase + c.fontTable.length ≤ a) : unlistedByte c a = 0 := by
  unfold unlistedByte
  split
  · exact List.getD_eq_default _ _ (by omega)
  · rfl

theorem getV_resetWith (r : RegIdx) : getV (State.resetWith c) r = 0 := Vector.getElem_replicate ..

theorem not_keyDown_resetWith (k : Nat) : ¬KeyDown (State.resetWith c) k := by
  rintro ⟨hk, hdown⟩
  rw [show (State.resetWith c).keys = Vector.replicate 16 false from rfl, Vector.getElem_replicate] at hdown
  cases hdown

/-- PROGRAM_START is below MEM_SIZE, so it fits PC (00_scope.md R8). -/
theorem resetWith_pc_toNat (hc : c.wf = true) : (State.resetWith c).pc.toNat = c.programStart := by
  obtain ⟨_, hstart, hsize, _⟩ := (Params.wf_iff c).mp hc
  exact Nat.mod_eq_of_lt (by omega)

end ResetContents

/-- Reset keeps the model's own fields (log 21). -/
theorem resetBoard_frame (s : State) : UnchangedExcept
    [.v, .i, .pc, .sp, .stack, .dt, .st, .mode, .mem, .pix, .keys, .tone, .fault] s (resetBoard s) :=
  (unchangedExcept_iff ..).mpr (by simp [Unchanged, resetBoard, State.resetWith])

/-- Settles O56: reset is enabled in every state (`transact_reset`), and field by field its state is that of `State.resetWith`. -/
theorem resetState : Obligations.ResetState := fun s hc =>
  ⟨resetBoard s, transact_reset s, resetBoard_frame s, (stateInv_resetWith hc).1, getV_resetWith (c := s.params), rfl,
    resetWith_pc_toNat hc, rfl, fun _ hk => List.getElem?_replicate_of_lt hk, rfl, rfl, rfl, fun _ => unlistedByte_font,
    fun _ => unlistedByte_elsewhere, pixelAt_clearPix, not_keyDown_resetWith (c := s.params), rfl, rfl⟩

/-- Settles O57: the image fits, so the load from PROGRAM_START is complete (`writeBulk_done`). -/
theorem launchState : Obligations.LaunchState := by
  intro c image hfits
  obtain ⟨m', hload, hcells⟩ := writeBulk_done image c.programStart (State.resetWith c) fun k hk =>
    Nat.lt_of_lt_of_le (Nat.add_lt_add_left hk _) hfits
  rw [launch, hload]
  exact ⟨setMem_frame m' _, rfl, rfl, fun k hk => hcells.byteAt_getElem hk hk, fun a => hcells.byteAt_outside⟩

section Accessors

variable {s : State}

theorem bytesAt_eq_map (a n : Nat) : bytesAt s a n = (List.range n).map fun j => byteAt s (a + j) := by
  induction n generalizing a with
  | zero => rfl
  | succ n ih =>
    rw [bytesAt, ih, List.range_succ_eq_map, List.map_cons, List.map_map, Nat.add_zero]
    refine congrArg _ (List.map_congr_left fun j _ => ?_)
    rw [Function.comp_apply, Nat.succ_eq_add_one, Nat.add_right_comm, Nat.add_assoc]

theorem readV_ok {k : Nat} (hk : k < 16) : readV s k = .ok (getV s (BitVec.ofNat 4 k)) := by
  simp [readV, hk, getV, Nat.mod_eq_of_lt hk]

/-- Settles O59: each accessor's own bound check; the bytes that readMem gives by `bytesAt_eq_map`. -/
theorem accessors : Obligations.Accessors := by
  intro s k addr len
  refine ⟨readV_ok, fun hk => dif_neg (Nat.not_lt.mpr hk), fun hk => if_pos hk,
    fun hk => if_neg (Nat.not_lt.mpr hk), fun h => ?_, fun h => if_pos h⟩
  rw [readMem, if_neg (Nat.not_lt.mpr h), bytesAt_eq_map]

end Accessors

end Sys2Proof.Machine
end

section
/-!
The partial-effect table (60_exceptions.md R302; D6, D7, D8): an instruction that fails does so at its first access whose address
does not exist, or at a check that comes before any write.
-/

namespace Sys2Proof.Machine

/-- What the table lets an instruction that failed with `e` have committed. -/
def CommitsOnlyListed (i : Instr) (s t : State) (e : StepError) : Prop :=
  UnchangedExcept (failureParts i) s t ∧
    ∀ f, e = .outOfRange (.mem f) → FailedAccessLeaves i s t f ∧ (.i ∈ failureParts i → t.i.toNat = f)

/-- Consecutive accesses from `a`: all exist, or there is a first that does not. -/
theorem all_exist_or_first_missing (a n size : Nat) :
    (∀ k < n, a + k < size) ∨ ∃ j < n, size ≤ a + j ∧ ∀ k < j, a + k < size := by
  by_cases h : ∀ k < n, a + k < size
  · exact .inl h
  · push Not at h
    obtain ⟨k, hk, hbad⟩ := h
    exact .inr ⟨size - a, by omega, by omega, fun l hl => by omega⟩

section Instructions

variable {s t : State} {e : StepError}

/-- An instruction that succeeds leaves no error. -/
theorem not_failed_of_fault_eq {P : Prop} (hs : s.fault = none) (ht : t.fault = some e) (h : t.fault = s.fault) : P := by
  rw [h, hs] at ht
  cases ht

theorem skipIf_fault (c : Bool) (s : State) : (skipIf c s).fault = s.fault := by
  rw [skipIf_eq, jumpTo_fault]

/-- A check that comes before any write: only the fault record is set (D7, D8). -/
theorem commits_nothing {i : Instr} (hi : failureParts i = [.fault]) (hmem : ∀ f, e ≠ .outOfRange (.mem f)) :
    CommitsOnlyListed i s (setFault (some e) s) e :=
  ⟨by rw [hi]; exact (unchangedExcept_iff ..).mpr (by simp [Unchanged]), fun f hf => absurd hf (hmem f)⟩

theorem execRet_failed (hs : s.fault = none) (h : execRet s = .next t) (ht : t.fault = some e) : CommitsOnlyListed .ret s t e := by
  unfold execRet at h
  rcases pop_cases s with ⟨_, he⟩ | ⟨_, _, he⟩ | ⟨_, _, he⟩ <;> rw [he] at h <;> cases h
  · cases ht
    exact commits_nothing rfl nofun
  · exact not_failed_of_fault_eq hs ht rfl

theorem execCall_failed {nnn : Addr12} (hs : s.fault = none) (h : execCall nnn s = .next t) (ht : t.fault = some e) :
    CommitsOnlyListed (.call nnn) s t e := by
  unfold execCall at h
  rcases push_cases (s.pc + 2) s with ⟨_, he⟩ | ⟨_, _, he⟩ | ⟨_, _, he⟩ <;> rw [he] at h <;> cases h
  · cases ht
    exact commits_nothing rfl nofun
  · exact not_failed_of_fault_eq hs ht rfl

theorem keySkip_failed {i : Instr} {k : Byte} {g : Bool → Bool} (hi : failureParts i = [.fault]) (hs : s.fault = none)
    (h : (keyFlag k s).finish (fun down u => skipIf (g down) u) = .next t) (ht : t.fault = some e) : CommitsOnlyListed i s t e := by
  rcases keyFlag_cases k s with ⟨_, he⟩ | ⟨_, he⟩ <;> rw [he] at h <;> cases h
  · exact not_failed_of_fault_eq hs ht (skipIf_fault ..)
  · cases ht
    exact commits_nothing hi nofun

theorem execLdF_failed {x : RegIdx} (hs : s.fault = none) (h : execLdF x s = .next t) (ht : t.fault = some e) :
    CommitsOnlyListed (.ldF x) s t e := by
  unfold execLdF at h
  rcases fontGlyphPointer_cases (getV s x) s with ⟨_, he⟩ | ⟨_, he⟩ <;> rw [he] at h <;> cases h
  · exact not_failed_of_fault_eq hs ht rfl
  · cases ht
    exact commits_nothing rfl nofun

theorem exec_ldB_failed {x : RegIdx} (hs : s.fault = none) (h : exec (.ldB x) s = .next t) (ht : t.fault = some e) :
    CommitsOnlyListed (.ldB x) s t e := by
  rcases all_exist_or_first_missing (dataAddr s 0) 3 s.params.memSize with ok | ⟨j, hj, bad, ok⟩
  · obtain ⟨m', he, _⟩ := exec_ldB_done (x := x) (ok 2 (by decide))
    cases he.symm.trans h
    exact not_failed_of_fault_eq hs ht rfl
  · obtain ⟨m', he, hcells⟩ := exec_ldB_stops (x := x) hj bad ok
    cases he.symm.trans h
    cases ht
    refine ⟨(unchangedExcept_iff ..).mpr (by simp [failureParts, Unchanged]), fun f hf => ?_⟩
    cases hf
    exact ⟨fun a => hcells.byteAt_outside, by simp [failureParts]⟩

theorem exec_ldMemVx_failed {x : RegIdx} (hc : s.params.wf = true) (hs : s.fault = none) (h : exec (.ldMemVx x) s = .next t)
    (ht : t.fault = some e) : CommitsOnlyListed (.ldMemVx x) s t e := by
  have hsize := Params.memSize_le hc
  rcases all_exist_or_first_missing s.i.toNat (x.toNat + 1) s.params.memSize with ok | ⟨j, hj, bad, ok⟩
  · obtain ⟨m', he, _⟩ := exec_ldMemVx_done hsize (ok x.toNat (Nat.lt_succ_self _))
    cases he.symm.trans h
    exact not_failed_of_fault_eq hs ht rfl
  · obtain ⟨m', he, hcells⟩ := exec_ldMemVx_stops hsize (Nat.le_of_lt_succ hj) bad ok
    cases he.symm.trans h
    cases ht
    refine ⟨(unchangedExcept_iff ..).mpr (by simp [failureParts, Unchanged]), fun f hf => ?_⟩
    cases hf
    exact ⟨fun a => hcells.byteAt_outside, fun _ => i_add_toNat (i_add_lt hc ok)⟩

theorem exec_ldVxMem_failed {x : RegIdx} (hc : s.params.wf = true) (hs : s.fault = none) (h : exec (.ldVxMem x) s = .next t)
    (ht : t.fault = some e) : CommitsOnlyListed (.ldVxMem x) s t e := by
  have hsize := Params.memSize_le hc
  rcases all_exist_or_first_missing s.i.toNat (x.toNat + 1) s.params.memSize with ok | ⟨j, hj, bad, ok⟩
  · obtain ⟨v', he, _⟩ := exec_ldVxMem_done hsize (ok x.toNat (Nat.lt_succ_self _))
    cases he.symm.trans h
    exact not_failed_of_fault_eq hs ht rfl
  · obtain ⟨v', he, hregs⟩ := exec_ldVxMem_stops hsize (Nat.le_of_lt_succ hj) bad ok
    cases he.symm.trans h
    cases ht
    refine ⟨(unchangedExcept_iff ..).mpr (by simp [failureParts, Unchanged]), fun f hf => ?_⟩
    cases hf
    exact ⟨fun r hr => hregs.outside (Nat.le_of_add_le_add_left hr), fun _ => i_add_toNat (i_add_lt hc ok)⟩

theorem exec_drw_failed {x y : RegIdx} {n : Nibble} (hshape : Shaped s) (hs : s.fault = none) (h : exec (.drw x y n) s = .next t)
    (ht : t.fault = some e) : CommitsOnlyListed (.drw x y n) s t e := by
  rcases all_exist_or_first_missing s.i.toNat n.toNat s.params.memSize with ok | ⟨j, hj, bad, ok⟩
  · obtain ⟨_, p', he, _⟩ := exec_drw_done (x := x) (y := y) hshape ok
    cases he.symm.trans h
    exact not_failed_of_fault_eq hs ht rfl
  · obtain ⟨_, p', he, hblit⟩ := exec_drw_stops (x := x) (y := y) hshape hj bad ok
    cases he.symm.trans h
    cases ht
    refine ⟨(unchangedExcept_iff ..).mpr (by simp [failureParts, Unchanged]), fun f hf => ?_⟩
    cases hf
    refine ⟨fun px py hout => (hblit.pixel px py).trans ?_, by simp [failureParts]⟩
    rw [spriteBit]
    rcases hout with hrow | hcolumn
    · rw [decide_eq_false (Nat.not_lt.mpr (Nat.le_of_add_le_add_left hrow)), Bool.false_and, Bool.false_and, Bool.xor_false]
    · rw [decide_eq_false (Nat.not_lt.mpr hcolumn), Bool.and_false, Bool.false_and, Bool.xor_false]

end Instructions

/-- Settles O15: an instruction without a failure keeps the fault record; the others are taken one by one. -/
theorem failedInstructionCommitsOnlyListed : Obligations.FailedInstructionCommitsOnlyListed := by
  intro i s t e hshape hs h ht
  cases i with
  | cls | jp | jpV0 | ldImm | addImm | ldReg | orReg | andReg | xorReg | addReg | ldI | rnd | ldVxDt | ldVxK | ldDtVx | ldStVx
  | addI => cases h; exact not_failed_of_fault_eq hs ht rfl
  | seImm | sneImm | seReg | sneReg => cases h; exact not_failed_of_fault_eq hs ht (skipIf_fault ..)
  | sub | shr | subn | shl => cases h; exact not_failed_of_fault_eq hs ht (writeFlagged_fault ..)
  | ret => exact execRet_failed hs h ht
  | call nnn => exact execCall_failed hs h ht
  | skp x => exact keySkip_failed (g := id) rfl hs h ht
  | sknp x => exact keySkip_failed (g := not) rfl hs h ht
  | ldF x => exact execLdF_failed hs h ht
  | ldB x => exact exec_ldB_failed hs h ht
  | ldMemVx x => exact exec_ldMemVx_failed hshape.1 hs h ht
  | ldVxMem x => exact exec_ldVxMem_failed hshape.1 hs h ht
  | drw x y n => exact exec_drw_failed hshape hs h ht

end Sys2Proof.Machine
end
